-- ==== Sys2Proof/Word.lean ====
section
/-! DEFINITION. The data widths of the crypto engine (rules R8, R9): bytes, 32-bit words and the
byte arrays of fixed length. The operations on them stand in the files under Sys2Proof/Machine. -/

namespace Sys2Proof

/-- A byte: 8 bits, unsigned (rule R8). -/
abbrev Byte := BitVec 8

/-- A word: 32 bits, unsigned (rule R8). -/
abbrev Word := BitVec 32

/-- A byte array of fixed length, element 0 first (rule R9). -/
abbrev Bytes (n : Nat) := Vector Byte n

/-- A cipher block, the IV or the CBC vector: 16 bytes (rule R6). -/
abbrev Block := Bytes 16

end Sys2Proof
end

