-- ==== Sys2Proof/Config.lean ====
section
/-! DEFINITION. The implementation parameters of rule R7 that a rule of the block reads: `BUF_BYTES` and
`PAT_ORDER`. `BASE` is read by nothing (rule R7: the model works on offsets), so it has no place here.
The record is carried by `State` as a constant of the machine: no step changes it, every statement over
all states holds for all parameter values, and `State.reset` takes the defaults of rule R7
(notes/assumptions/1.md). -/

namespace Sys2Proof

/-- `PAT_ORDER` (rule R7): which accumulator byte of `R_BIND` is the low byte of the pattern. -/
inductive PatOrder where
  /-- Accumulator 0 is bits 7:0. -/
  | le
  /-- Accumulator 0 is bits 31:24. -/
  | be
deriving DecidableEq, Repr

/-- The parameters of one implementation (rule R7). -/
structure Config where
  /-- `BUF_BYTES`, the size of DBUF in bytes. -/
  bufBytes : Nat
  /-- `PAT_ORDER`. -/
  patOrder : PatOrder
deriving DecidableEq, Repr

/-- The default values of rule R7. -/
def Config.default : Config := { bufBytes := 256, patOrder := .le }

end Sys2Proof
end

