-- ==== Sys2Proof/Syntax.lean ====
section
/-! DEFINITION. The thirteen commands of rule R93, one constructor per row of spec/opcode_table.json.
A command names no register and carries no immediate but the fields M and KL of `C_INIT`
(rule R91); the scalar operand is the register ARG and the byte operands lie in DBUF (rule R92). -/

namespace Sys2Proof

/-- The cipher mode: field M of `C_INIT` (rule R90) and the flag CM (rule R32). -/
inductive Mode where
  /-- M = 0: electronic code book. -/
  | ecb
  /-- M = 1: cipher block chaining. -/
  | cbc
deriving DecidableEq, Repr

/-- The commands (rule R93). -/
inductive Instr where
  /-- `NOP`, OP 0x00 (rule R230). -/
  | nop
  /-- `SRST`, OP 0x01 (rule R231). -/
  | srst
  /-- `C_INIT`, OP 0x10 (rule R136): the cipher mode and the 2-bit key length code, whose value 3 is
  reserved and still decodes as `C_INIT` (rule R94). -/
  | cInit (mode : Mode) (kl : BitVec 2)
  /-- `C_ENC`, OP 0x11 (rule R137). -/
  | cEnc
  /-- `C_ENCP`, OP 0x12 (rule R138). -/
  | cEncp
  /-- `C_DEC`, OP 0x13 (rule R139). -/
  | cDec
  /-- `H_INIT`, OP 0x20 (rule R176). -/
  | hInit
  /-- `H_APPEND`, OP 0x21 (rule R177). -/
  | hAppend
  /-- `H_FINAL`, OP 0x22 (rule R178). -/
  | hFinal
  /-- `R_BEGIN`, OP 0x30 (rule R203). -/
  | rBegin
  /-- `R_BIND`, OP 0x31 (rule R205). -/
  | rBind
  /-- `R_SETPAT`, OP 0x32 (rule R204). -/
  | rSetpat
  /-- `R_STEP`, OP 0x33 (rule R208). -/
  | rStep
deriving DecidableEq, Repr

end Sys2Proof
end

