-- ==== Sys2Proof/WellFormed.lean ====
section
/-! DEFINITION. Well-formed commands (rules R90, R93) and legal parameters (rule R7). -/

namespace Sys2Proof

/-- The command uses only legal operand values: the key length code of `C_INIT` is not the reserved 3
(rules R90, R93: "the six legal `C_INIT` words"). Encoding and decoding do not ask for it: a `C_INIT` with
KL = 3 has a word and decodes, and its meaning is the fault `E_KEYLEN` (rule R94). -/
def Instr.wf : Instr → Bool
  | .cInit _ kl => kl != 3
  | .nop | .srst | .cEnc | .cEncp | .cDec | .hInit | .hAppend | .hFinal
  | .rBegin | .rBind | .rSetpat | .rStep => true

/-- The legal values of `BUF_BYTES` (rule R7): a multiple of 16 from 48 to 65536. -/
def Config.wf (c : Config) : Bool :=
  c.bufBytes % 16 == 0 && decide (48 ≤ c.bufBytes) && decide (c.bufBytes ≤ 65536)

end Sys2Proof
end

