-- ==== Sys2Proof/Decode.lean ====
section
/-! DEFINITION. Decoding a command word (rules R90 to R95, R100) and, after it, encoding a command.
Every 32-bit word has an answer: a command, or the reason why it is illegal (rule R94). -/

namespace Sys2Proof

/-- Why a word is illegal: the three cases of rule R94. All three raise the one fault `E_ILLEGAL`. -/
inductive Illegal where
  /-- RSV (bits 31:11) is not zero. -/
  | reservedBits
  /-- OP (bits 7:0) is none of the thirteen opcodes. -/
  | unknownOpcode
  /-- M or KL is not zero in a command other than `C_INIT`. -/
  | fieldOutsideInit
deriving DecidableEq, Repr

/-- Field OP = w[7:0] (rule R91). -/
def fieldOp (w : Word) : BitVec 8 := w.extractLsb' 0 8

/-- Field M = w[8] (rule R91). -/
def fieldM (w : Word) : BitVec 1 := w.extractLsb' 8 1

/-- Field KL = w[10:9] (rule R91). -/
def fieldKL (w : Word) : BitVec 2 := w.extractLsb' 9 2

/-- Field RSV = w[31:11] (rule R91). -/
def fieldRsv (w : Word) : BitVec 21 := w.extractLsb' 11 21

/-- The opcode of `C_INIT`, the one command with the operand fields M and KL (rule R93). -/
def opCInit : BitVec 8 := 0x10

/-- The opcode map of the twelve commands without operand fields (rule R93). -/
def plainOpcodes : List (BitVec 8 × Instr) :=
  [(0x00, .nop), (0x01, .srst),
   (0x11, .cEnc), (0x12, .cEncp), (0x13, .cDec),
   (0x20, .hInit), (0x21, .hAppend), (0x22, .hFinal),
   (0x30, .rBegin), (0x31, .rBind), (0x32, .rSetpat), (0x33, .rStep)]

/-- The mode that a value of field M stands for (rule R90). -/
def modeOfBit (m : BitVec 1) : Mode := if m = 0 then .ecb else .cbc

/-- The command that a word selects, or why it selects none (rules R93, R94, R100). -/
def decode (w : Word) : Except Illegal Instr :=
  if fieldRsv w ≠ 0 then .error .reservedBits
  else if fieldOp w = opCInit then .ok (.cInit (modeOfBit (fieldM w)) (fieldKL w))
  else match plainOpcodes.find? (fun row => row.1 == fieldOp w) with
    | none => .error .unknownOpcode
    | some row => if fieldM w = 0 ∧ fieldKL w = 0 then .ok row.2 else .error .fieldOutsideInit

/-- The host's view of the decoder: the command whose word has the low `nbits` bits `w` and zeros above
them. A command is one 32-bit word (rule R90). -/
def decodeTableWord (nbits w : Nat) : Option Instr :=
  match decode (BitVec.ofNat 32 (w % 2 ^ nbits)) with
  | .ok i => some i
  | .error _ => none

/-- The opcode of a command (rule R93). -/
def opcode : Instr → BitVec 8
  | .nop => 0x00
  | .srst => 0x01
  | .cInit _ _ => 0x10
  | .cEnc => 0x11
  | .cEncp => 0x12
  | .cDec => 0x13
  | .hInit => 0x20
  | .hAppend => 0x21
  | .hFinal => 0x22
  | .rBegin => 0x30
  | .rBind => 0x31
  | .rSetpat => 0x32
  | .rStep => 0x33

/-- The value of field M for a mode (rule R90). -/
def modeBit : Mode → BitVec 1
  | .ecb => 0
  | .cbc => 1

/-- Bits 10:8 of a command, KL then M: zero in every command but `C_INIT` (rule R90). -/
def operandBits : Instr → BitVec 3
  | .cInit m kl => kl ++ modeBit m
  | .nop | .srst | .cEnc | .cEncp | .cDec | .hInit | .hAppend | .hFinal
  | .rBegin | .rBind | .rSetpat | .rStep => 0

/-- The word of a command: RSV = 0, KL, M, OP from the most significant bit down (rule R90). -/
def encode (i : Instr) : Word := (0 : BitVec 21) ++ operandBits i ++ opcode i

end Sys2Proof
end

