-- ==== Sys2Proof/Machine/State.lean ====
section
/-! DEFINITION. The whole state of the block (rules R20 to R45) as plain data, the reasons a step can stop,
and the state after reset (rule R270). -/

namespace Sys2Proof.Machine

/-- The ratchet status RST (rule R31). Its 2-bit codes stand in Flags.lean. -/
inductive RatchetStatus where
  /-- 0: no ratchet state exists. -/
  | none
  /-- 1: set by `R_BEGIN`. -/
  | begin
  /-- 2: a round was done and the target is not reached. -/
  | running
  /-- 3: the target is reached. -/
  | complete
deriving DecidableEq, Repr

/-- The causes of a fault (rule R241). A fault is a next state (rule R243), never a stop of the model. Its
4-bit codes stand in Flags.lean. -/
inductive Cause where
  /-- `E_ILLEGAL`: the word matches no command. -/
  | illegal
  /-- `E_KEYLEN`: `C_INIT` with KL = 3. -/
  | keyLen
  /-- `E_NOCIPHER`: a cipher command with CV = 0. -/
  | noCipher
  /-- `E_LENGTH`: ARG is not a multiple of 16. -/
  | length
  /-- `E_OVERRUN`: the operand passes the end of DBUF. -/
  | overrun
  /-- `E_NOHASH`: a hash command with HV = 0. -/
  | noHash
  /-- `E_NORATCHET`: a ratchet command with RST = None. -/
  | noRatchet
  /-- `E_NOPATTERN`: a round is due and PV = 0. -/
  | noPattern
  /-- `E_HASHLEN`: COUNT + ARG reaches 2^61. -/
  | hashLen
deriving DecidableEq, Repr

/-- CipherState (rules R12, R32 to R34): the mode CM, the key length code CKL, the round count NR, the
expanded key RK and the vector VEC. -/
structure CipherState where
  /-- CM, 1 bit. -/
  cm : Mode
  /-- CKL, 2 bits. -/
  ckl : BitVec 2
  /-- NR, 4 bits. -/
  nr : BitVec 4
  /-- RK[0..240). -/
  rk : Bytes 240
  /-- VEC[0..16). -/
  vec : Block
deriving DecidableEq, Repr

/-- HashState (rules R12, R35 to R37): the running digest H, the pending block PEND with its fill PLEN, and
the count of bytes absorbed COUNT. -/
structure HashState where
  /-- H[0..8). -/
  h : Vector Word 8
  /-- PEND[0..64). -/
  pend : Bytes 64
  /-- PLEN, 7 bits. -/
  plen : BitVec 7
  /-- COUNT, 64 bits. -/
  count : BitVec 64
deriving DecidableEq, Repr

/-- TokenRatchetState (rules R12, R31, R39 to R42): the status RST, the source code SRC, the sync token SYNC,
the pattern PAT, the target and current stretch counts TARGET and CUR, and the working hash code WORK. -/
structure RatchetState where
  /-- RST. -/
  rst : RatchetStatus
  /-- SRC[0..32). -/
  src : Bytes 32
  /-- SYNC[0..32). -/
  sync : Bytes 32
  /-- PAT, 32 bits. -/
  pat : Word
  /-- TARGET, 32 bits. -/
  target : Word
  /-- CUR, 32 bits. -/
  cur : Word
  /-- WORK[0..32). -/
  work : Bytes 32
deriving DecidableEq, Repr

/-- One host move (rule R290): a bus access of 8, 16 or 32 bits at a byte offset from BASE, or the platform's
hardware reset (rule R271). Rule R69 refuses every 16-bit access and every access its width or offset does
not fit; such moves are here so that the refusal can be modelled. -/
inductive HostMove where
  /-- `BusRead8(off)` (rule R67). -/
  | read8 (off : Nat)
  /-- A 16-bit read: refused everywhere (rule R69). -/
  | read16 (off : Nat)
  /-- `BusRead32(off)` (rule R64). -/
  | read32 (off : Nat)
  /-- `BusWrite8(off, b)` (rule R68). -/
  | write8 (off : Nat) (b : Byte)
  /-- A 16-bit write: refused everywhere (rule R69). -/
  | write16 (off : Nat) (v : BitVec 16)
  /-- `BusWrite32(off, v)` (rule R65). -/
  | write32 (off : Nat) (v : Word)
  /-- The platform's hardware reset, power-on or brownout (rules R271, R290). -/
  | hardReset
deriving DecidableEq, Repr

/-- What a read gives back to the host (rule R290). -/
inductive Reply where
  /-- The byte of a `BusRead8`. -/
  | byte (b : Byte)
  /-- The word of a `BusRead32`. -/
  | word (w : Word)
deriving DecidableEq, Repr

/-- The operand buffer's bytes (rule R43) as (index, byte) pairs: indices of DBUF, strictly rising, no entry
equal to what an unlisted index reads as (`Memory.blank`). -/
abbrev Memory := List Host.Cell

/-- What an unlisted index of DBUF reads as: the reset value 0x00 (rules R43, R270). -/
def Memory.blank : Byte := 0

/-- No cell lies at or below index `lo - 1`, the indices rise strictly and no entry is blank. -/
def Memory.wfFrom : Nat → Memory → Bool
  | _, [] => true
  | lo, (a, b) :: m => decide (lo ≤ a) && b != Memory.blank && Memory.wfFrom (a + 1) m

/-- The canonical form of a memory: strictly rising indices, no blank entry. -/
def Memory.wf (m : Memory) : Bool := Memory.wfFrom 0 m

/-- Every listed index lies inside DBUF[0..n). -/
def Memory.within (n : Nat) (m : Memory) : Bool := m.all fun c => decide (c.1 < n)

/-- The state of the block (rules R20 to R44), with three fields of the model's own: the parameters `cfg`
(constant, notes/assumptions/1.md), the host's remaining moves `host` and what the host was given back
`replies` (notes/assumptions/2.md). -/
structure State where
  /-- The model's own: the parameters of rule R7. No step changes it. -/
  cfg : Config
  /-- ARG (rule R24). -/
  arg : Word
  /-- ERR (rule R29). -/
  err : Bool
  /-- ECODE, 4 bits (rule R29). -/
  ecode : BitVec 4
  /-- CV: CipherState holds an expanded key (rule R30). -/
  cv : Bool
  /-- HV: HashState is live (rule R30). -/
  hv : Bool
  /-- PV: the pattern has been set (rule R30). -/
  pv : Bool
  /-- RDONE: what the last `R_STEP` returned (rule R31). -/
  rdone : Bool
  /-- CipherState: CM, CKL, NR, RK, VEC (rules R32 to R34). -/
  cipher : CipherState
  /-- HashState: H, PEND, PLEN, COUNT (rules R35 to R37). -/
  hash : HashState
  /-- DIGEST[0..32) (rule R38). -/
  digest : Bytes 32
  /-- TokenRatchetState: RST, SRC, SYNC, PAT, TARGET, CUR, WORK (rules R31, R39 to R42). -/
  ratchet : RatchetState
  /-- DBUF[0..BUF_BYTES) (rule R43). -/
  dbuf : Memory
  /-- The model's own: the moves the host has still to make, in order (rule R289). -/
  host : List HostMove
  /-- The model's own: what the host's reads gave back, oldest first (rule R290). -/
  replies : List Reply
deriving DecidableEq, Repr

/-- Why a step stops. -/
inductive Fault where
  /-- `BusError` (rules R69, R247): raised by the bus for the refused access `m`. Safe: the spec says that a
  model gives a refused access no step, and the block's state is as it was before the access. -/
  | busError (m : HostMove)
deriving DecidableEq, Repr

/-- Why a command has no meaning in the model. -/
inductive Refusal where
  /-- Raised by an arm of `exec` for a command not modelled yet (no arm does so). Safe: the model stops
  where the block goes on. -/
  | notModelled (mnemonic : String)
deriving DecidableEq, Repr

/-- The outcome of a step, a command or a bus access. -/
abbrev Result := Host.Outcome State Fault Refusal

/-- A byte array of zeros. -/
def zeroBytes (n : Nat) : Bytes n := Vector.ofFn fun _ => 0

/-- CipherState after reset (rule R270). -/
def CipherState.reset : CipherState :=
  { cm := .ecb, ckl := 0, nr := 0, rk := zeroBytes 240, vec := zeroBytes 16 }

/-- HashState after reset (rule R270). -/
def HashState.reset : HashState :=
  { h := Vector.ofFn fun _ => 0, pend := zeroBytes 64, plen := 0, count := 0 }

/-- TokenRatchetState after reset (rule R270). -/
def RatchetState.reset : RatchetState :=
  { rst := .none, src := zeroBytes 32, sync := zeroBytes 32, pat := 0, target := 0, cur := 0,
    work := zeroBytes 32 }

/-- The state after reset (rule R270): every element of the block zero. The parameters are the defaults of
rule R7, the host has no move to make and has been given nothing back. -/
def State.reset : State :=
  { cfg := Config.default
    arg := 0
    err := false, ecode := 0
    cv := false, hv := false, pv := false
    rdone := false
    cipher := CipherState.reset
    hash := HashState.reset
    digest := zeroBytes 32
    ratchet := RatchetState.reset
    dbuf := []
    host := [], replies := [] }

end Sys2Proof.Machine
end

