-- ==== Sys2Proof/Machine/Flags.lean ====
section
/-! DEFINITION. The codes of the flag fields and the STATUS view (rules R25, R29 to R32, R241). -/

namespace Sys2Proof.Machine

/-- The 4-bit cause code ECODE of a fault (rule R241). -/
def causeCode : Cause → BitVec 4
  | .illegal => 1
  | .keyLen => 2
  | .noCipher => 3
  | .length => 4
  | .overrun => 5
  | .noHash => 6
  | .noRatchet => 7
  | .noPattern => 8
  | .hashLen => 9

/-- One bit from a flag. -/
def flagBit (b : Bool) : BitVec 1 := if b then 1 else 0

/-- The 2-bit code of RST (rule R31). -/
def ratchetStatusCode : RatchetStatus → BitVec 2
  | .none => 0
  | .begin => 1
  | .running => 2
  | .complete => 3

/-- The bit CM (rule R32). -/
def cipherModeBit : Mode → BitVec 1
  | .ecb => 0
  | .cbc => 1

/-- The STATUS word (rule R25), from bit 31 down: zeros 31:14, PV, ECODE 12:9, CKL 8:7, CM, RST 5:4, RDONE, HV,
CV, ERR. -/
def statusWord (s : State) : Word :=
  (0 : BitVec 18) ++ flagBit s.pv ++ s.ecode ++ s.cipher.ckl ++ cipherModeBit s.cipher.cm
    ++ ratchetStatusCode s.ratchet.rst ++ flagBit s.rdone ++ flagBit s.hv ++ flagBit s.cv ++ flagBit s.err

end Sys2Proof.Machine
end

