-- ==== Sys2Proof/Machine/Ops.lean ====
section
/-! DEFINITION. The named operations: byte arrays and byte order (rules R9, R10, R70), the operand buffer (rules R11,
R43), the updates of each piece of state, taking a fault (rule R243), the stop after a fault (rule R244), and the
reset that is the only way back (rules R245, R270). -/

namespace Sys2Proof.Machine

/-! ### Byte arrays and byte order -/

/-- Element `i` of a byte array; no rule indexes past the end. -/
def byteAt {n : Nat} (v : Bytes n) (i : Nat) : Byte := if h : i < n then v[i] else 0

/-- Element-wise exclusive-or of two byte arrays (rule R9). -/
def xorBytes {n : Nat} (u v : Bytes n) : Bytes n := Vector.ofFn fun i => u[i] ^^^ v[i]

/-- `be32` (rule R10). -/
def be32 (b0 b1 b2 b3 : Byte) : Word := b0 ++ b1 ++ b2 ++ b3

/-- `le32` (rule R10). -/
def le32 (b0 b1 b2 b3 : Byte) : Word := b3 ++ b2 ++ b1 ++ b0

/-- Byte `k` of a 32-bit word, counted from the most significant: `bytes_be32(w)[k]` (rule R10). -/
def byteBe32 (w : Word) (k : Nat) : Byte := w.extractLsb' (8 * (3 - k)) 8

/-- `bytes_be64(w)` (rule R10). -/
def bytesBe64 (w : BitVec 64) : List Byte := (List.range 8).map fun k => w.extractLsb' (8 * (7 - k)) 8

/-! ### The operand buffer -/

/-- The byte at an index of DBUF. -/
def Memory.read : Memory → Nat → Byte
  | [], _ => Memory.blank
  | (k, v) :: m, a => if k = a then v else Memory.read m a

/-- Store a byte at an index of DBUF, keeping the canonical form. -/
def Memory.write : Memory → Nat → Byte → Memory
  | [], a, b => if b = Memory.blank then [] else [(a, b)]
  | (k, v) :: m, a, b =>
    if a < k then (if b = Memory.blank then (k, v) :: m else (a, b) :: (k, v) :: m)
    else if a = k then (if b = Memory.blank then m else (a, b) :: m)
    else (k, v) :: Memory.write m a b

/-- Store bytes at consecutive indices of DBUF. -/
def Memory.writeBytes : Memory → Nat → List Byte → Memory
  | m, _, [] => m
  | m, a, b :: bs => Memory.writeBytes (Memory.write m a b) (a + 1) bs

/-- `MemRead(a, n)` = DBUF[a..a+n) (rule R11); irreducible, as the whole computations of Aes.lean are. -/
@[irreducible] def memRead (a n : Nat) (s : State) : Bytes n := Vector.ofFn fun i => s.dbuf.read (a + i)

/-! ### Updates, one for each piece of state an access or a command writes -/

/-- ARG ← v (rule R24). -/
def setArg (v : Word) (s : State) : State := { s with arg := v }

/-- CipherState ← c and CV ← 1 (rules R30, R136). -/
def setCipher (c : CipherState) (s : State) : State := { s with cipher := c, cv := true }

/-- VEC ← v (rule R34). -/
def setVec (v : Block) (s : State) : State := { s with cipher := { s.cipher with vec := v } }

/-- HashState ← h (rules R35 to R37). -/
def setHash (h : HashState) (s : State) : State := { s with hash := h }

/-- HV ← b (rule R30). -/
def setHv (b : Bool) (s : State) : State := { s with hv := b }

/-- DIGEST ← d (rule R38). -/
def setDigest (d : Bytes 32) (s : State) : State := { s with digest := d }

/-- TokenRatchetState ← r (rules R31, R39 to R42). -/
def setRatchet (r : RatchetState) (s : State) : State := { s with ratchet := r }

/-- PV ← b (rule R30). -/
def setPv (b : Bool) (s : State) : State := { s with pv := b }

/-- RDONE ← b (rule R31). -/
def setRdone (b : Bool) (s : State) : State := { s with rdone := b }

/-- DBUF ← m (rule R43). -/
def setDbuf (m : Memory) (s : State) : State := { s with dbuf := m }

/-- The host's remaining moves ← ms (the model's own field). -/
def setHost (ms : List HostMove) (s : State) : State := { s with host := ms }

/-- The host is given `r` back (the model's own field). -/
def pushReply (r : Reply) (s : State) : State := { s with replies := s.replies ++ [r] }

/-- `MemWrite(a, n, v)` (rule R11). -/
def memWrite {n : Nat} (a : Nat) (v : Bytes n) (s : State) : State :=
  setDbuf (s.dbuf.writeBytes a v.toList) s

/-! ### Faults, the stop after a fault, reset -/

/-- `raise Fault(c)` (rule R243): ERR ← 1, ECODE ← the cause code, nothing else. -/
def raiseFault (c : Cause) (s : State) : State := { s with err := true, ecode := causeCode c }

/-- A command other than `SRST`: while ERR = 1 it has no effect at all (rules R100, R244). -/
def unlessStopped (s : State) (command : Result) : Result := if s.err then .next s else command

/-- The reset action (rule R270), the only way back from a fault (rule R245): every element of the block takes its
reset value. The parameters and the host's side of the run are not elements of the block. -/
def resetBlock (s : State) : State :=
  { State.reset with cfg := s.cfg, host := s.host, replies := s.replies }

end Sys2Proof.Machine
end

