-- ==== Sys2Proof/Machine/Operands.lean ====
section
/-! DEFINITION. The operands of the commands (rules R75, R76, R92, R126): the scalar in ARG, the byte arrays at fixed places
of DBUF, the quantities a key length code stands for, and the bounds checks. -/

namespace Sys2Proof.Machine

/-- The scalar operand as a length in bytes: ARG, unsigned, exact (rules R92, R141). -/
def argLength (s : State) : Nat := s.arg.toNat

/-- `keybytes = 16 + 8*KL` (rule R92). -/
def keyBytes (kl : BitVec 2) : Nat := 16 + 8 * kl.toNat

/-- `Nk`, the number of key words (rule R126). -/
def keyWordCount (kl : BitVec 2) : Nat := keyBytes kl / 4

/-- `Nr`, the number of rounds (rule R126). -/
def roundCount (kl : BitVec 2) : Nat := keyWordCount kl + 6

/-- The key of `C_INIT`: DBUF[0..16+8*KL) (rule R75). -/
def keyOperand (kl : BitVec 2) (s : State) : Bytes (keyBytes kl) := memRead 0 (keyBytes kl) s

/-- The IV of `C_INIT` with M = 1: DBUF[32..48) (rule R75). -/
def ivOperand (s : State) : Block := memRead 32 16 s

/-- Block `k` of the data of a cipher command: DBUF[16k..16k+16) (rules R75, R137). -/
def blockOperand (k : Nat) (s : State) : Block := memRead (16 * k) 16 s

/-- The message bytes of `H_APPEND`: DBUF[0..ARG) (rule R75). -/
def messageOperand (s : State) : List Byte := (memRead 0 (argLength s) s).toList

/-- The seed of `R_BEGIN` and the sync token of `R_BIND`: DBUF[0..32) (rule R75). -/
def tokenOperand (s : State) : Bytes 32 := memRead 0 32 s

/-- The PKCS#7 pad length of a plaintext of `l` bytes, 1 to 16 (rule R138). -/
def padLength (l : Nat) : Nat := 16 - l % 16

/-- The operand's `l` bytes lie inside DBUF (rule R76). -/
def fitsBuffer (l : Nat) (s : State) : Bool := decide (l ≤ s.cfg.bufBytes)

end Sys2Proof.Machine
end

