-- ==== Sys2Proof/Machine/Aes.lean ====
section
/-! DEFINITION. The functions of CipherEngine: field arithmetic, tables, key expansion and the two block transforms
(rules R121 to R135). The tables and conventions that the spec itself marks as general knowledge (G1 to G9 of
spec/93_implementation_defined.md) are taken as its rules state them. The
functions marked irreducible are the whole computations: a proof unfolds one by name where it means to, and no comparison
of two states unfolds it by accident; the kernel evaluates them all the same. -/

namespace Sys2Proof.Machine

/-! ### Field arithmetic -/

/-- `xtime` (rule R121). -/
def xtime (v : Byte) : Byte := (v <<< 1) ^^^ (if v.getLsbD 7 then 0x1B else 0x00)

/-- One pass of the loop of rule R122 for bit `i` of the multiplier: the accumulator and the running product. -/
def gmulPass (m : Byte) (accp : Byte × Byte) (i : Nat) : Byte × Byte :=
  (if m.getLsbD i then accp.1 ^^^ accp.2 else accp.1, xtime accp.2)

/-- `gmul(x, m)` over the 5 low bits of the multiplier (rule R122). -/
def gmul (x m : Byte) : Byte := ((List.range 5).foldl (gmulPass m) (0, x)).1

/-! ### Tables -/

/-- A 256-entry table laid out as the spec prints it: row = high hex digit, column = low hex digit. -/
def tableEntry (rows : List (List Byte)) (a : Byte) : Byte :=
  (rows.getD (a.toNat / 16) []).getD (a.toNat % 16) 0

/-- The rows of `SBOX` (rule R123). -/
def sboxRows : List (List Byte) :=
  [[0x63, 0x7c, 0x77, 0x7b, 0xf2, 0x6b, 0x6f, 0xc5, 0x30, 0x01, 0x67, 0x2b, 0xfe, 0xd7, 0xab, 0x76],
   [0xca, 0x82, 0xc9, 0x7d, 0xfa, 0x59, 0x47, 0xf0, 0xad, 0xd4, 0xa2, 0xaf, 0x9c, 0xa4, 0x72, 0xc0],
   [0xb7, 0xfd, 0x93, 0x26, 0x36, 0x3f, 0xf7, 0xcc, 0x34, 0xa5, 0xe5, 0xf1, 0x71, 0xd8, 0x31, 0x15],
   [0x04, 0xc7, 0x23, 0xc3, 0x18, 0x96, 0x05, 0x9a, 0x07, 0x12, 0x80, 0xe2, 0xeb, 0x27, 0xb2, 0x75],
   [0x09, 0x83, 0x2c, 0x1a, 0x1b, 0x6e, 0x5a, 0xa0, 0x52, 0x3b, 0xd6, 0xb3, 0x29, 0xe3, 0x2f, 0x84],
   [0x53, 0xd1, 0x00, 0xed, 0x20, 0xfc, 0xb1, 0x5b, 0x6a, 0xcb, 0xbe, 0x39, 0x4a, 0x4c, 0x58, 0xcf],
   [0xd0, 0xef, 0xaa, 0xfb, 0x43, 0x4d, 0x33, 0x85, 0x45, 0xf9, 0x02, 0x7f, 0x50, 0x3c, 0x9f, 0xa8],
   [0x51, 0xa3, 0x40, 0x8f, 0x92, 0x9d, 0x38, 0xf5, 0xbc, 0xb6, 0xda, 0x21, 0x10, 0xff, 0xf3, 0xd2],
   [0xcd, 0x0c, 0x13, 0xec, 0x5f, 0x97, 0x44, 0x17, 0xc4, 0xa7, 0x7e, 0x3d, 0x64, 0x5d, 0x19, 0x73],
   [0x60, 0x81, 0x4f, 0xdc, 0x22, 0x2a, 0x90, 0x88, 0x46, 0xee, 0xb8, 0x14, 0xde, 0x5e, 0x0b, 0xdb],
   [0xe0, 0x32, 0x3a, 0x0a, 0x49, 0x06, 0x24, 0x5c, 0xc2, 0xd3, 0xac, 0x62, 0x91, 0x95, 0xe4, 0x79],
   [0xe7, 0xc8, 0x37, 0x6d, 0x8d, 0xd5, 0x4e, 0xa9, 0x6c, 0x56, 0xf4, 0xea, 0x65, 0x7a, 0xae, 0x08],
   [0xba, 0x78, 0x25, 0x2e, 0x1c, 0xa6, 0xb4, 0xc6, 0xe8, 0xdd, 0x74, 0x1f, 0x4b, 0xbd, 0x8b, 0x8a],
   [0x70, 0x3e, 0xb5, 0x66, 0x48, 0x03, 0xf6, 0x0e, 0x61, 0x35, 0x57, 0xb9, 0x86, 0xc1, 0x1d, 0x9e],
   [0xe1, 0xf8, 0x98, 0x11, 0x69, 0xd9, 0x8e, 0x94, 0x9b, 0x1e, 0x87, 0xe9, 0xce, 0x55, 0x28, 0xdf],
   [0x8c, 0xa1, 0x89, 0x0d, 0xbf, 0xe6, 0x42, 0x68, 0x41, 0x99, 0x2d, 0x0f, 0xb0, 0x54, 0xbb, 0x16]]

/-- `SBOX[a]` (rule R123). -/
def sbox (a : Byte) : Byte := tableEntry sboxRows a

/-- The rows of `INV_SBOX` (rule R124). -/
def invSboxRows : List (List Byte) :=
  [[0x52, 0x09, 0x6a, 0xd5, 0x30, 0x36, 0xa5, 0x38, 0xbf, 0x40, 0xa3, 0x9e, 0x81, 0xf3, 0xd7, 0xfb],
   [0x7c, 0xe3, 0x39, 0x82, 0x9b, 0x2f, 0xff, 0x87, 0x34, 0x8e, 0x43, 0x44, 0xc4, 0xde, 0xe9, 0xcb],
   [0x54, 0x7b, 0x94, 0x32, 0xa6, 0xc2, 0x23, 0x3d, 0xee, 0x4c, 0x95, 0x0b, 0x42, 0xfa, 0xc3, 0x4e],
   [0x08, 0x2e, 0xa1, 0x66, 0x28, 0xd9, 0x24, 0xb2, 0x76, 0x5b, 0xa2, 0x49, 0x6d, 0x8b, 0xd1, 0x25],
   [0x72, 0xf8, 0xf6, 0x64, 0x86, 0x68, 0x98, 0x16, 0xd4, 0xa4, 0x5c, 0xcc, 0x5d, 0x65, 0xb6, 0x92],
   [0x6c, 0x70, 0x48, 0x50, 0xfd, 0xed, 0xb9, 0xda, 0x5e, 0x15, 0x46, 0x57, 0xa7, 0x8d, 0x9d, 0x84],
   [0x90, 0xd8, 0xab, 0x00, 0x8c, 0xbc, 0xd3, 0x0a, 0xf7, 0xe4, 0x58, 0x05, 0xb8, 0xb3, 0x45, 0x06],
   [0xd0, 0x2c, 0x1e, 0x8f, 0xca, 0x3f, 0x0f, 0x02, 0xc1, 0xaf, 0xbd, 0x03, 0x01, 0x13, 0x8a, 0x6b],
   [0x3a, 0x91, 0x11, 0x41, 0x4f, 0x67, 0xdc, 0xea, 0x97, 0xf2, 0xcf, 0xce, 0xf0, 0xb4, 0xe6, 0x73],
   [0x96, 0xac, 0x74, 0x22, 0xe7, 0xad, 0x35, 0x85, 0xe2, 0xf9, 0x37, 0xe8, 0x1c, 0x75, 0xdf, 0x6e],
   [0x47, 0xf1, 0x1a, 0x71, 0x1d, 0x29, 0xc5, 0x89, 0x6f, 0xb7, 0x62, 0x0e, 0xaa, 0x18, 0xbe, 0x1b],
   [0xfc, 0x56, 0x3e, 0x4b, 0xc6, 0xd2, 0x79, 0x20, 0x9a, 0xdb, 0xc0, 0xfe, 0x78, 0xcd, 0x5a, 0xf4],
   [0x1f, 0xdd, 0xa8, 0x33, 0x88, 0x07, 0xc7, 0x31, 0xb1, 0x12, 0x10, 0x59, 0x27, 0x80, 0xec, 0x5f],
   [0x60, 0x51, 0x7f, 0xa9, 0x19, 0xb5, 0x4a, 0x0d, 0x2d, 0xe5, 0x7a, 0x9f, 0x93, 0xc9, 0x9c, 0xef],
   [0xa0, 0xe0, 0x3b, 0x4d, 0xae, 0x2a, 0xf5, 0xb0, 0xc8, 0xeb, 0xbb, 0x3c, 0x83, 0x53, 0x99, 0x61],
   [0x17, 0x2b, 0x04, 0x7e, 0xba, 0x77, 0xd6, 0x26, 0xe1, 0x69, 0x14, 0x63, 0x55, 0x21, 0x0c, 0x7d]]

/-- `INV_SBOX[a]` (rule R124). -/
def invSbox (a : Byte) : Byte := tableEntry invSboxRows a

/-- `RCON[j]` (rule R125); index 0 is never used. -/
def rcon : Nat → Byte
  | 0 => 0
  | 1 => 0x01
  | j + 2 => xtime (rcon (j + 1))

/-! ### Key expansion -/

/-- A word of the key schedule: 4 bytes in array order (rule R127). -/
abbrev KeyWord := Bytes 4

/-- Word `j` of the schedule for j < Nk: the key itself (rule R127). -/
def keyWord {n : Nat} (key : Bytes n) (j : Nat) : KeyWord := Vector.ofFn fun i => byteAt key (4 * j + i)

/-- Word rotation: byte 0 moves to the end (rule R127). -/
def rotWord (t : KeyWord) : KeyWord := Vector.ofFn fun i => byteAt t ((i + 1) % 4)

/-- S-box substitution of the four bytes (rule R127). -/
def subWord (t : KeyWord) : KeyWord := Vector.ofFn fun i => sbox t[i]

/-- The round constant on byte 0 only (rule R127). -/
def addRcon (c : Byte) (t : KeyWord) : KeyWord := Vector.ofFn fun i => if i.val = 0 then t[i] ^^^ c else t[i]

/-- The word `t` of rule R127 for schedule index `j`, from `w[j-1]`. -/
def scheduleTemp (nk j : Nat) (prev : KeyWord) : KeyWord :=
  if j % nk = 0 then addRcon (rcon (j / nk)) (subWord (rotWord prev))
  else if nk = 8 ∧ j % nk = 4 then subWord prev
  else prev

/-- The next word of the schedule: with `j` words in `w`, `w[j] = w[j-Nk] xor t` (rule R127). -/
def nextKeyWord (nk : Nat) (w : List KeyWord) : KeyWord :=
  xorBytes (w.getD (w.length - nk) (zeroBytes 4))
    (scheduleTemp nk w.length (w.getD (w.length - 1) (zeroBytes 4)))

/-- The schedule after `n` words beyond the key (rule R127). -/
def keyScheduleFrom (nk : Nat) (w : List KeyWord) : Nat → List KeyWord
  | 0 => w
  | n + 1 => let u := keyScheduleFrom nk w n; u ++ [nextKeyWord nk u]

/-- The words of `KeyExpand(key, KL)`: 4*(Nr+1) of them (rules R126, R127). -/
def keySchedule (kl : BitVec 2) (key : Bytes (keyBytes kl)) : List KeyWord :=
  keyScheduleFrom (keyWordCount kl) ((List.range (keyWordCount kl)).map (keyWord key))
    (4 * (roundCount kl + 1) - keyWordCount kl)

/-- RK as `C_INIT` writes it: `KeyExpand(key, KL)` followed by zeros to 240 bytes, with
`rk[4j..4j+4) = w[j]` (rules R33, R127, R136). -/
@[irreducible] def expandedKey (kl : BitVec 2) (key : Bytes (keyBytes kl)) : Bytes 240 :=
  let w := keySchedule kl key
  Vector.ofFn fun i => byteAt (w.getD (i / 4) (zeroBytes 4)) (i % 4)

/-! ### The round transforms -/

/-- `SubBytes` (rule R128). -/
def subBytes (s : Block) : Block := Vector.ofFn fun i => sbox s[i]

/-- `ShiftRows` (rule R129): byte r + 4c from r + 4*((c + r) mod 4). -/
def shiftRows (s : Block) : Block :=
  Vector.ofFn fun i => byteAt s (i % 4 + 4 * ((i / 4 + i % 4) % 4))

/-- Row `r` of a mixed column (rule R130). -/
def mixRow (r : Nat) (a0 a1 a2 a3 : Byte) : Byte :=
  match r with
  | 0 => gmul a0 2 ^^^ gmul a1 3 ^^^ a2 ^^^ a3
  | 1 => a0 ^^^ gmul a1 2 ^^^ gmul a2 3 ^^^ a3
  | 2 => a0 ^^^ a1 ^^^ gmul a2 2 ^^^ gmul a3 3
  | _ => gmul a0 3 ^^^ a1 ^^^ a2 ^^^ gmul a3 2

/-- Row `r` of an inversely mixed column (rule R134). -/
def invMixRow (r : Nat) (a0 a1 a2 a3 : Byte) : Byte :=
  match r with
  | 0 => gmul a0 0x0E ^^^ gmul a1 0x0B ^^^ gmul a2 0x0D ^^^ gmul a3 0x09
  | 1 => gmul a0 0x09 ^^^ gmul a1 0x0E ^^^ gmul a2 0x0B ^^^ gmul a3 0x0D
  | 2 => gmul a0 0x0D ^^^ gmul a1 0x09 ^^^ gmul a2 0x0E ^^^ gmul a3 0x0B
  | _ => gmul a0 0x0B ^^^ gmul a1 0x0D ^^^ gmul a2 0x09 ^^^ gmul a3 0x0E

/-- Apply a row function to every column: byte r + 4c from the four bytes of column c. -/
def mapColumns (row : Nat → Byte → Byte → Byte → Byte → Byte) (s : Block) : Block :=
  Vector.ofFn fun i =>
    row (i % 4) (byteAt s (4 * (i / 4))) (byteAt s (4 * (i / 4) + 1)) (byteAt s (4 * (i / 4) + 2))
      (byteAt s (4 * (i / 4) + 3))

/-- `MixColumns` (rule R130). -/
def mixColumns (s : Block) : Block := mapColumns mixRow s

/-- Round key `r`: RK[16r..16r+16) (rule R33). -/
def roundKey (rk : Bytes 240) (r : Nat) : Block := Vector.ofFn fun i => byteAt rk (16 * r + i)

/-- `AddRoundKey(s, rk, r)` (rule R131). -/
def addRoundKey (rk : Bytes 240) (r : Nat) (s : Block) : Block := xorBytes s (roundKey rk r)

/-- A round with mix-columns (rule R132). -/
def cipherRound (rk : Bytes 240) (r : Nat) (s : Block) : Block :=
  addRoundKey rk r (mixColumns (shiftRows (subBytes s)))

/-- `Cipher(b, rk, Nr)` (rule R132). -/
@[irreducible] def aesCipher (rk : Bytes 240) (nr : Nat) (b : Block) : Block :=
  let s := (List.range' 1 (nr - 1)).foldl (fun s r => cipherRound rk r s) (addRoundKey rk 0 b)
  addRoundKey rk nr (shiftRows (subBytes s))

/-- `InvSubBytes` (rule R133). -/
def invSubBytes (s : Block) : Block := Vector.ofFn fun i => invSbox s[i]

/-- `InvShiftRows` (rule R133): byte r + 4c from r + 4*((c - r) mod 4). -/
def invShiftRows (s : Block) : Block :=
  Vector.ofFn fun i => byteAt s (i % 4 + 4 * ((i / 4 + 4 - i % 4) % 4))

/-- `InvMixColumns` (rule R134). -/
def invMixColumns (s : Block) : Block := mapColumns invMixRow s

/-- A round of the inverse cipher with inverse mix-columns (rule R135). -/
def invCipherRound (rk : Bytes 240) (r : Nat) (s : Block) : Block :=
  invMixColumns (addRoundKey rk r (invSubBytes (invShiftRows s)))

/-- `InvCipher(b, rk, Nr)`, rounds Nr-1 down to 1 (rule R135). -/
@[irreducible] def aesInvCipher (rk : Bytes 240) (nr : Nat) (b : Block) : Block :=
  let s := (List.range' 1 (nr - 1)).foldr (fun r s => invCipherRound rk r s) (addRoundKey rk nr b)
  addRoundKey rk 0 (invSubBytes (invShiftRows s))

end Sys2Proof.Machine
end

