-- ==== Sys2Proof/Machine/Cipher.lean ====
section
/-! DEFINITION. The commands of CipherEngine (rules R136 to R139). -/

namespace Sys2Proof.Machine

/-- The CipherState that `C_INIT` creates (rule R136). -/
def initialCipher (mode : Mode) (kl : BitVec 2) (s : State) : CipherState :=
  { cm := mode
    ckl := kl
    nr := BitVec.ofNat 4 (roundCount kl)
    rk := expandedKey kl (keyOperand kl s)
    vec := match mode with
      | .cbc => ivOperand s
      | .ecb => zeroBytes 16 }

/-- `C_INIT` (rule R136). -/
def execCInit (mode : Mode) (kl : BitVec 2) (s : State) : Result :=
  unlessStopped s <|
    if kl = 3 then .next (raiseFault .keyLen s)
    else .next (setCipher (initialCipher mode kl s) s)

/-- One pass of the block loop of `C_ENC` (rule R137). -/
def encryptBlock (k : Nat) (s : State) : State :=
  match s.cipher.cm with
  | .ecb => memWrite (16 * k) (aesCipher s.cipher.rk s.cipher.nr.toNat (blockOperand k s)) s
  | .cbc =>
    let out := aesCipher s.cipher.rk s.cipher.nr.toNat (xorBytes (blockOperand k s) s.cipher.vec)
    memWrite (16 * k) out (setVec out s)

/-- One pass of the block loop of `C_DEC` (rule R139). -/
def decryptBlock (k : Nat) (s : State) : State :=
  let saved := blockOperand k s
  let out := aesInvCipher s.cipher.rk s.cipher.nr.toNat saved
  match s.cipher.cm with
  | .ecb => memWrite (16 * k) out s
  | .cbc => memWrite (16 * k) (xorBytes out s.cipher.vec) (setVec saved s)

/-- A block loop over blocks 0 to n - 1 in increasing order (rules R137, R139). -/
def forBlocks (pass : Nat → State → State) : Nat → State → State
  | 0, s => s
  | n + 1, s => pass n (forBlocks pass n s)

/-- `C_ENC` (rule R137). -/
def execCEnc (s : State) : Result :=
  unlessStopped s <|
    if s.cv = false then .next (raiseFault .noCipher s)
    else if argLength s % 16 ≠ 0 then .next (raiseFault .length s)
    else if fitsBuffer (argLength s) s = false then .next (raiseFault .overrun s)
    else .next (forBlocks encryptBlock (argLength s / 16) s)

/-- The pad bytes for a plaintext of `l` bytes: `pad` bytes of value `pad` (rule R138). -/
def padBytes (l : Nat) : Bytes (padLength l) := Vector.ofFn fun _ => BitVec.ofNat 8 (padLength l)

/-- `C_ENCP` (rule R138). -/
def execCEncp (s : State) : Result :=
  unlessStopped s <|
    let l := argLength s
    if s.cv = false then .next (raiseFault .noCipher s)
    else if fitsBuffer (l + padLength l) s = false then .next (raiseFault .overrun s)
    else .next (forBlocks encryptBlock ((l + padLength l) / 16) (memWrite l (padBytes l) s))

/-- `C_DEC` (rule R139). -/
def execCDec (s : State) : Result :=
  unlessStopped s <|
    if s.cv = false then .next (raiseFault .noCipher s)
    else if argLength s % 16 ≠ 0 then .next (raiseFault .length s)
    else if fitsBuffer (argLength s) s = false then .next (raiseFault .overrun s)
    else .next (forBlocks decryptBlock (argLength s / 16) s)

end Sys2Proof.Machine
end

