-- ==== Sys2Proof/Machine/Sha256.lean ====
section
/-! DEFINITION. The functions of HashEngine: constants, compression, absorbing bytes and finishing (rules R171 to R175,
R178, R179). The constants and conventions that the spec itself marks as general knowledge (G10 to G14 of
spec/93_implementation_defined.md) are taken as its rules state them. As in Aes.lean, the functions
marked irreducible are the whole computations, unfolded by name only. -/

namespace Sys2Proof.Machine

/-- `H0[0..8)` (rule R171). -/
def shaH0 : Vector Word 8 :=
  #v[0x6a09e667, 0xbb67ae85, 0x3c6ef372, 0xa54ff53a, 0x510e527f, 0x9b05688c, 0x1f83d9ab, 0x5be0cd19]

/-- The rows of `K[0..64)` as the spec prints them, eight a line (rule R172). -/
def shaKRows : List (List Word) :=
  [[0x428a2f98, 0x71374491, 0xb5c0fbcf, 0xe9b5dba5, 0x3956c25b, 0x59f111f1, 0x923f82a4, 0xab1c5ed5],
   [0xd807aa98, 0x12835b01, 0x243185be, 0x550c7dc3, 0x72be5d74, 0x80deb1fe, 0x9bdc06a7, 0xc19bf174],
   [0xe49b69c1, 0xefbe4786, 0x0fc19dc6, 0x240ca1cc, 0x2de92c6f, 0x4a7484aa, 0x5cb0a9dc, 0x76f988da],
   [0x983e5152, 0xa831c66d, 0xb00327c8, 0xbf597fc7, 0xc6e00bf3, 0xd5a79147, 0x06ca6351, 0x14292967],
   [0x27b70a85, 0x2e1b2138, 0x4d2c6dfc, 0x53380d13, 0x650a7354, 0x766a0abb, 0x81c2c92e, 0x92722c85],
   [0xa2bfe8a1, 0xa81a664b, 0xc24b8b70, 0xc76c51a3, 0xd192e819, 0xd6990624, 0xf40e3585, 0x106aa070],
   [0x19a4c116, 0x1e376c08, 0x2748774c, 0x34b0bcb5, 0x391c0cb3, 0x4ed8aa4a, 0x5b9cca4f, 0x682e6ff3],
   [0x748f82ee, 0x78a5636f, 0x84c87814, 0x8cc70208, 0x90befffa, 0xa4506ceb, 0xbef9a3f7, 0xc67178f2]]

/-- `K[t]` (rule R172). -/
def shaK (t : Nat) : Word := (shaKRows.getD (t / 8) []).getD (t % 8) 0

/-- `Ch` (rule R173). -/
def shaCh (x y z : Word) : Word := (x &&& y) ^^^ (~~~x &&& z)

/-- `Maj` (rule R173). -/
def shaMaj (x y z : Word) : Word := (x &&& y) ^^^ (x &&& z) ^^^ (y &&& z)

/-- `Sigma0`, the source's Σ0 (rule R173). -/
def shaBigSigma0 (x : Word) : Word := x.rotateRight 2 ^^^ x.rotateRight 13 ^^^ x.rotateRight 22

/-- `Sigma1`, the source's Σ1 (rule R173). -/
def shaBigSigma1 (x : Word) : Word := x.rotateRight 6 ^^^ x.rotateRight 11 ^^^ x.rotateRight 25

/-- `sigma0`, the source's σ0 (rule R173). -/
def shaSmallSigma0 (x : Word) : Word := x.rotateRight 7 ^^^ x.rotateRight 18 ^^^ x >>> 3

/-- `sigma1`, the source's σ1 (rule R173). -/
def shaSmallSigma1 (x : Word) : Word := x.rotateRight 17 ^^^ x.rotateRight 19 ^^^ x >>> 10

/-- The first sixteen words of the message schedule, packed most significant byte first (rule R174). -/
def shaBlockWords (blk : Bytes 64) : List Word :=
  (List.range 16).map fun t =>
    be32 (byteAt blk (4 * t)) (byteAt blk (4 * t + 1)) (byteAt blk (4 * t + 2)) (byteAt blk (4 * t + 3))

/-- The message schedule with `n` words beyond the first sixteen (rule R174). -/
def shaScheduleFrom (w : List Word) : Nat → List Word
  | 0 => w
  | n + 1 =>
    let u := shaScheduleFrom w n
    let t := 16 + n
    u ++ [shaSmallSigma1 (u.getD (t - 2) 0) + u.getD (t - 7) 0 + shaSmallSigma0 (u.getD (t - 15) 0)
      + u.getD (t - 16) 0]

/-- The message schedule W[0..64) of a block (rule R174). -/
def shaSchedule (blk : Bytes 64) : List Word := shaScheduleFrom (shaBlockWords blk) 48

/-- The eight working variables of a compression (rule R174). -/
structure ShaVars where
  /-- a -/
  a : Word
  /-- b -/
  b : Word
  /-- c -/
  c : Word
  /-- d -/
  d : Word
  /-- e -/
  e : Word
  /-- f -/
  f : Word
  /-- g -/
  g : Word
  /-- hh -/
  hh : Word
deriving DecidableEq, Repr

/-- One of the 64 rounds, with the round's K[t] and W[t] (rule R174). -/
def shaRound (k w : Word) (v : ShaVars) : ShaVars :=
  let t1 := v.hh + shaBigSigma1 v.e + shaCh v.e v.f v.g + k + w
  let t2 := shaBigSigma0 v.a + shaMaj v.a v.b v.c
  { a := t1 + t2, b := v.a, c := v.b, d := v.c, e := v.d + t1, f := v.e, g := v.f, hh := v.g }

/-- `Compress(h, blk)` (rule R174). -/
@[irreducible] def shaCompress (h : Vector Word 8) (blk : Bytes 64) : Vector Word 8 :=
  let w := shaSchedule blk
  let v := (List.range 64).foldl (fun v t => shaRound (shaK t) (w.getD t 0) v)
    { a := h[0], b := h[1], c := h[2], d := h[3], e := h[4], f := h[5], g := h[6], hh := h[7] }
  #v[h[0] + v.a, h[1] + v.b, h[2] + v.c, h[3] + v.d, h[4] + v.e, h[5] + v.f, h[6] + v.g, h[7] + v.hh]

/-- The fresh HashState value of rule R179: H0, empty, 0, 0. -/
def freshHash : HashState := { h := shaH0, pend := zeroBytes 64, plen := 0, count := 0 }

/-- Take in one byte (rule R175): store it, count it, and compress when the pending block is full. -/
def absorbByte (st : HashState) (x : Byte) : HashState :=
  let pend := st.pend.setIfInBounds st.plen.toNat x
  if st.plen + 1 = 64 then
    { h := shaCompress st.h pend, pend := pend, plen := 0, count := st.count + 1 }
  else { h := st.h, pend := pend, plen := st.plen + 1, count := st.count + 1 }

/-- `Absorb` (rule R175): every byte in order. -/
def absorb (st : HashState) (bytes : List Byte) : HashState := bytes.foldl absorbByte st

/-- The number of zero bytes between the terminator and the length field (rule R178). -/
def tailZeros (plen : Nat) : Nat := if plen ≤ 55 then 55 - plen else 119 - plen

/-- The tail that `H_FINAL` absorbs: 0x80, zeros, the bit length most significant byte first (rule R178). The bit
length is that of the message, taken before the tail. -/
def hashTail (st : HashState) : List Byte :=
  (0x80 : Byte) :: (List.replicate (tailZeros st.plen.toNat) 0 ++ bytesBe64 (BitVec.ofNat 64 (st.count.toNat * 8)))

/-- The eight words of H, each most significant byte first (rule R178). -/
@[irreducible] def digestBytes (h : Vector Word 8) : Bytes 32 :=
  Vector.ofFn fun i => byteBe32 (h[i.val / 4]'(by omega)) (i % 4)

/-- `Final` (rules R178, R179): the HashState after the tail. -/
def finishHash (st : HashState) : HashState := absorb st (hashTail st)

/-- `SHA256(m)` (rule R179). -/
@[irreducible] def sha256 (m : List Byte) : Bytes 32 := digestBytes (finishHash (absorb freshHash m)).h

end Sys2Proof.Machine
end

