-- ==== Sys2Proof/Machine/Hash.lean ====
section
/-! DEFINITION. The commands of HashEngine (rules R176 to R178). -/

namespace Sys2Proof.Machine

/-- `H_INIT` (rule R176). PEND keeps its bytes: no rule reads them at or beyond PLEN (rule R36). -/
def execHInit (s : State) : Result :=
  unlessStopped s <|
    .next (setHv true (setHash { s.hash with h := shaH0, plen := 0, count := 0 } s))

/-- `H_APPEND` (rule R177). -/
def execHAppend (s : State) : Result :=
  unlessStopped s <|
    if s.hv = false then .next (raiseFault .noHash s)
    else if fitsBuffer (argLength s) s = false then .next (raiseFault .overrun s)
    else if 2 ^ 61 ≤ s.hash.count.toNat + argLength s then .next (raiseFault .hashLen s)
    else .next (setHash (absorb s.hash (messageOperand s)) s)

/-- `H_FINAL` (rule R178). -/
def execHFinal (s : State) : Result :=
  unlessStopped s <|
    if s.hv = false then .next (raiseFault .noHash s)
    else
      let st := finishHash s.hash
      .next (setHv false
        (setHash { h := Vector.ofFn fun _ => 0, pend := st.pend, plen := 0, count := 0 }
          (setDigest (digestBytes st.h) s)))

end Sys2Proof.Machine
end

