-- ==== Sys2Proof/Machine/Ratchet.lean ====
section
/-! DEFINITION. TokenRatchet: the fold, the shuffle and the commands (rules R201 to R208). As in Aes.lean,
the functions marked irreducible are the whole computations, unfolded by name only. -/

namespace Sys2Proof.Machine

/-- Swap bytes `i` and `j` of the working buffer. -/
def swapBytes (i j : Nat) (w : Bytes 32) : Bytes 32 :=
  Vector.ofFn fun x => if x.val = i then byteAt w j else if x.val = j then byteAt w i else w[x]

/-- The shuffle's step for pattern bit `k`: swap byte `k` with the next, modulo 32, if the bit is set (rule R207). -/
def shuffleBit (p : Word) (w : Bytes 32) (k : Nat) : Bytes 32 :=
  if p.getLsbD k then swapBytes k ((k + 1) % 32) w else w

/-- `Shuffle(w, p)`, bit 0 first (rule R207). -/
@[irreducible] def shuffle (w : Bytes 32) (p : Word) : Bytes 32 := (List.range 32).foldl (shuffleBit p) w

/-- `Round(w, p) = Shuffle(SHA256(w), p)`, with a HashState of its own (rules R202, R206). -/
def ratchetRound (w : Bytes 32) (p : Word) : Bytes 32 := shuffle (sha256 w.toList) p

/-- Fold token byte `i` into accumulator `i mod 4` (rule R205). -/
def foldByte (t : Bytes 32) (acc : Bytes 4) (i : Nat) : Bytes 4 :=
  Vector.ofFn fun a => if a.val = i % 4 then acc[a] ^^^ byteAt t i else acc[a]

/-- The four accumulators of a sync token (rule R205). -/
@[irreducible] def foldToken (t : Bytes 32) : Bytes 4 := (List.range 32).foldl (foldByte t) (zeroBytes 4)

/-- The pattern that the accumulators form (rules R70 item 5, R205). -/
@[irreducible] def patternOf (order : PatOrder) (acc : Bytes 4) : Word :=
  match order with
  | .le => le32 acc[0] acc[1] acc[2] acc[3]
  | .be => be32 acc[0] acc[1] acc[2] acc[3]

/-- `R_BEGIN` (rule R203). -/
def execRBegin (s : State) : Result :=
  unlessStopped s <|
    let seed := tokenOperand s
    .next (setPv false (setRdone false (setRatchet
      { rst := .begin, src := seed, sync := zeroBytes 32, pat := 0, target := s.arg, cur := 0, work := seed } s)))

/-- `R_BIND` (rule R205). -/
def execRBind (s : State) : Result :=
  unlessStopped s <|
    if s.ratchet.rst = .none then .next (raiseFault .noRatchet s)
    else
      let t := tokenOperand s
      .next (setPv true (setRatchet
        { s.ratchet with sync := t, pat := patternOf s.cfg.patOrder (foldToken t) } s))

/-- `R_SETPAT` (rule R204). -/
def execRSetpat (s : State) : Result :=
  unlessStopped s <|
    if s.ratchet.rst = .none then .next (raiseFault .noRatchet s)
    else .next (setPv true (setRatchet { s.ratchet with pat := s.arg } s))

/-- The state after one round (rule R208): Complete and RDONE = 1 if the round reached the target. -/
def roundDone (s : State) : State :=
  let work := ratchetRound s.ratchet.work s.ratchet.pat
  let cur := s.ratchet.cur + 1
  if cur = s.ratchet.target then
    setRdone true (setRatchet { s.ratchet with rst := .complete, cur := cur, work := work } s)
  else setRdone false (setRatchet { s.ratchet with rst := .running, cur := cur, work := work } s)

/-- `R_STEP` (rule R208). -/
def execRStep (s : State) : Result :=
  unlessStopped s <|
    if s.ratchet.rst = .none then .next (raiseFault .noRatchet s)
    else if s.ratchet.cur = s.ratchet.target then
      .next (setRdone true (setRatchet { s.ratchet with rst := .complete } s))
    else if s.pv = false then .next (raiseFault .noPattern s)
    else .next (roundDone s)

end Sys2Proof.Machine
end

