-- ==== Sys2Proof/Machine/System.lean ====
section
/-! DEFINITION. The system commands `NOP` and `SRST` (rules R230, R231). -/

namespace Sys2Proof.Machine

/-- `NOP` (rule R230): nothing. -/
def execNop (s : State) : Result := unlessStopped s (.next s)

/-- `SRST` (rule R231): the reset action, performed even while ERR = 1 (rule R100). -/
def execSrst (s : State) : Result := .next (resetBlock s)

end Sys2Proof.Machine
end

