-- ==== Sys2Proof/Machine/Dispatch.lean ====
section
/-! DEFINITION. The meaning of every command of rule R93, one arm a constructor. -/

namespace Sys2Proof.Machine

/-- Perform a decoded command (rule R100). -/
def exec (i : Instr) (s : State) : Host.Outcome State Fault Refusal :=
  match i with
  | .nop => Sys2Proof.Machine.execNop s
  | .srst => Sys2Proof.Machine.execSrst s
  | .cInit mode kl => Sys2Proof.Machine.execCInit mode kl s
  | .cEnc => Sys2Proof.Machine.execCEnc s
  | .cEncp => Sys2Proof.Machine.execCEncp s
  | .cDec => Sys2Proof.Machine.execCDec s
  | .hInit => Sys2Proof.Machine.execHInit s
  | .hAppend => Sys2Proof.Machine.execHAppend s
  | .hFinal => Sys2Proof.Machine.execHFinal s
  | .rBegin => Sys2Proof.Machine.execRBegin s
  | .rBind => Sys2Proof.Machine.execRBind s
  | .rSetpat => Sys2Proof.Machine.execRSetpat s
  | .rStep => Sys2Proof.Machine.execRStep s

end Sys2Proof.Machine
end

