-- ==== Sys2Proof/Machine/Bus.lean ====
section
/-! DEFINITION. The host's side: the address map and the bus primitives (rules R61, R64 to R69), the write to CMD
(rule R100), and one host move (rule R290). -/

namespace Sys2Proof.Machine

/-- A write of `w` to CMD (rule R100): decode and perform the command, `SRST` even while ERR = 1, any other word not
at all while ERR = 1, and an illegal word as the fault `E_ILLEGAL`. -/
def performCommand (w : Word) (s : State) : Result :=
  match decode w with
  | .ok i => exec i s
  | .error _ => unlessStopped s (.next (raiseFault .illegal s))

/-- `BusRead32(off)` (rules R64, R66): none where rule R69 refuses. -/
def busRead32 (off : Nat) (s : State) : Option Word :=
  if off = 0x000 then some 0
  else if off = 0x004 then some s.arg
  else if off = 0x008 then some (statusWord s)
  else if off = 0x00C then some s.ratchet.cur
  else if off = 0x010 then some s.ratchet.target
  else if off = 0x014 then some (BitVec.ofNat 32 s.cfg.bufBytes)
  else none

/-- `BusRead8(off)` (rule R67): none where rule R69 refuses. -/
def busRead8 (off : Nat) (s : State) : Option Byte :=
  if 0x040 ≤ off ∧ off < 0x060 then some (byteAt s.digest (off - 0x040))
  else if 0x060 ≤ off ∧ off < 0x080 then some (byteAt s.ratchet.work (off - 0x060))
  else if 0x100 ≤ off ∧ off < 0x100 + s.cfg.bufBytes then some (s.dbuf.read (off - 0x100))
  else none

/-- `BusWrite32(off, v)` (rules R65, R66): none where rule R69 refuses. -/
def busWrite32 (off : Nat) (v : Word) (s : State) : Option Result :=
  if off = 0x000 then some (performCommand v s)
  else if off = 0x004 then some (.next (setArg v s))
  else if off = 0x008 ∨ off = 0x00C ∨ off = 0x010 ∨ off = 0x014 then some (.next s)
  else none

/-- `BusWrite8(off, b)` (rule R68): none where rule R69 refuses. -/
def busWrite8 (off : Nat) (b : Byte) (s : State) : Option State :=
  if 0x100 ≤ off ∧ off < 0x100 + s.cfg.bufBytes then some (setDbuf (s.dbuf.write (off - 0x100) b) s)
  else if 0x040 ≤ off ∧ off < 0x080 then some s
  else none

/-- One host move (rule R290). A refused access is a `BusError` and no step of the block (rules R69, R247). -/
def hostMove (m : HostMove) (s : State) : Result :=
  match m with
  | .read32 off =>
    match busRead32 off s with
    | some w => .next (pushReply (.word w) s)
    | none => .fault (.busError m)
  | .read8 off =>
    match busRead8 off s with
    | some b => .next (pushReply (.byte b) s)
    | none => .fault (.busError m)
  | .write32 off v => (busWrite32 off v s).getD (.fault (.busError m))
  | .write8 off b =>
    match busWrite8 off b s with
    | some t => .next t
    | none => .fault (.busError m)
  | .read16 _ | .write16 _ _ => .fault (.busError m)
  | .hardReset => .next (resetBlock s)

/-- The block moves only in a host move (rule R20): make the host's next one. Where the host has none left the run is
over and the state stays as it is (rule R289). -/
def takeMove (s : State) : Result :=
  match s.host with
  | [] => .next s
  | m :: rest => hostMove m (setHost rest s)

/-- The host's next move becomes a write to CMD of the word whose low `nbits` bits are `w`. -/
def placeCommand (nbits w : Nat) (s : State) : State :=
  setHost (.write32 0x000 (BitVec.ofNat 32 (w % 2 ^ nbits)) :: s.host) s

end Sys2Proof.Machine
end

