-- ==== Sys2Proof/Machine/Step.lean ====
section
/-! DEFINITION. One step of the machine, and where it fetches its next command. -/

namespace Sys2Proof.Machine

/-- One step: the host's next move (rules R20, R289, R290). -/
def step (s : State) : Host.Outcome State Fault Refusal := takeMove s

/-- The state whose next step performs the command with the low bits `w`: the block has no program counter and fetches
nothing (rule R22), a command reaches it as the data of a CMD write (rule R74), so the write is put before the
host's remaining moves. -/
def State.withFetchWord (s : State) (nbits w : Nat) : State := placeCommand nbits w s

end Sys2Proof.Machine
end

