-- ==== Sys2Proof/Safety.lean ====
section
/-! DEFINITION. The terms claims are stated in: runs (rule R289), the invariants of rule R45, which part of the state a
command may change, which accesses the bus accepts (rules R61 to R69), and the fault a command meets (rules R241,
R242), each written from its rule and not from the meanings. -/

namespace Sys2Proof.Machine

/-! ### Runs -/

/-- A run (rule R289): the host's moves one after another; a refused access ends it. -/
def runMoves : List HostMove → State → Result
  | [], s => .next s
  | m :: ms, s =>
    match hostMove m s with
    | .next t => runMoves ms t
    | .fault r => .fault r
    | .refused r => .refused r

/-- Commands performed one after another. -/
def runCommands : List Instr → State → Result
  | [], s => .next s
  | i :: is, s =>
    match exec i s with
    | .next t => runCommands is t
    | .fault r => .fault r
    | .refused r => .refused r

/-- A clean run from `s` to `t` (rule R289): no access was refused and ERR = 0 at its end. -/
def CleanRun (ms : List HostMove) (s t : State) : Prop := runMoves ms s = .next t ∧ t.err = false

/-- The states a block can reach: from reset, with any legal parameters, by the moves of any host. -/
inductive Reachable : State → Prop where
  /-- The state after reset with the parameters `c` and a host about to make the moves `ms`. -/
  | reset (c : Config) (ms : List HostMove) (hc : c.wf = true) :
      Reachable { State.reset with cfg := c, host := ms }
  /-- One step. -/
  | step (s t : State) (hs : Reachable s) (h : Machine.step s = .next t) : Reachable t

/-- The moves that reset the block (rule R271). -/
def HostMove.resets : HostMove → Bool
  | .hardReset => true
  | .write32 off w => off == 0x000 && w == 0x00000001
  | .read8 _ | .read16 _ | .read32 _ | .write8 _ _ | .write16 _ _ => false

/-! ### Invariants -/

/-- The invariants of rule R45, one field a line of the rule. -/
structure BlockInv (s : State) : Prop where
  /-- "ECODE = 0 if and only if ERR = 0". -/
  code_iff_running : s.ecode = 0 ↔ s.err = false
  /-- "CV = 1 implies CKL in {0, 1, 2} and NR = 10 + 2*CKL". -/
  key_params : s.cv = true → s.cipher.ckl ≠ 3 ∧ s.cipher.nr.toNat = 10 + 2 * s.cipher.ckl.toNat
  /-- "CM = 0 and CV = 1 imply VEC is all zero". -/
  ecb_vector : s.cipher.cm = .ecb → s.cv = true → ∀ i, byteAt s.cipher.vec i = 0
  /-- "HV = 1 implies PLEN = COUNT mod 64 and COUNT < 2^61". -/
  hash_live : s.hv = true → s.hash.plen.toNat = s.hash.count.toNat % 64 ∧ s.hash.count.toNat < 2 ^ 61
  /-- "HV = 0 implies H, PLEN, COUNT are all zero". -/
  hash_dead : s.hv = false → (∀ i : Fin 8, s.hash.h[i] = 0) ∧ s.hash.plen = 0 ∧ s.hash.count = 0
  /-- "RST = None implies PV = 0, RDONE = 0, CUR = TARGET = 0". -/
  ratchet_none : s.ratchet.rst = .none →
    s.pv = false ∧ s.rdone = false ∧ s.ratchet.cur = 0 ∧ s.ratchet.target = 0
  /-- "CUR <= TARGET". -/
  count_le_target : s.ratchet.cur ≤ s.ratchet.target
  /-- "RST = Complete implies CUR = TARGET". -/
  complete_at_target : s.ratchet.rst = .complete → s.ratchet.cur = s.ratchet.target
  /-- "RST = Running implies 0 < CUR < TARGET". -/
  running_between : s.ratchet.rst = .running → 0 < s.ratchet.cur ∧ s.ratchet.cur < s.ratchet.target
  /-- "RST = Begin implies CUR = 0". -/
  begin_at_zero : s.ratchet.rst = .begin → s.ratchet.cur = 0
  /-- "RDONE = 1 implies RST = Complete". -/
  done_complete : s.rdone = true → s.ratchet.rst = .complete

/-- The model's own invariant of the buffer and the parameters: the parameters are legal (rule R7), the buffer is in
canonical form and lies inside DBUF[0..BUF_BYTES) (rule R43). -/
structure BufferInv (s : State) : Prop where
  /-- The parameters are legal. -/
  params : s.cfg.wf = true
  /-- The canonical form. -/
  canonical : s.dbuf.wf = true
  /-- No byte outside the window. -/
  inside : s.dbuf.within s.cfg.bufBytes = true

/-- The invariant of the machine. -/
structure Inv (s : State) : Prop where
  /-- Rule R45. -/
  block : BlockInv s
  /-- The buffer and the parameters. -/
  buffer : BufferInv s

/-- Every element of the block has its reset value, element by element as in the table of rule R270. -/
structure AtReset (s : State) : Prop where
  /-- ARG. -/
  arg : s.arg = 0
  /-- ERR and ECODE. -/
  error : s.err = false ∧ s.ecode = 0
  /-- CV, HV, PV. -/
  valid : s.cv = false ∧ s.hv = false ∧ s.pv = false
  /-- RST and RDONE. -/
  status : s.ratchet.rst = .none ∧ s.rdone = false
  /-- CM, CKL, NR. -/
  cipherParams : s.cipher.cm = .ecb ∧ s.cipher.ckl = 0 ∧ s.cipher.nr = 0
  /-- RK and VEC. -/
  cipherBytes : (∀ i, byteAt s.cipher.rk i = 0) ∧ ∀ i, byteAt s.cipher.vec i = 0
  /-- H. -/
  hashWords : ∀ i : Fin 8, s.hash.h[i] = 0
  /-- PEND, PLEN, COUNT. -/
  pending : (∀ i, byteAt s.hash.pend i = 0) ∧ s.hash.plen = 0 ∧ s.hash.count = 0
  /-- DIGEST. -/
  digest : ∀ i, byteAt s.digest i = 0
  /-- SRC and SYNC. -/
  tokens : (∀ i, byteAt s.ratchet.src i = 0) ∧ ∀ i, byteAt s.ratchet.sync i = 0
  /-- PAT, TARGET, CUR. -/
  counts : s.ratchet.pat = 0 ∧ s.ratchet.target = 0 ∧ s.ratchet.cur = 0
  /-- WORK. -/
  work : ∀ i, byteAt s.ratchet.work i = 0
  /-- DBUF. -/
  buffer : ∀ a, s.dbuf.read a = 0

/-! ### What may change -/

/-- The units that the commands belong to (rule R1). -/
inductive EngineUnit where
  /-- `NOP` and `SRST`. -/
  | system
  /-- CipherEngine. -/
  | cipher
  /-- HashEngine. -/
  | hash
  /-- TokenRatchet. -/
  | ratchet
deriving DecidableEq, Repr

/-- The unit of a command (rule R93). -/
def unitOf : Instr → EngineUnit
  | .nop | .srst => .system
  | .cInit _ _ | .cEnc | .cEncp | .cDec => .cipher
  | .hInit | .hAppend | .hFinal => .hash
  | .rBegin | .rBind | .rSetpat | .rStep => .ratchet

/-- CipherEngine's state is the same: CV, CM, CKL, NR, RK, VEC. -/
def SameCipher (s t : State) : Prop := t.cv = s.cv ∧ t.cipher = s.cipher

/-- The expanded key and its parameters are the same: CV, CM, CKL, NR, RK, that is CipherEngine's state but for VEC. -/
def SameKey (s t : State) : Prop :=
  t.cv = s.cv ∧ t.cipher.cm = s.cipher.cm ∧ t.cipher.ckl = s.cipher.ckl ∧ t.cipher.nr = s.cipher.nr
    ∧ t.cipher.rk = s.cipher.rk

/-- HashEngine's state is the same: HV, H, PEND, PLEN, COUNT, DIGEST. -/
def SameHash (s t : State) : Prop := t.hv = s.hv ∧ t.hash = s.hash ∧ t.digest = s.digest

/-- TokenRatchet's state is the same: PV, RDONE, RST, SRC, SYNC, PAT, TARGET, CUR, WORK. -/
def SameRatchet (s t : State) : Prop := t.pv = s.pv ∧ t.rdone = s.rdone ∧ t.ratchet = s.ratchet

/-- Every byte of DBUF reads the same. -/
def SameBuffer (s t : State) : Prop := ∀ a, t.dbuf.read a = s.dbuf.read a

/-- ERR and ECODE are the same. -/
def SameError (s t : State) : Prop := t.err = s.err ∧ t.ecode = s.ecode

/-- ARG, the parameters and the host's side of the run are the same. -/
def SameHostSide (s t : State) : Prop :=
  t.arg = s.arg ∧ t.cfg = s.cfg ∧ t.host = s.host ∧ t.replies = s.replies

/-- Everything the host can see is the same: ARG, the fields of STATUS, CUR, TARGET, CAP, DIGEST, WORK and DBUF (rules
R25 to R28, R38, R42, R43); the hidden state of rule R44 may differ. -/
def SameVisible (s t : State) : Prop :=
  t.arg = s.arg ∧ t.err = s.err ∧ t.ecode = s.ecode ∧ t.cv = s.cv ∧ t.hv = s.hv ∧ t.pv = s.pv
    ∧ t.rdone = s.rdone ∧ t.ratchet.rst = s.ratchet.rst ∧ t.cipher.cm = s.cipher.cm
    ∧ t.cipher.ckl = s.cipher.ckl ∧ t.ratchet.cur = s.ratchet.cur ∧ t.ratchet.target = s.ratchet.target
    ∧ t.digest = s.digest ∧ t.ratchet.work = s.ratchet.work ∧ t.cfg = s.cfg ∧ SameBuffer s t

/-! ### The bus -/

/-- `off` is an offset of the six registers, a multiple of 4 in 0x000..0x014 (rule R61). -/
def isRegister (off : Nat) : Bool := off % 4 == 0 && decide (off ≤ 0x014)

/-- `off` lies in the windows DIGEST or R_WORK (rule R61). -/
def isResultWindow (off : Nat) : Bool := decide (0x040 ≤ off) && decide (off ≤ 0x07F)

/-- `off` lies in the window DBUF (rule R61). -/
def isBufferWindow (c : Config) (off : Nat) : Bool := decide (0x100 ≤ off) && decide (off ≤ 0x0FF + c.bufBytes)

/-- The accesses that rules R64 to R68 accept; rule R69 refuses every other. A hardware reset is no access. -/
def HostMove.accepted (c : Config) : HostMove → Bool
  | .read32 off | .write32 off _ => isRegister off
  | .read8 off | .write8 off _ => isResultWindow off || isBufferWindow c off
  | .read16 _ | .write16 _ _ => false
  | .hardReset => true

/-! ### The opcode table -/

/-- The row of rule R93 that a command stands in: match and mask. -/
def tableRow : Instr → Word × Word
  | .nop => (0x00000000, 0xFFFFFFFF)
  | .srst => (0x00000001, 0xFFFFFFFF)
  | .cInit _ _ => (0x00000010, 0xFFFFF8FF)
  | .cEnc => (0x00000011, 0xFFFFFFFF)
  | .cEncp => (0x00000012, 0xFFFFFFFF)
  | .cDec => (0x00000013, 0xFFFFFFFF)
  | .hInit => (0x00000020, 0xFFFFFFFF)
  | .hAppend => (0x00000021, 0xFFFFFFFF)
  | .hFinal => (0x00000022, 0xFFFFFFFF)
  | .rBegin => (0x00000030, 0xFFFFFFFF)
  | .rBind => (0x00000031, 0xFFFFFFFF)
  | .rSetpat => (0x00000032, 0xFFFFFFFF)
  | .rStep => (0x00000033, 0xFFFFFFFF)

/-! ### Faults -/

/-- The fault that rule R241's table gives a command in a block with ERR = 0, in the order of rule R242. -/
def faultOf (i : Instr) (s : State) : Option Cause :=
  match i with
  | .nop | .srst | .hInit | .rBegin => none
  | .cInit _ kl => if kl = 3 then some .keyLen else none
  | .cEnc | .cDec =>
    if s.cv = false then some .noCipher
    else if s.arg.toNat % 16 ≠ 0 then some .length
    else if s.cfg.bufBytes < s.arg.toNat then some .overrun
    else none
  | .cEncp =>
    if s.cv = false then some .noCipher
    else if s.cfg.bufBytes < s.arg.toNat + 16 - s.arg.toNat % 16 then some .overrun
    else none
  | .hAppend =>
    if s.hv = false then some .noHash
    else if s.cfg.bufBytes < s.arg.toNat then some .overrun
    else if 2 ^ 61 ≤ s.hash.count.toNat + s.arg.toNat then some .hashLen
    else none
  | .hFinal => if s.hv = false then some .noHash else none
  | .rBind | .rSetpat => if s.ratchet.rst = .none then some .noRatchet else none
  | .rStep =>
    if s.ratchet.rst = .none then some .noRatchet
    else if s.ratchet.cur ≠ s.ratchet.target ∧ s.pv = false then some .noPattern
    else none

/-! ### Ciphering -/

/-- What enters `Cipher` for block `k` when the first blocks of `s` are encrypted to those of `t` (rule R137): the
block itself in ECB mode, and in CBC mode its exclusive-or with the vector, which is VEC for block 0 and the ciphertext
of the block before for every later block. -/
def encryptInput (s t : State) (k : Nat) : Block :=
  match s.cipher.cm with
  | .ecb => blockOperand k s
  | .cbc => xorBytes (blockOperand k s) (if k = 0 then s.cipher.vec else blockOperand (k - 1) t)

/-- What leaves `InvCipher` for block `k` when the first blocks of `s` are decrypted (rule R139): in CBC mode after the
exclusive-or with VEC for block 0 and with the ciphertext of the block before for every later block. -/
def decryptOutput (s : State) (k : Nat) : Block :=
  let out := aesInvCipher s.cipher.rk s.cipher.nr.toNat (blockOperand k s)
  match s.cipher.cm with
  | .ecb => out
  | .cbc => xorBytes out (if k = 0 then s.cipher.vec else blockOperand (k - 1) s)

/-- `t` holds the first `n` blocks of `s` encrypted (rule R137), the vector moved on in CBC mode, and every byte from
the end of those blocks on as before. -/
structure Encrypted (n : Nat) (s t : State) : Prop where
  /-- The ciphertext blocks. -/
  blocks : ∀ k, k < n → blockOperand k t = aesCipher s.cipher.rk s.cipher.nr.toNat (encryptInput s t k)
  /-- The vector. -/
  vector : t.cipher.vec = if s.cipher.cm = .cbc ∧ 0 < n then blockOperand (n - 1) t else s.cipher.vec
  /-- The bytes beyond. -/
  beyond : ∀ a, 16 * n ≤ a → t.dbuf.read a = s.dbuf.read a

/-- `t` holds the first `n` blocks of `s` decrypted (rule R139), the vector moved on in CBC mode, and every byte from
the end of those blocks on as before. -/
structure Decrypted (n : Nat) (s t : State) : Prop where
  /-- The plaintext blocks. -/
  blocks : ∀ k, k < n → blockOperand k t = decryptOutput s k
  /-- The vector. -/
  vector : t.cipher.vec = if s.cipher.cm = .cbc ∧ 0 < n then blockOperand (n - 1) s else s.cipher.vec
  /-- The bytes beyond. -/
  beyond : ∀ a, 16 * n ≤ a → t.dbuf.read a = s.dbuf.read a

/-! ### Hashing -/

/-- The message with its padding (rule R178): the terminator, zeros, the 64-bit bit length. -/
def paddedMessage (m : List Byte) : List Byte :=
  m ++ (0x80 : Byte) :: (List.replicate (tailZeros (m.length % 64)) 0 ++ bytesBe64 (BitVec.ofNat 64 (m.length * 8)))

/-- Block `k` of 64 bytes of a byte string. -/
def blockOf (m : List Byte) (k : Nat) : Bytes 64 := Vector.ofFn fun i => m.getD (64 * k + i) 0

/-- The host loads each part at DBUF offset 0, sets ARG to its length and issues `H_APPEND` (rule R180). -/
def appendParts : List (List Byte) → State → Result
  | [], s => .next s
  | m :: ms, s =>
    match exec .hAppend (setArg (BitVec.ofNat 32 m.length) (setDbuf (s.dbuf.writeBytes 0 m) s)) with
    | .next t => appendParts ms t
    | .fault r => .fault r
    | .refused r => .refused r

end Sys2Proof.Machine
end

