-- ==== Sys2Proof/Certificates/Slice0/Obligations.lean ====
section
/-! DEFINITION. The statements about the model, for the provers. Each says which rule of spec/ it formalises; a statement
of basis "derived" in OBLIGATIONS.json rests on the sections it cites. A hypothesis `dbuf.wf` is the canonical form of
the buffer, part of the invariant `Inv`, which every step keeps (`StepKeepsInvariant`). The fields `cfg`, `host` and `replies` are
the model's own fields (notes/assumptions/1.md and 2.md): the parameters of rule R7, the moves the host has still to make
(rules R289, R290) and what its reads gave back; a statement that names them says through them what a host move does. -/

open Sys2Proof Sys2Proof.Machine

/-! ### Encoding and decoding -/

/-- Rules R90, R93: every command, `C_INIT` with every mode and every key length code, is decoded from its own word. -/
def Obligations.DecodeEncodeRoundTrip : Prop :=
  ∀ i : Instr, decode (encode i) = .ok i

/-- Rules R90, R95: a word that decodes to a command is that command's word, bit for bit. -/
def Obligations.EncodeDecodeExact : Prop :=
  ∀ (w : Word) (i : Instr), decode w = .ok i → encode i = w

/-- Rule R93: a decoded command's row has `(w and mask) = match`; a word that matches a row decodes to a command of that
row; no word matches two rows. -/
def Obligations.DecodeFollowsTableRows : Prop :=
  (∀ (w : Word) (i : Instr), decode w = .ok i → w &&& (tableRow i).2 = (tableRow i).1)
    ∧ (∀ (w : Word) (j : Instr), w &&& (tableRow j).2 = (tableRow j).1 →
        ∃ i, decode w = .ok i ∧ tableRow i = tableRow j)
    ∧ (∀ (w : Word) (i j : Instr), w &&& (tableRow i).2 = (tableRow i).1 →
        w &&& (tableRow j).2 = (tableRow j).1 → tableRow i = tableRow j)

/-- Rules R93, R94: the words of the table, the eight `C_INIT` words and some illegal words. -/
def Obligations.SampleWordsDecode : Prop :=
  decode 0x00000000 = .ok .nop ∧ decode 0x00000001 = .ok .srst
    ∧ decode 0x00000010 = .ok (.cInit .ecb 0) ∧ decode 0x00000210 = .ok (.cInit .ecb 1)
    ∧ decode 0x00000410 = .ok (.cInit .ecb 2) ∧ decode 0x00000110 = .ok (.cInit .cbc 0)
    ∧ decode 0x00000310 = .ok (.cInit .cbc 1) ∧ decode 0x00000510 = .ok (.cInit .cbc 2)
    ∧ decode 0x00000610 = .ok (.cInit .ecb 3) ∧ decode 0x00000710 = .ok (.cInit .cbc 3)
    ∧ decode 0x00000011 = .ok .cEnc ∧ decode 0x00000012 = .ok .cEncp ∧ decode 0x00000013 = .ok .cDec
    ∧ decode 0x00000020 = .ok .hInit ∧ decode 0x00000021 = .ok .hAppend ∧ decode 0x00000022 = .ok .hFinal
    ∧ decode 0x00000030 = .ok .rBegin ∧ decode 0x00000031 = .ok .rBind
    ∧ decode 0x00000032 = .ok .rSetpat ∧ decode 0x00000033 = .ok .rStep
    ∧ decode 0x00000099 = .error .unknownOpcode ∧ decode 0x00000111 = .error .fieldOutsideInit
    ∧ decode 0x00000800 = .error .reservedBits ∧ decode 0x00000101 = .error .fieldOutsideInit

/-- Rule R94, for a CMD write of `w` to a block with ERR = 0: `w` matches no row exactly if its OP is not one of the
thirteen, or RSV is not 0, or M or KL is not 0 and OP is not 0x10; such a word raises `E_ILLEGAL` (code 1) and changes
nothing else; KL = 3 with OP = 0x10 and RSV = 0 raises `E_KEYLEN` (code 2). -/
def Obligations.IllegalWordsFault : Prop :=
  ∀ (s : State) (w : Word) (rest : List HostMove), s.host = .write32 0x000 w :: rest → s.err = false →
    ((∀ j, w &&& (tableRow j).2 ≠ (tableRow j).1) ↔
        (w.extractLsb' 0 8 ∉ [0x00, 0x01, 0x10, 0x11, 0x12, 0x13, 0x20, 0x21, 0x22, 0x30, 0x31, 0x32, 0x33]
          ∨ w.extractLsb' 11 21 ≠ 0
          ∨ ((w.extractLsb' 8 1 ≠ 0 ∨ w.extractLsb' 9 2 ≠ 0) ∧ w.extractLsb' 0 8 ≠ 0x10)))
      ∧ ((∀ j, w &&& (tableRow j).2 ≠ (tableRow j).1) →
          step s = .next { s with host := rest, err := true, ecode := 1 })
      ∧ (w.extractLsb' 11 21 = 0 → w.extractLsb' 0 8 = 0x10 → w.extractLsb' 9 2 = 3 →
          step s = .next { s with host := rest, err := true, ecode := 2 })

/-! ### A step -/

/-- Rules R22, R65, R74: when the host's next move is a CMD write of a word that decodes to `i`, the step is `exec i`;
around it the step only takes the move off the host's list. -/
def Obligations.StepRunsDecodedCommand : Prop :=
  ∀ (s : State) (w : Word) (rest : List HostMove) (i : Instr),
    s.host = .write32 0x000 w :: rest → decode w = .ok i → step s = exec i (setHost rest s)

/-- Rules R22, R74 and the model's choice of notes/assumptions/3.md: a command's word, placed where the step fetches its
next command, is the command the step runs, in the same state. -/
def Obligations.FetchWordRunsCommand : Prop :=
  ∀ (s : State) (i : Instr), step (s.withFetchWord 32 (encode i).toNat) = exec i s

/-- Rule R100, its four branches in order, for a CMD write of `w` in a state `s`. -/
def Obligations.CmdWriteFollowsPseudocode : Prop :=
  ∀ (s : State) (w : Word) (rest : List HostMove), s.host = .write32 0x000 w :: rest →
    if w = 0x00000001 then step s = exec .srst (setHost rest s)
    else if s.err = true then step s = .next (setHost rest s)
    else if w.extractLsb' 11 21 ≠ 0
        ∨ w.extractLsb' 0 8 ∉ [0x00, 0x01, 0x10, 0x11, 0x12, 0x13, 0x20, 0x21, 0x22, 0x30, 0x31, 0x32, 0x33]
        ∨ (w.extractLsb' 0 8 ≠ 0x10 ∧ (w.extractLsb' 8 1 ≠ 0 ∨ w.extractLsb' 9 2 ≠ 0))
      then step s = .next { s with host := rest, err := true, ecode := 1 }
    else ∃ i, opcode i = w.extractLsb' 0 8
        ∧ (∀ m kl, i = .cInit m kl →
            (m = .cbc ↔ w.extractLsb' 8 1 = 1) ∧ kl = w.extractLsb' 9 2)
        ∧ step s = exec i (setHost rest s)

/-- Rule R289: the steps of a machine whose host is about to make the moves `ms` give the run of `ms`. -/
def Obligations.StepsPerformRun : Prop :=
  ∀ (s : State) (ms : List HostMove), s.host = [] → core.run ms.length (setHost ms s) = runMoves ms s

/-- Rules R20, R289 and the model's choice of notes/assumptions/2.md: where the host has no move left, a step changes
nothing. -/
def Obligations.NothingMovesWithoutHost : Prop :=
  ∀ s : State, s.host = [] → step s = .next s

/-! ### The bus -/

/-- Rule R64: what a 32-bit read of each register returns; it changes no state of the block. -/
def Obligations.RegisterReads : Prop :=
  ∀ (s : State) (rest : List HostMove) (off : Nat) (v : Word),
    (off, v) ∈ [(0x000, 0x00000000#32), (0x004, s.arg), (0x008, statusWord s), (0x00C, s.ratchet.cur),
      (0x010, s.ratchet.target), (0x014, BitVec.ofNat 32 s.cfg.bufBytes)] →
    s.host = .read32 off :: rest →
    step s = .next { s with host := rest, replies := s.replies ++ [.word v] }

/-- Rule R25: the fields of the STATUS word. -/
def Obligations.StatusFields : Prop :=
  ∀ s : State,
    (statusWord s).getLsbD 0 = s.err ∧ (statusWord s).getLsbD 1 = s.cv ∧ (statusWord s).getLsbD 2 = s.hv
      ∧ (statusWord s).getLsbD 3 = s.rdone
      ∧ (statusWord s).extractLsb' 4 2 = (match s.ratchet.rst with
          | .none => 0 | .begin => 1 | .running => 2 | .complete => 3)
      ∧ (statusWord s).getLsbD 6 = decide (s.cipher.cm = .cbc)
      ∧ (statusWord s).extractLsb' 7 2 = s.cipher.ckl ∧ (statusWord s).extractLsb' 9 4 = s.ecode
      ∧ (statusWord s).getLsbD 13 = s.pv ∧ (statusWord s).extractLsb' 14 18 = 0

/-- Rule R65: what a 32-bit write to each register does. -/
def Obligations.RegisterWrites : Prop :=
  ∀ (s : State) (rest : List HostMove) (off : Nat) (v : Word), s.host = .write32 off v :: rest →
    (off = 0x000 → step s = performCommand v { s with host := rest })
      ∧ (off = 0x004 → step s = .next { s with host := rest, arg := v })
      ∧ (off ∈ [0x008, 0x00C, 0x010, 0x014] → step s = .next { s with host := rest })

/-- Rule R67: what a byte read of each window returns; it changes no state of the block. -/
def Obligations.WindowReads : Prop :=
  ∀ (s : State) (rest : List HostMove) (off : Nat), s.host = .read8 off :: rest →
    (0x040 ≤ off → off ≤ 0x05F →
        step s = .next { s with host := rest, replies := s.replies ++ [.byte (byteAt s.digest (off - 0x040))] })
      ∧ (0x060 ≤ off → off ≤ 0x07F →
        step s = .next { s with host := rest, replies := s.replies ++ [.byte (byteAt s.ratchet.work (off - 0x060))] })
      ∧ (0x100 ≤ off → off ≤ 0x0FF + s.cfg.bufBytes →
        step s = .next { s with host := rest, replies := s.replies ++ [.byte (s.dbuf.read (off - 0x100))] })

/-- Rule R68: what a byte write to each window does. In DBUF the byte is stored, every other byte and everything else is
as before; in DIGEST and R_WORK nothing happens. -/
def Obligations.WindowWrites : Prop :=
  ∀ (s : State) (rest : List HostMove) (off : Nat) (b : Byte), s.host = .write8 off b :: rest → s.dbuf.wf = true →
    (0x100 ≤ off → off ≤ 0x0FF + s.cfg.bufBytes →
        ∃ m : Memory, step s = .next { s with host := rest, dbuf := m } ∧ m.wf = true
          ∧ ∀ a, m.read a = if a = off - 0x100 then b else s.dbuf.read a)
      ∧ (0x040 ≤ off → off ≤ 0x07F → step s = .next { s with host := rest })

/-- Rules R66, R69, R247: an access that rules R64 to R68 do not accept is a `BusError` and no step of the block; every
other move has a next state, whether ERR is 0 or 1 (rule R290). -/
def Obligations.RefusedAccessIsBusError : Prop :=
  ∀ (s : State) (m : HostMove) (rest : List HostMove), s.host = m :: rest →
    (m.accepted s.cfg = false → step s = .fault (.busError m))
      ∧ (m.accepted s.cfg = true → ∃ t, step s = .next t)

/-- Rule R44: two states that differ only in hidden state give the host the same reply to every read. -/
def Obligations.HiddenStateUnreadable : Prop :=
  ∀ (s u : State), SameVisible s u → ∀ off,
    busRead32 off s = busRead32 off u ∧ busRead8 off s = busRead8 off u

/-! ### Reset and the invariant -/

/-- Rule R270, for the state after reset and for what the reset action leaves of any state: every element has the reset
value of its row, STATUS reads 0, the parameters stay; rules R231, R271: `SRST` (whether ERR is 0 or 1) and the hardware
reset both perform it, and their results do not differ. -/
def Obligations.ResetSetsEveryElement : Prop :=
  AtReset State.reset ∧ statusWord State.reset = 0
    ∧ ∀ s : State, ∃ t, exec .srst s = .next t ∧ hostMove .hardReset s = .next t ∧ AtReset t ∧ statusWord t = 0
        ∧ t.cfg = s.cfg ∧ t.host = s.host ∧ t.replies = s.replies

/-- The state after reset satisfies the invariant, whatever the legal parameters and the host's moves. -/
def Obligations.ResetSatisfiesInvariant : Prop :=
  ∀ (c : Config) (ms : List HostMove), c.wf = true → Inv { State.reset with cfg := c, host := ms }

/-- Every step keeps the invariant: the lines of rule R45 and, the model's own part (notes/assumptions/1.md and 6.md), legal
parameters and the buffer in canonical form inside its window. -/
def Obligations.StepKeepsInvariant : Prop :=
  ∀ s t : State, Inv s → step s = .next t → Inv t

/-- Rule R45: its invariants hold in every reachable state, for every legal parameter value and every host. -/
def Obligations.ReachableStatesKeepR45 : Prop :=
  ∀ s : State, Reachable s → BlockInv s

/-- Rules R7, R28: no step changes a parameter, so CAP always reads the same. -/
def Obligations.CapNeverChanges : Prop :=
  ∀ s t : State, step s = .next t → t.cfg = s.cfg ∧ busRead32 0x014 t = busRead32 0x014 s

/-! ### Faults -/

/-- Rules R241, R242: the cause codes; a command of a block with ERR = 0 raises exactly the fault that the table gives it,
the first in the order of rule R242, and where the table gives none it completes with ERR = 0. -/
def Obligations.FaultsFollowTable : Prop :=
  (causeCode .illegal = 1 ∧ causeCode .keyLen = 2 ∧ causeCode .noCipher = 3 ∧ causeCode .length = 4
      ∧ causeCode .overrun = 5 ∧ causeCode .noHash = 6 ∧ causeCode .noRatchet = 7 ∧ causeCode .noPattern = 8
      ∧ causeCode .hashLen = 9)
    ∧ ∀ (i : Instr) (s : State), s.err = false →
        (∀ c, faultOf i s = some c → exec i s = .next { s with err := true, ecode := causeCode c })
          ∧ (faultOf i s = none → ∃ t, exec i s = .next t ∧ t.err = false ∧ t.ecode = (if i = .srst then 0 else s.ecode))

/-- Rule R243: whatever word the host writes to CMD, if ERR becomes 1 then ERR and ECODE are all that changed, and ECODE is
the code of the fault raised: `E_ILLEGAL` for a word that decodes to no command, else the fault rule R241's table gives
the command. -/
def Obligations.FaultEntryIsPrecise : Prop :=
  ∀ (w : Word) (s t : State), s.err = false → performCommand w s = .next t → t.err = true →
    ∃ c : Cause, t = { s with err := true, ecode := causeCode c }
      ∧ ((c = .illegal ∧ ∀ i, decode w ≠ .ok i) ∨ ∃ i, decode w = .ok i ∧ faultOf i s = some c)

/-- Rule R244: while ERR = 1 a write to CMD of any word but 0x00000001 has no effect at all (so ECODE keeps the first
cause), and ARG and DBUF can be read and written as ever. -/
def Obligations.StoppedBlockIgnoresCommands : Prop :=
  ∀ (s : State) (rest : List HostMove), s.err = true → s.dbuf.wf = true →
    (∀ w, w ≠ 0x00000001 → s.host = .write32 0x000 w :: rest → step s = .next { s with host := rest })
      ∧ (∀ v, s.host = .write32 0x004 v :: rest → step s = .next { s with host := rest, arg := v })
      ∧ (s.host = .read32 0x004 :: rest →
          step s = .next { s with host := rest, replies := s.replies ++ [.word s.arg] })
      ∧ (∀ a b, a < s.cfg.bufBytes → s.host = .write8 (0x100 + a) b :: rest →
          ∃ m : Memory, step s = .next { s with host := rest, dbuf := m }
            ∧ ∀ x, m.read x = if x = a then b else s.dbuf.read x)
      ∧ (∀ a, a < s.cfg.bufBytes → s.host = .read8 (0x100 + a) :: rest →
          step s = .next { s with host := rest, replies := s.replies ++ [.byte (s.dbuf.read a)] })

/-- Rules R29, R245, R286: over any run from a stopped block in which the host neither writes `SRST` nor resets the
hardware, ERR and ECODE stay and no unit's state changes. -/
def Obligations.OnlyResetLeavesStop : Prop :=
  ∀ (ms : List HostMove) (s t : State), s.err = true → (∀ m ∈ ms, m.resets = false) → runMoves ms s = .next t →
    SameError s t ∧ SameCipher s t ∧ SameHash s t ∧ SameRatchet s t

/-! ### What commands leave alone -/

/-- Rules R1, R206, R283: a command of one unit changes no other unit's state (`SRST` apart). -/
def Obligations.UnitsAreIndependent : Prop :=
  ∀ (i : Instr) (s t : State), i ≠ .srst → exec i s = .next t →
    (unitOf i ≠ .cipher → SameCipher s t) ∧ (unitOf i ≠ .hash → SameHash s t)
      ∧ (unitOf i ≠ .ratchet → SameRatchet s t)

/-- Rules R24, R43, R75: no command changes the parameters or the host's side of the run; none but `SRST` writes ARG;
none but `C_ENC`, `C_ENCP`, `C_DEC` and `SRST` changes a byte of DBUF. -/
def Obligations.CommandsLeaveOperandsAlone : Prop :=
  ∀ (i : Instr) (s t : State), exec i s = .next t →
    t.cfg = s.cfg ∧ t.host = s.host ∧ t.replies = s.replies
      ∧ (i ≠ .srst → t.arg = s.arg)
      ∧ (i ≠ .srst → i ≠ .cEnc → i ≠ .cEncp → i ≠ .cDec → SameBuffer s t)

/-- Rule R230: `NOP` changes nothing, whether ERR is 0 or 1. -/
def Obligations.NopChangesNothing : Prop :=
  ∀ s : State, exec .nop s = .next s

/-! ### CipherEngine -/

/-- Rule R122: bits 5 and above of the multiplier are ignored, and `gmul` is additive in both operands, as a product in
the field is; multiplying by 1 and by 0. -/
def Obligations.GmulIsBilinear : Prop :=
  (∀ x m : Byte, gmul x m = gmul x (m &&& 0x1F))
    ∧ (∀ x y m : Byte, gmul (x ^^^ y) m = gmul x m ^^^ gmul y m)
    ∧ (∀ x m n : Byte, gmul x (m ^^^ n) = gmul x m ^^^ gmul x n)
    ∧ (∀ x : Byte, gmul x 1 = x) ∧ (∀ x : Byte, gmul x 2 = xtime x) ∧ (∀ x : Byte, gmul x 0 = 0)
    ∧ (∀ m : Byte, gmul 0 m = 0)

/-- Rules R124, R133, R134: each inverse transform undoes its transform on every block. -/
def Obligations.InverseTransformsUndo : Prop :=
  ∀ b : Block, invSubBytes (subBytes b) = b ∧ invShiftRows (shiftRows b) = b ∧ invMixColumns (mixColumns b) = b

/-- Rule R135: `InvCipher(Cipher(b, rk, Nr), rk, Nr) = b` for every block, expanded key and round count. -/
def Obligations.InvCipherUndoesCipher : Prop :=
  ∀ (rk : Bytes 240) (nr : Nat) (b : Block), aesInvCipher rk nr (aesCipher rk nr b) = b

/-- Rules R33, R127, R136: the words of RK. The first Nk are the key; every later one up to word 4*(Nr+1) - 1 is the word
Nk before it xor the temporary word of rule R127; the bytes from 16*(Nr+1) on are zero. -/
def Obligations.ExpandedKeyWords : Prop :=
  ∀ (kl : BitVec 2) (key : Bytes (keyBytes kl)), kl ≠ 3 →
    (∀ i, i < keyBytes kl → byteAt (expandedKey kl key) i = byteAt key i)
      ∧ (∀ j, keyWordCount kl ≤ j → j < 4 * (roundCount kl + 1) →
          keyWord (expandedKey kl key) j
            = xorBytes (keyWord (expandedKey kl key) (j - keyWordCount kl))
                (scheduleTemp (keyWordCount kl) j (keyWord (expandedKey kl key) (j - 1))))
      ∧ (∀ i, 16 * (roundCount kl + 1) ≤ i → byteAt (expandedKey kl key) i = 0)

/-- Rule R136, for a legal key length and ERR = 0: the CipherState that `C_INIT` creates, and what it leaves alone. -/
def Obligations.CInitCreatesCipherState : Prop :=
  ∀ (m : Mode) (kl : BitVec 2) (s : State), s.err = false → kl ≠ 3 →
    ∃ t, exec (.cInit m kl) s = .next t
      ∧ t.cv = true ∧ t.cipher.cm = m ∧ t.cipher.ckl = kl ∧ t.cipher.nr.toNat = 10 + 2 * kl.toNat
      ∧ t.cipher.rk = expandedKey kl (memRead 0 (keyBytes kl) s)
      ∧ (∀ i, i < 16 → byteAt t.cipher.vec i = if m = .cbc then s.dbuf.read (32 + i) else 0)
      ∧ SameHash s t ∧ SameRatchet s t ∧ SameError s t ∧ SameHostSide s t ∧ SameBuffer s t

/-- Rules R75, R136: `C_INIT` reads no byte of DBUF but the key's and, in CBC mode, those of the IV. -/
def Obligations.CInitReadsOnlyKeyAndIv : Prop :=
  ∀ (m : Mode) (kl : BitVec 2) (s u : State), s.err = false → u.err = false → kl ≠ 3 →
    (∀ a, a < 16 + 8 * kl.toNat → u.dbuf.read a = s.dbuf.read a) →
    (m = .cbc → ∀ a, 32 ≤ a → a < 48 → u.dbuf.read a = s.dbuf.read a) →
    ∃ s' u', exec (.cInit m kl) s = .next s' ∧ exec (.cInit m kl) u = .next u' ∧ u'.cipher = s'.cipher

/-- Rule R137, where no fault applies: `C_ENC` encrypts the ARG / 16 blocks in place, moves the vector on in CBC mode, and
leaves every byte from index ARG on and all other state alone. -/
def Obligations.CEncEncryptsBlocks : Prop :=
  ∀ s : State, s.err = false → s.cv = true → s.arg.toNat % 16 = 0 → s.arg.toNat ≤ s.cfg.bufBytes →
    s.dbuf.wf = true →
    ∃ t, exec .cEnc s = .next t ∧ Encrypted (s.arg.toNat / 16) s t
      ∧ SameKey s t ∧ SameHash s t ∧ SameRatchet s t ∧ SameError s t ∧ SameHostSide s t

/-- Rule R138, where no fault applies: with `p` the state `s` whose buffer holds the 16 - ARG mod 16 pad bytes after the
plaintext, `C_ENCP` encrypts the blocks of the padded plaintext in place, moves the vector on in CBC mode, and leaves
every byte beyond them and all other state alone. -/
def Obligations.CEncpPadsAndEncrypts : Prop :=
  ∀ s : State, s.err = false → s.cv = true → s.arg.toNat + (16 - s.arg.toNat % 16) ≤ s.cfg.bufBytes →
    s.dbuf.wf = true →
    ∃ p t, exec .cEncp s = .next t
      ∧ (∀ a, p.dbuf.read a =
          if s.arg.toNat ≤ a ∧ a < s.arg.toNat + (16 - s.arg.toNat % 16)
          then BitVec.ofNat 8 (16 - s.arg.toNat % 16) else s.dbuf.read a)
      ∧ p.cipher = s.cipher
      ∧ Encrypted ((s.arg.toNat + (16 - s.arg.toNat % 16)) / 16) p t
      ∧ SameKey s t ∧ SameHash s t ∧ SameRatchet s t ∧ SameError s t ∧ SameHostSide s t

/-- Rule R139, where no fault applies: `C_DEC` decrypts the ARG / 16 blocks in place, moves the vector on in CBC mode, and
leaves every byte from index ARG on and all other state alone. -/
def Obligations.CDecDecryptsBlocks : Prop :=
  ∀ s : State, s.err = false → s.cv = true → s.arg.toNat % 16 = 0 → s.arg.toNat ≤ s.cfg.bufBytes →
    s.dbuf.wf = true →
    ∃ t, exec .cDec s = .next t ∧ Decrypted (s.arg.toNat / 16) s t
      ∧ SameKey s t ∧ SameHash s t ∧ SameRatchet s t ∧ SameError s t ∧ SameHostSide s t

/-- Rule R140, `C_ENC`: `keys` is the buffer when the first `C_INIT` is issued, `keys'` (the same key bytes and, in CBC
mode, the same IV, whatever its other bytes) when the second is, `plain` when `C_ENC` is, and `ct` (the ciphertext loaded again) when `C_DEC` is. The plaintext comes back. -/
def Obligations.CipherRoundTrip : Prop :=
  ∀ (s : State) (m : Mode) (kl : BitVec 2) (l : Word) (keys keys' plain : Memory),
    s.err = false → kl ≠ 3 → l.toNat % 16 = 0 → l.toNat ≤ s.cfg.bufBytes → plain.wf = true →
    (∀ a, a < keyBytes kl → keys'.read a = keys.read a) →
    (m = .cbc → ∀ a, 32 ≤ a → a < 48 → keys'.read a = keys.read a) →
    ∃ s1 s2 s3, exec (.cInit m kl) (setDbuf keys s) = .next s1
      ∧ exec .cEnc (setArg l (setDbuf plain s1)) = .next s2
      ∧ exec (.cInit m kl) (setDbuf keys' s2) = .next s3
      ∧ ∀ ct : Memory, ct.wf = true → (∀ a, a < l.toNat → ct.read a = s2.dbuf.read a) →
          ∃ t, exec .cDec (setArg l (setDbuf ct s3)) = .next t ∧ t.err = false
            ∧ ∀ a, a < l.toNat → t.dbuf.read a = plain.read a

/-- Rule R140, `C_ENCP`: the same for a plaintext of any length `l` whose padded length `l'` fits the buffer, with `l'` as
the length of the decryption; the plaintext comes back, followed by the pad bytes. -/
def Obligations.PaddedRoundTrip : Prop :=
  ∀ (s : State) (m : Mode) (kl : BitVec 2) (l l' : Word) (keys keys' plain : Memory),
    s.err = false → kl ≠ 3 → l'.toNat = l.toNat + (16 - l.toNat % 16) → l'.toNat ≤ s.cfg.bufBytes →
    plain.wf = true → (∀ a, a < keyBytes kl → keys'.read a = keys.read a) →
    (m = .cbc → ∀ a, 32 ≤ a → a < 48 → keys'.read a = keys.read a) →
    ∃ s1 s2 s3, exec (.cInit m kl) (setDbuf keys s) = .next s1
      ∧ exec .cEncp (setArg l (setDbuf plain s1)) = .next s2
      ∧ exec (.cInit m kl) (setDbuf keys' s2) = .next s3
      ∧ ∀ ct : Memory, ct.wf = true → (∀ a, a < l'.toNat → ct.read a = s2.dbuf.read a) →
          ∃ t, exec .cDec (setArg l' (setDbuf ct s3)) = .next t ∧ t.err = false
            ∧ (∀ a, a < l.toNat → t.dbuf.read a = plain.read a)
            ∧ ∀ a, l.toNat ≤ a → a < l'.toNat → t.dbuf.read a = BitVec.ofNat 8 (16 - l.toNat % 16)

/-- Rule R140 for ECB mode: `C_ENC` and then `C_DEC` on the same buffer, with no `C_INIT` between, restore every byte of it. -/
def Obligations.EcbDecryptRestores : Prop :=
  ∀ s : State, s.err = false → s.cv = true → s.cipher.cm = .ecb → s.arg.toNat % 16 = 0 →
    s.arg.toNat ≤ s.cfg.bufBytes → s.dbuf.wf = true →
    ∃ t u, exec .cEnc s = .next t ∧ exec .cDec t = .next u ∧ SameBuffer s u

/-- Rule R281 c: in CBC mode `C_ENC` and then `C_DEC` on the same buffer, with no `C_INIT` between, give the first block
xor the last ciphertext block xor the vector before, and every later block as it was. -/
def Obligations.CbcDecryptWithoutInit : Prop :=
  ∀ s : State, s.err = false → s.cv = true → s.cipher.cm = .cbc → s.arg.toNat % 16 = 0 → 0 < s.arg.toNat →
    s.arg.toNat ≤ s.cfg.bufBytes → s.dbuf.wf = true →
    ∃ t u, exec .cEnc s = .next t ∧ exec .cDec t = .next u ∧ u.err = false
      ∧ blockOperand 0 u
          = xorBytes (blockOperand 0 s) (xorBytes (blockOperand (s.arg.toNat / 16 - 1) t) s.cipher.vec)
      ∧ ∀ k, 0 < k → k < s.arg.toNat / 16 → blockOperand k u = blockOperand k s

/-- Rule R281 a: in CBC mode two successive `C_ENC` of `n` and `k` blocks give the blocks and the vector of one `C_ENC` of
`n + k` blocks. -/
def Obligations.CbcCommandsChain : Prop :=
  ∀ (s : State) (n k : Nat) (whole first second : Memory),
    s.err = false → s.cv = true → s.cipher.cm = .cbc → s.cfg.wf = true → 16 * (n + k) ≤ s.cfg.bufBytes →
    whole.wf = true → first.wf = true → second.wf = true →
    (∀ a, a < 16 * n → first.read a = whole.read a) →
    (∀ a, a < 16 * k → second.read a = whole.read (16 * n + a)) →
    ∃ t t1 t2, exec .cEnc (setArg (BitVec.ofNat 32 (16 * (n + k))) (setDbuf whole s)) = .next t
      ∧ exec .cEnc (setArg (BitVec.ofNat 32 (16 * n)) (setDbuf first s)) = .next t1
      ∧ exec .cEnc (setArg (BitVec.ofNat 32 (16 * k)) (setDbuf second t1)) = .next t2
      ∧ (∀ a, a < 16 * n → t1.dbuf.read a = t.dbuf.read a)
      ∧ (∀ a, a < 16 * k → t2.dbuf.read a = t.dbuf.read (16 * n + a))
      ∧ t2.cipher.vec = t.cipher.vec

/-- Rule R281 a for decryption: in CBC mode two successive `C_DEC` of `n` and `k` blocks give the blocks and the vector of
one `C_DEC` of `n + k` blocks. -/
def Obligations.CbcDecryptsChain : Prop :=
  ∀ (s : State) (n k : Nat) (whole first second : Memory),
    s.err = false → s.cv = true → s.cipher.cm = .cbc → s.cfg.wf = true → 16 * (n + k) ≤ s.cfg.bufBytes →
    whole.wf = true → first.wf = true → second.wf = true →
    (∀ a, a < 16 * n → first.read a = whole.read a) →
    (∀ a, a < 16 * k → second.read a = whole.read (16 * n + a)) →
    ∃ t t1 t2, exec .cDec (setArg (BitVec.ofNat 32 (16 * (n + k))) (setDbuf whole s)) = .next t
      ∧ exec .cDec (setArg (BitVec.ofNat 32 (16 * n)) (setDbuf first s)) = .next t1
      ∧ exec .cDec (setArg (BitVec.ofNat 32 (16 * k)) (setDbuf second t1)) = .next t2
      ∧ (∀ a, a < 16 * n → t1.dbuf.read a = t.dbuf.read a)
      ∧ (∀ a, a < 16 * k → t2.dbuf.read a = t.dbuf.read (16 * n + a))
      ∧ t2.cipher.vec = t.cipher.vec

/-- Rules R281 a, R282 for a padded end: in CBC mode a `C_ENC` of `n` blocks and then a `C_ENCP` of `l` bytes give the
blocks, the padded end and the vector of one `C_ENCP` of `16 n + l` bytes. -/
def Obligations.CbcPaddedEndChains : Prop :=
  ∀ (s : State) (n l : Nat) (whole first second : Memory),
    s.err = false → s.cv = true → s.cipher.cm = .cbc → s.cfg.wf = true →
    16 * n + l + (16 - l % 16) ≤ s.cfg.bufBytes →
    whole.wf = true → first.wf = true → second.wf = true →
    (∀ a, a < 16 * n → first.read a = whole.read a) →
    (∀ a, a < l → second.read a = whole.read (16 * n + a)) →
    ∃ t t1 t2, exec .cEncp (setArg (BitVec.ofNat 32 (16 * n + l)) (setDbuf whole s)) = .next t
      ∧ exec .cEnc (setArg (BitVec.ofNat 32 (16 * n)) (setDbuf first s)) = .next t1
      ∧ exec .cEncp (setArg (BitVec.ofNat 32 l) (setDbuf second t1)) = .next t2
      ∧ (∀ a, a < 16 * n → t1.dbuf.read a = t.dbuf.read a)
      ∧ (∀ a, a < l + (16 - l % 16) → t2.dbuf.read a = t.dbuf.read (16 * n + a))
      ∧ t2.cipher.vec = t.cipher.vec

/-! ### HashEngine -/

/-- Rule R176: `H_INIT` with ERR = 0 loads the eight initial words, empties the pending block and the counter, and leaves
PEND's bytes, DIGEST and all other state alone. -/
def Obligations.HInitStartsHash : Prop :=
  ∀ s : State, s.err = false →
    ∃ t, exec .hInit s = .next t ∧ t.hv = true
      ∧ t.hash.h.toList = [0x6a09e667, 0xbb67ae85, 0x3c6ef372, 0xa54ff53a, 0x510e527f, 0x9b05688c, 0x1f83d9ab,
          0x5be0cd19]
      ∧ t.hash.plen = 0 ∧ t.hash.count = 0 ∧ t.hash.pend = s.hash.pend ∧ t.digest = s.digest
      ∧ SameCipher s t ∧ SameRatchet s t ∧ SameError s t ∧ SameHostSide s t ∧ SameBuffer s t

/-- Rule R177, where no fault applies: `H_APPEND` absorbs DBUF[0..ARG), adds ARG to COUNT and keeps PLEN = COUNT mod 64;
HV, DIGEST and all other state stay. -/
def Obligations.HAppendAbsorbs : Prop :=
  ∀ s : State, s.err = false → s.hv = true → s.arg.toNat ≤ s.cfg.bufBytes →
    s.hash.count.toNat + s.arg.toNat < 2 ^ 61 → s.hash.plen.toNat = s.hash.count.toNat % 64 →
    ∃ t, exec .hAppend s = .next t
      ∧ t.hash = absorb s.hash ((List.range s.arg.toNat).map fun a => s.dbuf.read a)
      ∧ t.hash.count.toNat = s.hash.count.toNat + s.arg.toNat
      ∧ t.hash.plen.toNat = t.hash.count.toNat % 64
      ∧ t.hv = true ∧ t.digest = s.digest
      ∧ SameCipher s t ∧ SameRatchet s t ∧ SameError s t ∧ SameHostSide s t ∧ SameBuffer s t

/-- Rule R178, where no fault applies: `H_FINAL` absorbs the tail, which ends on a block boundary, writes the eight words to
DIGEST most significant byte first, zeroes H, PLEN and COUNT, leaves in PEND what absorbing the tail left there
(notes/assumptions/8.md), clears HV, and leaves all other state alone. -/
def Obligations.HFinalWritesDigest : Prop :=
  ∀ s : State, s.err = false → s.hv = true → s.hash.plen.toNat = s.hash.count.toNat % 64 →
    s.hash.count.toNat < 2 ^ 61 →
    ∃ t, exec .hFinal s = .next t
      ∧ (finishHash s.hash).plen = 0
      ∧ (∀ i : Fin 8, ∀ k, k < 4 →
          byteAt t.digest (4 * i + k) = ((finishHash s.hash).h[i]).extractLsb' (8 * (3 - k)) 8)
      ∧ t.hv = false ∧ (∀ i : Fin 8, t.hash.h[i] = 0) ∧ t.hash.plen = 0 ∧ t.hash.count = 0
      ∧ t.hash.pend = (finishHash s.hash).pend
      ∧ SameCipher s t ∧ SameRatchet s t ∧ SameError s t ∧ SameHostSide s t ∧ SameBuffer s t

/-- Rules R174, R175, R178, R179: absorbing byte by byte computes the hash of the padded message block by block: the
padded message is a whole number of 64-byte blocks, and SHA256 folds `Compress` over them from H0. -/
def Obligations.Sha256IsBlockwise : Prop :=
  ∀ m : List Byte, m.length < 2 ^ 61 →
    (paddedMessage m).length % 64 = 0
      ∧ sha256 m = digestBytes ((List.range ((paddedMessage m).length / 64)).foldl
          (fun h k => shaCompress h (blockOf (paddedMessage m) k)) shaH0)

/-- Rule R180: whatever the split of a message into parts that fit the buffer, `H_INIT`, an `H_APPEND` for each loaded
part and `H_FINAL` leave DIGEST = SHA256 of the message and raise no fault. -/
def Obligations.HashIndependentOfSplit : Prop :=
  ∀ (s : State) (parts : List (List Byte)), s.err = false → s.cfg.wf = true → s.dbuf.wf = true →
    (∀ p ∈ parts, p.length ≤ s.cfg.bufBytes) → parts.flatten.length < 2 ^ 61 →
    ∃ s1 s2 t, exec .hInit s = .next s1 ∧ appendParts parts s1 = .next s2 ∧ exec .hFinal s2 = .next t
      ∧ t.digest = sha256 parts.flatten ∧ t.err = false

/-! ### TokenRatchet -/

/-- Rule R207: the shuffle permutes the bytes, and its corner cases: p = 0, 0x80000000, 0x7FFFFFFF and 0xFFFFFFFF. -/
def Obligations.ShufflePermutesBytes : Prop :=
  ∀ w : Bytes 32,
    (∀ p : Word, (shuffle w p).toList.Perm w.toList)
      ∧ shuffle w 0x00000000 = w
      ∧ (∀ i, i < 32 → byteAt (shuffle w 0x80000000) i
          = if i = 0 then byteAt w 31 else if i = 31 then byteAt w 0 else byteAt w i)
      ∧ (∀ i, i < 32 → byteAt (shuffle w 0x7FFFFFFF) i = byteAt w ((i + 1) % 32))
      ∧ (∀ i, i < 32 → byteAt (shuffle w 0xFFFFFFFF) i
          = if i = 0 then byteAt w 0 else if i = 31 then byteAt w 1 else byteAt w (i + 1))

/-- Rule R203: `R_BEGIN` with ERR = 0 takes the seed DBUF[0..32) and the target ARG, in every ratchet status. -/
def Obligations.RBeginTakesSeed : Prop :=
  ∀ s : State, s.err = false →
    ∃ t, exec .rBegin s = .next t
      ∧ (∀ i, i < 32 → byteAt t.ratchet.src i = s.dbuf.read i) ∧ t.ratchet.work = t.ratchet.src
      ∧ t.ratchet.target = s.arg ∧ t.ratchet.cur = 0 ∧ t.ratchet.rst = .begin ∧ t.rdone = false
      ∧ (∀ i, byteAt t.ratchet.sync i = 0) ∧ t.ratchet.pat = 0 ∧ t.pv = false
      ∧ SameCipher s t ∧ SameHash s t ∧ SameError s t ∧ SameHostSide s t ∧ SameBuffer s t

/-- Rule R205, where no fault applies: `R_BIND` records the token DBUF[0..32), and byte `a` of the pattern, counted from
bits 7:0 with PAT_ORDER = LE and from bits 31:24 with BE, is the xor of the token's bytes a, a+4, …, a+28. -/
def Obligations.RBindFoldsToken : Prop :=
  ∀ s : State, s.err = false → s.ratchet.rst ≠ .none →
    ∃ t, exec .rBind s = .next t
      ∧ (∀ i, i < 32 → byteAt t.ratchet.sync i = s.dbuf.read i)
      ∧ (∀ a, a < 4 → t.ratchet.pat.extractLsb' (match s.cfg.patOrder with | .le => 8 * a | .be => 8 * (3 - a)) 8
          = s.dbuf.read a ^^^ s.dbuf.read (a + 4) ^^^ s.dbuf.read (a + 8) ^^^ s.dbuf.read (a + 12)
            ^^^ s.dbuf.read (a + 16) ^^^ s.dbuf.read (a + 20) ^^^ s.dbuf.read (a + 24) ^^^ s.dbuf.read (a + 28))
      ∧ t.pv = true ∧ t.rdone = s.rdone ∧ t.ratchet.rst = s.ratchet.rst ∧ t.ratchet.cur = s.ratchet.cur
      ∧ t.ratchet.target = s.ratchet.target ∧ t.ratchet.work = s.ratchet.work ∧ t.ratchet.src = s.ratchet.src
      ∧ SameCipher s t ∧ SameHash s t ∧ SameError s t ∧ SameHostSide s t ∧ SameBuffer s t

/-- Rule R204, where no fault applies: `R_SETPAT` sets the pattern from ARG, and SYNC and all other state stay. -/
def Obligations.RSetpatSetsPattern : Prop :=
  ∀ s : State, s.err = false → s.ratchet.rst ≠ .none →
    exec .rSetpat s = .next { s with pv := true, ratchet := { s.ratchet with pat := s.arg } }

/-- Rule R208, where no fault applies: with CUR = TARGET `R_STEP` only marks the ratchet complete; else it does one round
of SHA256 and shuffle, and is complete exactly if the round reached the target; nothing else changes. -/
def Obligations.RStepDoesOneRound : Prop :=
  ∀ s : State, s.err = false → s.ratchet.rst ≠ .none →
    (s.ratchet.cur = s.ratchet.target →
        exec .rStep s = .next { s with rdone := true, ratchet := { s.ratchet with rst := .complete } })
      ∧ (s.ratchet.cur ≠ s.ratchet.target → s.pv = true →
        exec .rStep s = .next
          { s with
            rdone := decide (s.ratchet.cur + 1 = s.ratchet.target)
            ratchet :=
              { s.ratchet with
                rst := if s.ratchet.cur + 1 = s.ratchet.target then .complete else .running
                cur := s.ratchet.cur + 1
                work := shuffle (sha256 s.ratchet.work.toList) s.ratchet.pat } })

/-- Rules R202, R209: after `R_BEGIN` with the seed in DBUF and the target in ARG, one `R_BIND` or `R_SETPAT` (whatever the
host loaded in between), and `k` commands `R_STEP`: CUR is min(k, target), WORK is that many rounds of the seed under
the one pattern, and RDONE is 1 exactly if k reaches the target and is not 0; no fault. -/
def Obligations.RatchetClosedForm : Prop :=
  ∀ (s : State) (v : Word) (buf : Memory) (bind : Instr) (k : Nat), s.err = false → bind = .rBind ∨ bind = .rSetpat →
    ∃ s1 s2 t, exec .rBegin s = .next s1 ∧ exec bind (setArg v (setDbuf buf s1)) = .next s2
      ∧ runCommands (List.replicate k .rStep) s2 = .next t
      ∧ t.err = false
      ∧ t.ratchet.pat = (if bind = .rSetpat then v
          else patternOf s.cfg.patOrder (foldToken (memRead 0 32 (setDbuf buf s))))
      ∧ t.ratchet.cur.toNat = min k s.arg.toNat
      ∧ t.ratchet.work = (fun w => shuffle (sha256 w.toList) t.ratchet.pat)^[min k s.arg.toNat] (memRead 0 32 s)
      ∧ (t.rdone = true ↔ k ≠ 0 ∧ s.arg.toNat ≤ k)
      ∧ (t.ratchet.rst = .complete ↔ k ≠ 0 ∧ s.arg.toNat ≤ k)

/-- Rules R206, R283: `R_STEP` reads nothing of ARG, DBUF, CipherEngine (CV and CipherState) or HashEngine (HV, HashState
and DIGEST): changing them first changes nothing of what it does, and they stay as changed. -/
def Obligations.RStepReadsOnlyRatchet : Prop :=
  ∀ (s t : State) (v : Word) (buf : Memory) (cv hv : Bool) (c : CipherState) (h : HashState) (d : Bytes 32),
    exec .rStep s = .next t →
    exec .rStep { s with arg := v, dbuf := buf, cv := cv, cipher := c, hv := hv, hash := h, digest := d }
      = .next { t with arg := v, dbuf := buf, cv := cv, cipher := c, hv := hv, hash := h, digest := d }
end

