-- ==== Sys2Proof/Laws/Bytes.lean ====
section
/-! SUPPORT. Byte arrays: reading an element, two arrays with the same elements, exclusive-or. -/

namespace Sys2Proof.Machine

theorem byteAt_of_lt {n : Nat} (v : Bytes n) (i : Nat) (h : i < n) : byteAt v i = v[i] := by
  simp [byteAt, h]

theorem byteAt_of_ge {n : Nat} (v : Bytes n) (i : Nat) (h : n ≤ i) : byteAt v i = 0 := by
  simp [byteAt, Nat.not_lt.mpr h]

/-- Two byte arrays with the same elements are equal. -/
theorem bytes_ext {n : Nat} (u v : Bytes n) (h : ∀ i, i < n → byteAt u i = byteAt v i) : u = v := by
  apply Vector.ext
  intro i hi
  simpa [byteAt, hi] using h i hi

/-- An array given by a function has that function's values as elements. -/
theorem byteAt_ofFn {n : Nat} (f : Fin n → Byte) (i : Nat) (h : i < n) :
    byteAt (Vector.ofFn f) i = f ⟨i, h⟩ := by
  simp [byteAt, h]

@[simp] theorem byteAt_zeroBytes (n i : Nat) : byteAt (zeroBytes n) i = 0 := by
  simp [byteAt, zeroBytes]

theorem byteAt_xorBytes {n : Nat} (u v : Bytes n) (i : Nat) :
    byteAt (xorBytes u v) i = byteAt u i ^^^ byteAt v i := by
  by_cases h : i < n <;> simp [byteAt, xorBytes, h]

theorem xorBytes_comm {n : Nat} (u v : Bytes n) : xorBytes u v = xorBytes v u :=
  bytes_ext _ _ fun i _ => by simp [byteAt_xorBytes, BitVec.xor_comm]

/-- Exclusive-or with the same array twice gives the first array back. -/
@[simp] theorem xorBytes_cancel {n : Nat} (u v : Bytes n) : xorBytes (xorBytes u v) v = u :=
  bytes_ext _ _ fun i _ => by simp [byteAt_xorBytes]

end Sys2Proof.Machine
end

