-- ==== Sys2Proof/Laws/State.lean ====
section
/-! SUPPORT. What each named update leaves in each field of the state: one lemma a field and an update, true by
definition, so that no proof unfolds a record update. -/

namespace Sys2Proof.Machine

/-! ### setArg -/

@[simp] theorem setArg_cfg (v : Word) (s : State) : (setArg v s).cfg = s.cfg := rfl
@[simp] theorem setArg_arg (v : Word) (s : State) : (setArg v s).arg = v := rfl
@[simp] theorem setArg_err (v : Word) (s : State) : (setArg v s).err = s.err := rfl
@[simp] theorem setArg_ecode (v : Word) (s : State) : (setArg v s).ecode = s.ecode := rfl
@[simp] theorem setArg_cv (v : Word) (s : State) : (setArg v s).cv = s.cv := rfl
@[simp] theorem setArg_hv (v : Word) (s : State) : (setArg v s).hv = s.hv := rfl
@[simp] theorem setArg_pv (v : Word) (s : State) : (setArg v s).pv = s.pv := rfl
@[simp] theorem setArg_rdone (v : Word) (s : State) : (setArg v s).rdone = s.rdone := rfl
@[simp] theorem setArg_cipher (v : Word) (s : State) : (setArg v s).cipher = s.cipher := rfl
@[simp] theorem setArg_hash (v : Word) (s : State) : (setArg v s).hash = s.hash := rfl
@[simp] theorem setArg_digest (v : Word) (s : State) : (setArg v s).digest = s.digest := rfl
@[simp] theorem setArg_ratchet (v : Word) (s : State) : (setArg v s).ratchet = s.ratchet := rfl
@[simp] theorem setArg_dbuf (v : Word) (s : State) : (setArg v s).dbuf = s.dbuf := rfl
@[simp] theorem setArg_host (v : Word) (s : State) : (setArg v s).host = s.host := rfl
@[simp] theorem setArg_replies (v : Word) (s : State) : (setArg v s).replies = s.replies := rfl

/-! ### setCipher -/

@[simp] theorem setCipher_cfg (c : CipherState) (s : State) : (setCipher c s).cfg = s.cfg := rfl
@[simp] theorem setCipher_arg (c : CipherState) (s : State) : (setCipher c s).arg = s.arg := rfl
@[simp] theorem setCipher_err (c : CipherState) (s : State) : (setCipher c s).err = s.err := rfl
@[simp] theorem setCipher_ecode (c : CipherState) (s : State) : (setCipher c s).ecode = s.ecode := rfl
@[simp] theorem setCipher_cv (c : CipherState) (s : State) : (setCipher c s).cv = true := rfl
@[simp] theorem setCipher_hv (c : CipherState) (s : State) : (setCipher c s).hv = s.hv := rfl
@[simp] theorem setCipher_pv (c : CipherState) (s : State) : (setCipher c s).pv = s.pv := rfl
@[simp] theorem setCipher_rdone (c : CipherState) (s : State) : (setCipher c s).rdone = s.rdone := rfl
@[simp] theorem setCipher_cipher (c : CipherState) (s : State) : (setCipher c s).cipher = c := rfl
@[simp] theorem setCipher_hash (c : CipherState) (s : State) : (setCipher c s).hash = s.hash := rfl
@[simp] theorem setCipher_digest (c : CipherState) (s : State) : (setCipher c s).digest = s.digest := rfl
@[simp] theorem setCipher_ratchet (c : CipherState) (s : State) : (setCipher c s).ratchet = s.ratchet := rfl
@[simp] theorem setCipher_dbuf (c : CipherState) (s : State) : (setCipher c s).dbuf = s.dbuf := rfl
@[simp] theorem setCipher_host (c : CipherState) (s : State) : (setCipher c s).host = s.host := rfl
@[simp] theorem setCipher_replies (c : CipherState) (s : State) : (setCipher c s).replies = s.replies := rfl

/-! ### setVec -/

@[simp] theorem setVec_cfg (v : Block) (s : State) : (setVec v s).cfg = s.cfg := rfl
@[simp] theorem setVec_arg (v : Block) (s : State) : (setVec v s).arg = s.arg := rfl
@[simp] theorem setVec_err (v : Block) (s : State) : (setVec v s).err = s.err := rfl
@[simp] theorem setVec_ecode (v : Block) (s : State) : (setVec v s).ecode = s.ecode := rfl
@[simp] theorem setVec_cv (v : Block) (s : State) : (setVec v s).cv = s.cv := rfl
@[simp] theorem setVec_hv (v : Block) (s : State) : (setVec v s).hv = s.hv := rfl
@[simp] theorem setVec_pv (v : Block) (s : State) : (setVec v s).pv = s.pv := rfl
@[simp] theorem setVec_rdone (v : Block) (s : State) : (setVec v s).rdone = s.rdone := rfl
@[simp] theorem setVec_cipher_cm (v : Block) (s : State) : (setVec v s).cipher.cm = s.cipher.cm := rfl
@[simp] theorem setVec_cipher_ckl (v : Block) (s : State) : (setVec v s).cipher.ckl = s.cipher.ckl := rfl
@[simp] theorem setVec_cipher_nr (v : Block) (s : State) : (setVec v s).cipher.nr = s.cipher.nr := rfl
@[simp] theorem setVec_cipher_rk (v : Block) (s : State) : (setVec v s).cipher.rk = s.cipher.rk := rfl
@[simp] theorem setVec_cipher_vec (v : Block) (s : State) : (setVec v s).cipher.vec = v := rfl
@[simp] theorem setVec_hash (v : Block) (s : State) : (setVec v s).hash = s.hash := rfl
@[simp] theorem setVec_digest (v : Block) (s : State) : (setVec v s).digest = s.digest := rfl
@[simp] theorem setVec_ratchet (v : Block) (s : State) : (setVec v s).ratchet = s.ratchet := rfl
@[simp] theorem setVec_dbuf (v : Block) (s : State) : (setVec v s).dbuf = s.dbuf := rfl
@[simp] theorem setVec_host (v : Block) (s : State) : (setVec v s).host = s.host := rfl
@[simp] theorem setVec_replies (v : Block) (s : State) : (setVec v s).replies = s.replies := rfl

/-! ### setHash -/

@[simp] theorem setHash_cfg (h : HashState) (s : State) : (setHash h s).cfg = s.cfg := rfl
@[simp] theorem setHash_arg (h : HashState) (s : State) : (setHash h s).arg = s.arg := rfl
@[simp] theorem setHash_err (h : HashState) (s : State) : (setHash h s).err = s.err := rfl
@[simp] theorem setHash_ecode (h : HashState) (s : State) : (setHash h s).ecode = s.ecode := rfl
@[simp] theorem setHash_cv (h : HashState) (s : State) : (setHash h s).cv = s.cv := rfl
@[simp] theorem setHash_hv (h : HashState) (s : State) : (setHash h s).hv = s.hv := rfl
@[simp] theorem setHash_pv (h : HashState) (s : State) : (setHash h s).pv = s.pv := rfl
@[simp] theorem setHash_rdone (h : HashState) (s : State) : (setHash h s).rdone = s.rdone := rfl
@[simp] theorem setHash_cipher (h : HashState) (s : State) : (setHash h s).cipher = s.cipher := rfl
@[simp] theorem setHash_hash (h : HashState) (s : State) : (setHash h s).hash = h := rfl
@[simp] theorem setHash_digest (h : HashState) (s : State) : (setHash h s).digest = s.digest := rfl
@[simp] theorem setHash_ratchet (h : HashState) (s : State) : (setHash h s).ratchet = s.ratchet := rfl
@[simp] theorem setHash_dbuf (h : HashState) (s : State) : (setHash h s).dbuf = s.dbuf := rfl
@[simp] theorem setHash_host (h : HashState) (s : State) : (setHash h s).host = s.host := rfl
@[simp] theorem setHash_replies (h : HashState) (s : State) : (setHash h s).replies = s.replies := rfl

/-! ### setHv -/

@[simp] theorem setHv_cfg (b : Bool) (s : State) : (setHv b s).cfg = s.cfg := rfl
@[simp] theorem setHv_arg (b : Bool) (s : State) : (setHv b s).arg = s.arg := rfl
@[simp] theorem setHv_err (b : Bool) (s : State) : (setHv b s).err = s.err := rfl
@[simp] theorem setHv_ecode (b : Bool) (s : State) : (setHv b s).ecode = s.ecode := rfl
@[simp] theorem setHv_cv (b : Bool) (s : State) : (setHv b s).cv = s.cv := rfl
@[simp] theorem setHv_hv (b : Bool) (s : State) : (setHv b s).hv = b := rfl
@[simp] theorem setHv_pv (b : Bool) (s : State) : (setHv b s).pv = s.pv := rfl
@[simp] theorem setHv_rdone (b : Bool) (s : State) : (setHv b s).rdone = s.rdone := rfl
@[simp] theorem setHv_cipher (b : Bool) (s : State) : (setHv b s).cipher = s.cipher := rfl
@[simp] theorem setHv_hash (b : Bool) (s : State) : (setHv b s).hash = s.hash := rfl
@[simp] theorem setHv_digest (b : Bool) (s : State) : (setHv b s).digest = s.digest := rfl
@[simp] theorem setHv_ratchet (b : Bool) (s : State) : (setHv b s).ratchet = s.ratchet := rfl
@[simp] theorem setHv_dbuf (b : Bool) (s : State) : (setHv b s).dbuf = s.dbuf := rfl
@[simp] theorem setHv_host (b : Bool) (s : State) : (setHv b s).host = s.host := rfl
@[simp] theorem setHv_replies (b : Bool) (s : State) : (setHv b s).replies = s.replies := rfl

/-! ### setDigest -/

@[simp] theorem setDigest_cfg (d : Bytes 32) (s : State) : (setDigest d s).cfg = s.cfg := rfl
@[simp] theorem setDigest_arg (d : Bytes 32) (s : State) : (setDigest d s).arg = s.arg := rfl
@[simp] theorem setDigest_err (d : Bytes 32) (s : State) : (setDigest d s).err = s.err := rfl
@[simp] theorem setDigest_ecode (d : Bytes 32) (s : State) : (setDigest d s).ecode = s.ecode := rfl
@[simp] theorem setDigest_cv (d : Bytes 32) (s : State) : (setDigest d s).cv = s.cv := rfl
@[simp] theorem setDigest_hv (d : Bytes 32) (s : State) : (setDigest d s).hv = s.hv := rfl
@[simp] theorem setDigest_pv (d : Bytes 32) (s : State) : (setDigest d s).pv = s.pv := rfl
@[simp] theorem setDigest_rdone (d : Bytes 32) (s : State) : (setDigest d s).rdone = s.rdone := rfl
@[simp] theorem setDigest_cipher (d : Bytes 32) (s : State) : (setDigest d s).cipher = s.cipher := rfl
@[simp] theorem setDigest_hash (d : Bytes 32) (s : State) : (setDigest d s).hash = s.hash := rfl
@[simp] theorem setDigest_digest (d : Bytes 32) (s : State) : (setDigest d s).digest = d := rfl
@[simp] theorem setDigest_ratchet (d : Bytes 32) (s : State) : (setDigest d s).ratchet = s.ratchet := rfl
@[simp] theorem setDigest_dbuf (d : Bytes 32) (s : State) : (setDigest d s).dbuf = s.dbuf := rfl
@[simp] theorem setDigest_host (d : Bytes 32) (s : State) : (setDigest d s).host = s.host := rfl
@[simp] theorem setDigest_replies (d : Bytes 32) (s : State) : (setDigest d s).replies = s.replies := rfl

/-! ### setRatchet -/

@[simp] theorem setRatchet_cfg (r : RatchetState) (s : State) : (setRatchet r s).cfg = s.cfg := rfl
@[simp] theorem setRatchet_arg (r : RatchetState) (s : State) : (setRatchet r s).arg = s.arg := rfl
@[simp] theorem setRatchet_err (r : RatchetState) (s : State) : (setRatchet r s).err = s.err := rfl
@[simp] theorem setRatchet_ecode (r : RatchetState) (s : State) : (setRatchet r s).ecode = s.ecode := rfl
@[simp] theorem setRatchet_cv (r : RatchetState) (s : State) : (setRatchet r s).cv = s.cv := rfl
@[simp] theorem setRatchet_hv (r : RatchetState) (s : State) : (setRatchet r s).hv = s.hv := rfl
@[simp] theorem setRatchet_pv (r : RatchetState) (s : State) : (setRatchet r s).pv = s.pv := rfl
@[simp] theorem setRatchet_rdone (r : RatchetState) (s : State) : (setRatchet r s).rdone = s.rdone := rfl
@[simp] theorem setRatchet_cipher (r : RatchetState) (s : State) : (setRatchet r s).cipher = s.cipher := rfl
@[simp] theorem setRatchet_hash (r : RatchetState) (s : State) : (setRatchet r s).hash = s.hash := rfl
@[simp] theorem setRatchet_digest (r : RatchetState) (s : State) : (setRatchet r s).digest = s.digest := rfl
@[simp] theorem setRatchet_ratchet (r : RatchetState) (s : State) : (setRatchet r s).ratchet = r := rfl
@[simp] theorem setRatchet_dbuf (r : RatchetState) (s : State) : (setRatchet r s).dbuf = s.dbuf := rfl
@[simp] theorem setRatchet_host (r : RatchetState) (s : State) : (setRatchet r s).host = s.host := rfl
@[simp] theorem setRatchet_replies (r : RatchetState) (s : State) : (setRatchet r s).replies = s.replies := rfl

/-! ### setPv -/

@[simp] theorem setPv_cfg (b : Bool) (s : State) : (setPv b s).cfg = s.cfg := rfl
@[simp] theorem setPv_arg (b : Bool) (s : State) : (setPv b s).arg = s.arg := rfl
@[simp] theorem setPv_err (b : Bool) (s : State) : (setPv b s).err = s.err := rfl
@[simp] theorem setPv_ecode (b : Bool) (s : State) : (setPv b s).ecode = s.ecode := rfl
@[simp] theorem setPv_cv (b : Bool) (s : State) : (setPv b s).cv = s.cv := rfl
@[simp] theorem setPv_hv (b : Bool) (s : State) : (setPv b s).hv = s.hv := rfl
@[simp] theorem setPv_pv (b : Bool) (s : State) : (setPv b s).pv = b := rfl
@[simp] theorem setPv_rdone (b : Bool) (s : State) : (setPv b s).rdone = s.rdone := rfl
@[simp] theorem setPv_cipher (b : Bool) (s : State) : (setPv b s).cipher = s.cipher := rfl
@[simp] theorem setPv_hash (b : Bool) (s : State) : (setPv b s).hash = s.hash := rfl
@[simp] theorem setPv_digest (b : Bool) (s : State) : (setPv b s).digest = s.digest := rfl
@[simp] theorem setPv_ratchet (b : Bool) (s : State) : (setPv b s).ratchet = s.ratchet := rfl
@[simp] theorem setPv_dbuf (b : Bool) (s : State) : (setPv b s).dbuf = s.dbuf := rfl
@[simp] theorem setPv_host (b : Bool) (s : State) : (setPv b s).host = s.host := rfl
@[simp] theorem setPv_replies (b : Bool) (s : State) : (setPv b s).replies = s.replies := rfl

/-! ### setRdone -/

@[simp] theorem setRdone_cfg (b : Bool) (s : State) : (setRdone b s).cfg = s.cfg := rfl
@[simp] theorem setRdone_arg (b : Bool) (s : State) : (setRdone b s).arg = s.arg := rfl
@[simp] theorem setRdone_err (b : Bool) (s : State) : (setRdone b s).err = s.err := rfl
@[simp] theorem setRdone_ecode (b : Bool) (s : State) : (setRdone b s).ecode = s.ecode := rfl
@[simp] theorem setRdone_cv (b : Bool) (s : State) : (setRdone b s).cv = s.cv := rfl
@[simp] theorem setRdone_hv (b : Bool) (s : State) : (setRdone b s).hv = s.hv := rfl
@[simp] theorem setRdone_pv (b : Bool) (s : State) : (setRdone b s).pv = s.pv := rfl
@[simp] theorem setRdone_rdone (b : Bool) (s : State) : (setRdone b s).rdone = b := rfl
@[simp] theorem setRdone_cipher (b : Bool) (s : State) : (setRdone b s).cipher = s.cipher := rfl
@[simp] theorem setRdone_hash (b : Bool) (s : State) : (setRdone b s).hash = s.hash := rfl
@[simp] theorem setRdone_digest (b : Bool) (s : State) : (setRdone b s).digest = s.digest := rfl
@[simp] theorem setRdone_ratchet (b : Bool) (s : State) : (setRdone b s).ratchet = s.ratchet := rfl
@[simp] theorem setRdone_dbuf (b : Bool) (s : State) : (setRdone b s).dbuf = s.dbuf := rfl
@[simp] theorem setRdone_host (b : Bool) (s : State) : (setRdone b s).host = s.host := rfl
@[simp] theorem setRdone_replies (b : Bool) (s : State) : (setRdone b s).replies = s.replies := rfl

/-! ### setDbuf -/

@[simp] theorem setDbuf_cfg (m : Memory) (s : State) : (setDbuf m s).cfg = s.cfg := rfl
@[simp] theorem setDbuf_arg (m : Memory) (s : State) : (setDbuf m s).arg = s.arg := rfl
@[simp] theorem setDbuf_err (m : Memory) (s : State) : (setDbuf m s).err = s.err := rfl
@[simp] theorem setDbuf_ecode (m : Memory) (s : State) : (setDbuf m s).ecode = s.ecode := rfl
@[simp] theorem setDbuf_cv (m : Memory) (s : State) : (setDbuf m s).cv = s.cv := rfl
@[simp] theorem setDbuf_hv (m : Memory) (s : State) : (setDbuf m s).hv = s.hv := rfl
@[simp] theorem setDbuf_pv (m : Memory) (s : State) : (setDbuf m s).pv = s.pv := rfl
@[simp] theorem setDbuf_rdone (m : Memory) (s : State) : (setDbuf m s).rdone = s.rdone := rfl
@[simp] theorem setDbuf_cipher (m : Memory) (s : State) : (setDbuf m s).cipher = s.cipher := rfl
@[simp] theorem setDbuf_hash (m : Memory) (s : State) : (setDbuf m s).hash = s.hash := rfl
@[simp] theorem setDbuf_digest (m : Memory) (s : State) : (setDbuf m s).digest = s.digest := rfl
@[simp] theorem setDbuf_ratchet (m : Memory) (s : State) : (setDbuf m s).ratchet = s.ratchet := rfl
@[simp] theorem setDbuf_dbuf (m : Memory) (s : State) : (setDbuf m s).dbuf = m := rfl
@[simp] theorem setDbuf_host (m : Memory) (s : State) : (setDbuf m s).host = s.host := rfl
@[simp] theorem setDbuf_replies (m : Memory) (s : State) : (setDbuf m s).replies = s.replies := rfl

/-! ### setHost -/

@[simp] theorem setHost_cfg (ms : List HostMove) (s : State) : (setHost ms s).cfg = s.cfg := rfl
@[simp] theorem setHost_arg (ms : List HostMove) (s : State) : (setHost ms s).arg = s.arg := rfl
@[simp] theorem setHost_err (ms : List HostMove) (s : State) : (setHost ms s).err = s.err := rfl
@[simp] theorem setHost_ecode (ms : List HostMove) (s : State) : (setHost ms s).ecode = s.ecode := rfl
@[simp] theorem setHost_cv (ms : List HostMove) (s : State) : (setHost ms s).cv = s.cv := rfl
@[simp] theorem setHost_hv (ms : List HostMove) (s : State) : (setHost ms s).hv = s.hv := rfl
@[simp] theorem setHost_pv (ms : List HostMove) (s : State) : (setHost ms s).pv = s.pv := rfl
@[simp] theorem setHost_rdone (ms : List HostMove) (s : State) : (setHost ms s).rdone = s.rdone := rfl
@[simp] theorem setHost_cipher (ms : List HostMove) (s : State) : (setHost ms s).cipher = s.cipher := rfl
@[simp] theorem setHost_hash (ms : List HostMove) (s : State) : (setHost ms s).hash = s.hash := rfl
@[simp] theorem setHost_digest (ms : List HostMove) (s : State) : (setHost ms s).digest = s.digest := rfl
@[simp] theorem setHost_ratchet (ms : List HostMove) (s : State) : (setHost ms s).ratchet = s.ratchet := rfl
@[simp] theorem setHost_dbuf (ms : List HostMove) (s : State) : (setHost ms s).dbuf = s.dbuf := rfl
@[simp] theorem setHost_host (ms : List HostMove) (s : State) : (setHost ms s).host = ms := rfl
@[simp] theorem setHost_replies (ms : List HostMove) (s : State) : (setHost ms s).replies = s.replies := rfl

/-! ### pushReply -/

@[simp] theorem pushReply_cfg (r : Reply) (s : State) : (pushReply r s).cfg = s.cfg := rfl
@[simp] theorem pushReply_arg (r : Reply) (s : State) : (pushReply r s).arg = s.arg := rfl
@[simp] theorem pushReply_err (r : Reply) (s : State) : (pushReply r s).err = s.err := rfl
@[simp] theorem pushReply_ecode (r : Reply) (s : State) : (pushReply r s).ecode = s.ecode := rfl
@[simp] theorem pushReply_cv (r : Reply) (s : State) : (pushReply r s).cv = s.cv := rfl
@[simp] theorem pushReply_hv (r : Reply) (s : State) : (pushReply r s).hv = s.hv := rfl
@[simp] theorem pushReply_pv (r : Reply) (s : State) : (pushReply r s).pv = s.pv := rfl
@[simp] theorem pushReply_rdone (r : Reply) (s : State) : (pushReply r s).rdone = s.rdone := rfl
@[simp] theorem pushReply_cipher (r : Reply) (s : State) : (pushReply r s).cipher = s.cipher := rfl
@[simp] theorem pushReply_hash (r : Reply) (s : State) : (pushReply r s).hash = s.hash := rfl
@[simp] theorem pushReply_digest (r : Reply) (s : State) : (pushReply r s).digest = s.digest := rfl
@[simp] theorem pushReply_ratchet (r : Reply) (s : State) : (pushReply r s).ratchet = s.ratchet := rfl
@[simp] theorem pushReply_dbuf (r : Reply) (s : State) : (pushReply r s).dbuf = s.dbuf := rfl
@[simp] theorem pushReply_host (r : Reply) (s : State) : (pushReply r s).host = s.host := rfl
@[simp] theorem pushReply_replies (r : Reply) (s : State) : (pushReply r s).replies = s.replies ++ [r] := rfl

/-! ### memWrite -/

@[simp] theorem memWrite_cfg {n : Nat} (a : Nat) (v : Bytes n) (s : State) : (memWrite a v s).cfg = s.cfg := rfl
@[simp] theorem memWrite_arg {n : Nat} (a : Nat) (v : Bytes n) (s : State) : (memWrite a v s).arg = s.arg := rfl
@[simp] theorem memWrite_err {n : Nat} (a : Nat) (v : Bytes n) (s : State) : (memWrite a v s).err = s.err := rfl
@[simp] theorem memWrite_ecode {n : Nat} (a : Nat) (v : Bytes n) (s : State) : (memWrite a v s).ecode = s.ecode := rfl
@[simp] theorem memWrite_cv {n : Nat} (a : Nat) (v : Bytes n) (s : State) : (memWrite a v s).cv = s.cv := rfl
@[simp] theorem memWrite_hv {n : Nat} (a : Nat) (v : Bytes n) (s : State) : (memWrite a v s).hv = s.hv := rfl
@[simp] theorem memWrite_pv {n : Nat} (a : Nat) (v : Bytes n) (s : State) : (memWrite a v s).pv = s.pv := rfl
@[simp] theorem memWrite_rdone {n : Nat} (a : Nat) (v : Bytes n) (s : State) : (memWrite a v s).rdone = s.rdone := rfl
@[simp] theorem memWrite_cipher {n : Nat} (a : Nat) (v : Bytes n) (s : State) : (memWrite a v s).cipher = s.cipher := rfl
@[simp] theorem memWrite_hash {n : Nat} (a : Nat) (v : Bytes n) (s : State) : (memWrite a v s).hash = s.hash := rfl
@[simp] theorem memWrite_digest {n : Nat} (a : Nat) (v : Bytes n) (s : State) : (memWrite a v s).digest = s.digest := rfl
@[simp] theorem memWrite_ratchet {n : Nat} (a : Nat) (v : Bytes n) (s : State) : (memWrite a v s).ratchet = s.ratchet := rfl
@[simp] theorem memWrite_dbuf {n : Nat} (a : Nat) (v : Bytes n) (s : State) : (memWrite a v s).dbuf = s.dbuf.writeBytes a v.toList := rfl
@[simp] theorem memWrite_host {n : Nat} (a : Nat) (v : Bytes n) (s : State) : (memWrite a v s).host = s.host := rfl
@[simp] theorem memWrite_replies {n : Nat} (a : Nat) (v : Bytes n) (s : State) : (memWrite a v s).replies = s.replies := rfl

/-! ### raiseFault -/

@[simp] theorem raiseFault_cfg (c : Cause) (s : State) : (raiseFault c s).cfg = s.cfg := rfl
@[simp] theorem raiseFault_arg (c : Cause) (s : State) : (raiseFault c s).arg = s.arg := rfl
@[simp] theorem raiseFault_err (c : Cause) (s : State) : (raiseFault c s).err = true := rfl
@[simp] theorem raiseFault_ecode (c : Cause) (s : State) : (raiseFault c s).ecode = causeCode c := rfl
@[simp] theorem raiseFault_cv (c : Cause) (s : State) : (raiseFault c s).cv = s.cv := rfl
@[simp] theorem raiseFault_hv (c : Cause) (s : State) : (raiseFault c s).hv = s.hv := rfl
@[simp] theorem raiseFault_pv (c : Cause) (s : State) : (raiseFault c s).pv = s.pv := rfl
@[simp] theorem raiseFault_rdone (c : Cause) (s : State) : (raiseFault c s).rdone = s.rdone := rfl
@[simp] theorem raiseFault_cipher (c : Cause) (s : State) : (raiseFault c s).cipher = s.cipher := rfl
@[simp] theorem raiseFault_hash (c : Cause) (s : State) : (raiseFault c s).hash = s.hash := rfl
@[simp] theorem raiseFault_digest (c : Cause) (s : State) : (raiseFault c s).digest = s.digest := rfl
@[simp] theorem raiseFault_ratchet (c : Cause) (s : State) : (raiseFault c s).ratchet = s.ratchet := rfl
@[simp] theorem raiseFault_dbuf (c : Cause) (s : State) : (raiseFault c s).dbuf = s.dbuf := rfl
@[simp] theorem raiseFault_host (c : Cause) (s : State) : (raiseFault c s).host = s.host := rfl
@[simp] theorem raiseFault_replies (c : Cause) (s : State) : (raiseFault c s).replies = s.replies := rfl

/-! ### resetBlock -/

@[simp] theorem resetBlock_cfg (s : State) : (resetBlock s).cfg = s.cfg := rfl
@[simp] theorem resetBlock_arg (s : State) : (resetBlock s).arg = State.reset.arg := rfl
@[simp] theorem resetBlock_err (s : State) : (resetBlock s).err = State.reset.err := rfl
@[simp] theorem resetBlock_ecode (s : State) : (resetBlock s).ecode = State.reset.ecode := rfl
@[simp] theorem resetBlock_cv (s : State) : (resetBlock s).cv = State.reset.cv := rfl
@[simp] theorem resetBlock_hv (s : State) : (resetBlock s).hv = State.reset.hv := rfl
@[simp] theorem resetBlock_pv (s : State) : (resetBlock s).pv = State.reset.pv := rfl
@[simp] theorem resetBlock_rdone (s : State) : (resetBlock s).rdone = State.reset.rdone := rfl
@[simp] theorem resetBlock_cipher (s : State) : (resetBlock s).cipher = State.reset.cipher := rfl
@[simp] theorem resetBlock_hash (s : State) : (resetBlock s).hash = State.reset.hash := rfl
@[simp] theorem resetBlock_digest (s : State) : (resetBlock s).digest = State.reset.digest := rfl
@[simp] theorem resetBlock_ratchet (s : State) : (resetBlock s).ratchet = State.reset.ratchet := rfl
@[simp] theorem resetBlock_dbuf (s : State) : (resetBlock s).dbuf = State.reset.dbuf := rfl
@[simp] theorem resetBlock_host (s : State) : (resetBlock s).host = s.host := rfl
@[simp] theorem resetBlock_replies (s : State) : (resetBlock s).replies = s.replies := rfl

/-! ### unlessStopped -/

theorem unlessStopped_stopped (s : State) (r : Result) (h : s.err = true) : unlessStopped s r = .next s := by
  simp [unlessStopped, h]

@[simp] theorem unlessStopped_running (s : State) (r : Result) (h : s.err = false) : unlessStopped s r = r := by
  simp [unlessStopped, h]

/-- A command that answers a next state either met a stopped block and changed nothing, or ran. -/
theorem unlessStopped_cases (s t : State) (r : Result) (h : unlessStopped s r = .next t) :
    (s.err = true ∧ t = s) ∨ (s.err = false ∧ r = .next t) := by
  cases he : s.err
  · exact .inr ⟨rfl, by simpa [unlessStopped, he] using h⟩
  · exact .inl ⟨rfl, by simpa [unlessStopped, he] using h.symm⟩

end Sys2Proof.Machine
end

