-- ==== Sys2Proof/Laws/Memory.lean ====
section
/-! SUPPORT. The operand buffer: reading after writing, and every operation keeps the canonical form and the window. -/

namespace Sys2Proof.Machine

/-! ### Reading below the first cell -/

theorem Memory.wfFrom_mono (lo lo' : Nat) (m : Memory) (h : lo' ≤ lo) (hw : Memory.wfFrom lo m = true) :
    Memory.wfFrom lo' m = true := by
  cases m with
  | nil => rfl
  | cons c m =>
    obtain ⟨k, v⟩ := c
    simp only [Memory.wfFrom, Bool.and_eq_true, decide_eq_true_eq] at hw ⊢
    exact ⟨⟨by omega, hw.1.2⟩, hw.2⟩

theorem Memory.read_below (lo a : Nat) (m : Memory) (hw : Memory.wfFrom lo m = true) (h : a < lo) :
    m.read a = Memory.blank := by
  induction m generalizing lo with
  | nil => rfl
  | cons c m ih =>
    obtain ⟨k, v⟩ := c
    simp only [Memory.wfFrom, Bool.and_eq_true, decide_eq_true_eq] at hw
    simp only [Memory.read, if_neg (show ¬ k = a by omega)]
    exact ih (k + 1) hw.2 (by omega)

/-! ### One byte -/

theorem Memory.read_write_from (lo a x : Nat) (b : Byte) (m : Memory) (hw : Memory.wfFrom lo m = true) :
    (m.write a b).read x = if x = a then b else m.read x := by
  induction m generalizing lo with
  | nil =>
    unfold Memory.write
    by_cases hb : b = Memory.blank <;> by_cases hx : x = a
    · rw [if_pos hb, if_pos hx, hb]; rfl
    · simp only [if_pos hb, if_neg hx]
    · simp only [if_neg hb, if_pos hx, Memory.read, if_pos hx.symm]
    · simp only [if_neg hb, if_neg hx, Memory.read, if_neg (Ne.symm hx)]
  | cons c m ih =>
    obtain ⟨k, v⟩ := c
    have hw' := hw
    simp only [Memory.wfFrom, Bool.and_eq_true, decide_eq_true_eq] at hw'
    obtain ⟨⟨hlo, hv⟩, hm⟩ := hw'
    unfold Memory.write
    by_cases h1 : a < k
    · rw [if_pos h1]
      have hblank : Memory.read ((k, v) :: m) a = Memory.blank := by
        refine Memory.read_below k a _ ?_ h1
        simp [Memory.wfFrom, hm, hv]
      by_cases hb : b = Memory.blank
      · rw [if_pos hb]
        by_cases hx : x = a
        · rw [if_pos hx, hx, hblank, hb]
        · rw [if_neg hx]
      · rw [if_neg hb]
        by_cases hx : x = a
        · simp [Memory.read, hx]
        · rw [if_neg hx, Memory.read, if_neg (Ne.symm hx)]
    · rw [if_neg h1]
      by_cases h2 : a = k
      · subst h2
        rw [if_pos rfl]
        have hblank : Memory.read m a = Memory.blank := Memory.read_below (a + 1) a m hm (by omega)
        by_cases hb : b = Memory.blank
        · rw [if_pos hb]
          by_cases hx : x = a
          · rw [if_pos hx, hx, hblank, hb]
          · rw [if_neg hx, Memory.read, if_neg (Ne.symm hx)]
        · rw [if_neg hb]
          by_cases hx : x = a
          · simp [Memory.read, hx]
          · simp only [if_neg hx, Memory.read, if_neg (Ne.symm hx)]
      · rw [if_neg h2]
        by_cases hk : k = x
        · have hxa : ¬ x = a := by omega
          simp [Memory.read, hk, hxa]
        · simp only [Memory.read, if_neg hk]
          exact ih (k + 1) hm

/-- Reading after storing one byte: the stored byte at its index, the old byte everywhere else. -/
theorem Memory.read_write (m : Memory) (a x : Nat) (b : Byte) (hw : m.wf = true) :
    (m.write a b).read x = if x = a then b else m.read x :=
  Memory.read_write_from 0 a x b m hw

theorem Memory.wfFrom_write (lo a : Nat) (b : Byte) (m : Memory) (ha : lo ≤ a) (hw : Memory.wfFrom lo m = true) :
    Memory.wfFrom lo (m.write a b) = true := by
  induction m generalizing lo with
  | nil =>
    by_cases hb : b = Memory.blank <;> simp [Memory.write, Memory.wfFrom, hb, ha]
  | cons c m ih =>
    obtain ⟨k, v⟩ := c
    simp only [Memory.wfFrom, Bool.and_eq_true, decide_eq_true_eq] at hw
    obtain ⟨⟨hlo, hv⟩, hm⟩ := hw
    unfold Memory.write
    by_cases h1 : a < k
    · have hlk : lo ≤ k := by omega
      have hak : a + 1 ≤ k := h1
      by_cases hb : b = Memory.blank <;> simp [h1, hb, Memory.wfFrom, hm, hv, ha, hlk, hak]
    · by_cases h2 : a = k
      · subst h2
        by_cases hb : b = Memory.blank
        · simpa [hb] using Memory.wfFrom_mono (a + 1) lo m (by omega) hm
        · simp [hb, Memory.wfFrom, hm, ha]
      · simp only [if_neg h1, if_neg h2, Memory.wfFrom, Bool.and_eq_true, decide_eq_true_eq]
        exact ⟨⟨hlo, hv⟩, ih (k + 1) (by omega) hm⟩

/-- Storing one byte keeps the canonical form. -/
theorem Memory.wf_write (m : Memory) (a : Nat) (b : Byte) (hw : m.wf = true) : (m.write a b).wf = true :=
  Memory.wfFrom_write 0 a b m (Nat.zero_le a) hw

/-- Storing one byte inside the window keeps every cell inside it. -/
theorem Memory.within_write (n : Nat) (m : Memory) (a : Nat) (b : Byte) (ha : a < n) (hm : m.within n = true) :
    (m.write a b).within n = true := by
  induction m with
  | nil => by_cases hb : b = Memory.blank <;> simp [Memory.write, Memory.within, hb, ha]
  | cons c m ih =>
    obtain ⟨k, v⟩ := c
    simp only [Memory.within, List.all_cons, Bool.and_eq_true, decide_eq_true_eq] at hm ih ⊢
    obtain ⟨hk, hm⟩ := hm
    unfold Memory.write
    by_cases h1 : a < k
    · by_cases hb : b = Memory.blank <;> simp [h1, hb, hk, ha] <;> simpa using hm
    · by_cases h2 : a = k
      · by_cases hb : b = Memory.blank <;> simp [h2, hb, hk] <;> simpa using hm
      · simp only [if_neg h1, if_neg h2, List.all_cons, Bool.and_eq_true, decide_eq_true_eq]
        exact ⟨hk, ih hm⟩

/-! ### Bytes at consecutive indices -/

/-- Storing bytes at consecutive indices keeps the canonical form. -/
theorem Memory.wf_writeBytes (bs : List Byte) (m : Memory) (a : Nat) (hw : m.wf = true) :
    (m.writeBytes a bs).wf = true := by
  induction bs generalizing m a with
  | nil => exact hw
  | cons b bs ih => exact ih _ _ (Memory.wf_write m a b hw)

/-- Storing bytes inside the window keeps every cell inside it. -/
theorem Memory.within_writeBytes (n : Nat) (bs : List Byte) (m : Memory) (a : Nat) (ha : a + bs.length ≤ n)
    (hm : m.within n = true) : (m.writeBytes a bs).within n = true := by
  induction bs generalizing m a with
  | nil => exact hm
  | cons b bs ih =>
    simp only [List.length_cons] at ha
    exact ih _ _ (by omega) (Memory.within_write n m a b (by omega) hm)

/-- Reading after storing bytes at consecutive indices: the stored byte inside the range, the old byte outside. -/
theorem Memory.read_writeBytes (bs : List Byte) (m : Memory) (a x : Nat) (hw : m.wf = true) :
    (m.writeBytes a bs).read x = if a ≤ x ∧ x < a + bs.length then bs.getD (x - a) 0 else m.read x := by
  induction bs generalizing m a with
  | nil => rw [if_neg (by simp), Memory.writeBytes]
  | cons b bs ih =>
    simp only [Memory.writeBytes, ih _ _ (Memory.wf_write m a b hw), Memory.read_write m a x b hw, List.length_cons]
    by_cases h1 : x = a
    · subst h1; simp
    · by_cases h2 : a + 1 ≤ x ∧ x < a + 1 + bs.length
      · have h3 : a ≤ x ∧ x < a + (bs.length + 1) := by omega
        obtain ⟨d, hd⟩ : ∃ d, x - a = d + 1 := ⟨x - a - 1, by omega⟩
        have hd' : x - (a + 1) = d := by omega
        simp [h2, h3, hd, hd']
      · have h3 : ¬ (a ≤ x ∧ x < a + (bs.length + 1)) := by omega
        rw [if_neg h2, if_neg h1, if_neg h3]

/-! ### MemRead and MemWrite -/

theorem byteAt_memRead (a n i : Nat) (s : State) (h : i < n) : byteAt (memRead a n s) i = s.dbuf.read (a + i) := by
  simp [memRead, byteAt_ofFn, h]

/-- What `MemRead` gives depends only on the bytes it reads. -/
theorem memRead_congr (a n : Nat) (s t : State) (h : ∀ i, i < n → s.dbuf.read (a + i) = t.dbuf.read (a + i)) :
    memRead a n s = memRead a n t :=
  bytes_ext _ _ fun i hi => by rw [byteAt_memRead _ _ _ _ hi, byteAt_memRead _ _ _ _ hi, h i hi]

/-- Everything `MemWrite` does to the buffer. -/
theorem read_memWrite {n : Nat} (a : Nat) (v : Bytes n) (s : State) (x : Nat) (hw : s.dbuf.wf = true) :
    (memWrite a v s).dbuf.read x = if a ≤ x ∧ x < a + n then byteAt v (x - a) else s.dbuf.read x := by
  simp only [memWrite_dbuf, Memory.read_writeBytes _ _ _ _ hw, Vector.length_toList]
  by_cases h : a ≤ x ∧ x < a + n
  · simp only [if_pos h]
    have hlt : x - a < n := by omega
    simp [byteAt, hlt]
  · simp only [if_neg h]

theorem wf_memWrite {n : Nat} (a : Nat) (v : Bytes n) (s : State) (hw : s.dbuf.wf = true) :
    (memWrite a v s).dbuf.wf = true :=
  Memory.wf_writeBytes _ _ _ hw

theorem within_memWrite {n : Nat} (a : Nat) (v : Bytes n) (s : State) (ha : a + n ≤ s.cfg.bufBytes)
    (hm : s.dbuf.within s.cfg.bufBytes = true) : (memWrite a v s).dbuf.within s.cfg.bufBytes = true :=
  Memory.within_writeBytes _ _ _ _ (by simpa using ha) hm

/-- Reading back the range just written. -/
theorem memRead_memWrite_same {n : Nat} (a : Nat) (v : Bytes n) (s : State) (hw : s.dbuf.wf = true) :
    memRead a n (memWrite a v s) = v :=
  bytes_ext _ _ fun i hi => by
    have h : a ≤ a + i ∧ a + i < a + n := by omega
    rw [byteAt_memRead _ _ _ _ hi, read_memWrite _ _ _ _ hw, if_pos h, Nat.add_sub_cancel_left]

/-- Reading a range apart from the one just written. -/
theorem memRead_memWrite_apart {n : Nat} (a b k : Nat) (v : Bytes n) (s : State) (hw : s.dbuf.wf = true)
    (h : b + k ≤ a ∨ a + n ≤ b) : memRead b k (memWrite a v s) = memRead b k s :=
  memRead_congr _ _ _ _ fun i hi => by
    have h' : ¬ (a ≤ b + i ∧ b + i < a + n) := by omega
    rw [read_memWrite _ _ _ _ hw, if_neg h']

/-- The buffer after reset is in canonical form and inside its window. -/
theorem reset_dbuf_wf : State.reset.dbuf.wf = true ∧ State.reset.dbuf.within State.reset.cfg.bufBytes = true :=
  ⟨rfl, rfl⟩

end Sys2Proof.Machine
end

