-- ==== Sys2Proof/Laws/Blocks.lean ====
section
/-! SUPPORT. The block loops of the cipher commands: what one pass does, and what the loop does to the buffer, the vector
and everything else. -/

namespace Sys2Proof.Machine

/-- Everything a data command of CipherEngine leaves alone: all state but VEC and the bytes of DBUF. -/
structure SameButData (s t : State) : Prop where
  /-- CV, CM, CKL, NR, RK. -/
  key : SameKey s t
  /-- HashEngine. -/
  hash : SameHash s t
  /-- TokenRatchet. -/
  ratchet : SameRatchet s t
  /-- ERR and ECODE. -/
  error : SameError s t
  /-- ARG, the parameters, the host's side. -/
  hostSide : SameHostSide s t

theorem SameButData.refl (s : State) : SameButData s s :=
  ⟨⟨rfl, rfl, rfl, rfl, rfl⟩, ⟨rfl, rfl, rfl⟩, ⟨rfl, rfl, rfl⟩, ⟨rfl, rfl⟩, ⟨rfl, rfl, rfl, rfl⟩⟩

/-- Storing bytes and moving the vector leave everything else alone. -/
theorem SameButData.write {s t : State} (h : SameButData s t) {n : Nat} (a : Nat) (out : Bytes n) (v : Block) :
    SameButData s (memWrite a out (setVec v t)) :=
  ⟨h.key, h.hash, h.ratchet, h.error, h.hostSide⟩

/-- Storing bytes leaves everything else alone. -/
theorem SameButData.store {s t : State} (h : SameButData s t) {n : Nat} (a : Nat) (out : Bytes n) :
    SameButData s (memWrite a out t) :=
  ⟨h.key, h.hash, h.ratchet, h.error, h.hostSide⟩

@[simp] theorem blockOperand_setVec (k : Nat) (v : Block) (s : State) :
    blockOperand k (setVec v s) = blockOperand k s :=
  memRead_congr _ _ _ _ fun _ _ => rfl

/-! ### One pass -/

/-- What one pass of the encryption loop does. -/
theorem encryptBlock_spec (k : Nat) (s : State) :
    ∃ out v, encryptBlock k s = memWrite (16 * k) out (setVec v s)
      ∧ out = aesCipher s.cipher.rk s.cipher.nr.toNat
          (match s.cipher.cm with
            | .ecb => blockOperand k s
            | .cbc => xorBytes (blockOperand k s) s.cipher.vec)
      ∧ v = (match s.cipher.cm with
            | .ecb => s.cipher.vec
            | .cbc => out) := by
  cases h : s.cipher.cm
  · exact ⟨_, s.cipher.vec, by simp only [encryptBlock, h]; rfl, rfl, rfl⟩
  · exact ⟨_, _, by simp only [encryptBlock, h], rfl, rfl⟩

/-- What one pass of the decryption loop does. -/
theorem decryptBlock_spec (k : Nat) (s : State) :
    ∃ out v, decryptBlock k s = memWrite (16 * k) out (setVec v s)
      ∧ out = (match s.cipher.cm with
            | .ecb => aesInvCipher s.cipher.rk s.cipher.nr.toNat (blockOperand k s)
            | .cbc => xorBytes (aesInvCipher s.cipher.rk s.cipher.nr.toNat (blockOperand k s)) s.cipher.vec)
      ∧ v = (match s.cipher.cm with
            | .ecb => s.cipher.vec
            | .cbc => blockOperand k s) := by
  cases h : s.cipher.cm
  · exact ⟨_, s.cipher.vec, by simp only [decryptBlock, h]; rfl, rfl, rfl⟩
  · exact ⟨_, _, by simp only [decryptBlock, h], rfl, rfl⟩

/-! ### The loops -/

/-- What holds before the first pass and is kept by every pass holds after the loop. -/
theorem forBlocks_induction (P : Nat → State → Prop) (pass : Nat → State → State) (s : State) (h0 : P 0 s)
    (hs : ∀ k t, P k t → P (k + 1) (pass k t)) (n : Nat) : P n (forBlocks pass n s) := by
  induction n with
  | zero => exact h0
  | succ n ih => exact hs n _ ih

/-- The blocks below the one being written, and the bytes above it, stay as they are. -/
theorem blockOperand_memWrite_other (j k : Nat) (out : Block) (s : State) (hw : s.dbuf.wf = true) (h : j ≠ k) :
    blockOperand j (memWrite (16 * k) out s) = blockOperand j s :=
  memRead_memWrite_apart _ _ _ _ _ hw (by omega)

theorem blockOperand_memWrite_same (k : Nat) (out : Block) (s : State) (hw : s.dbuf.wf = true) :
    blockOperand k (memWrite (16 * k) out s) = out :=
  memRead_memWrite_same _ _ _ hw

theorem blockOperand_congr (k : Nat) (s t : State)
    (h : ∀ a, 16 * k ≤ a → t.dbuf.read a = s.dbuf.read a) : blockOperand k t = blockOperand k s :=
  memRead_congr _ _ _ _ fun i _ => h _ (by omega)

/-- What the encryption loop does. -/
theorem forBlocks_encryptBlock (n : Nat) (s : State) (hw : s.dbuf.wf = true) :
    SameButData s (forBlocks encryptBlock n s) ∧ (forBlocks encryptBlock n s).dbuf.wf = true
      ∧ Encrypted n s (forBlocks encryptBlock n s) := by
  refine forBlocks_induction
    (fun n t => SameButData s t ∧ t.dbuf.wf = true ∧ Encrypted n s t) encryptBlock s
    ⟨SameButData.refl s, hw, ⟨fun k hk => absurd hk (Nat.not_lt_zero k), by simp, fun _ _ => rfl⟩⟩ ?_ n
  rintro n t ⟨hsame, hwt, henc⟩
  obtain ⟨out, v, heq, hout, hv⟩ := encryptBlock_spec n t
  rw [heq]
  have hw' : (setVec v t).dbuf.wf = true := hwt
  obtain ⟨-, hcm, -, hnr, hrk⟩ := hsame.key
  have hblk : blockOperand n t = blockOperand n s := blockOperand_congr n s t henc.beyond
  rw [hcm, hrk, hnr, hblk] at hout
  rw [hcm] at hv
  refine ⟨hsame.write _ _ _, wf_memWrite _ _ _ hw', ?_, ?_, ?_⟩
  · intro k hk
    by_cases hkn : k = n
    · subst hkn
      rw [blockOperand_memWrite_same k out _ hw', hout]
      unfold encryptInput
      cases hm : s.cipher.cm
      · rfl
      · simp only
        congr 2
        rw [henc.vector, hm]
        by_cases h0 : k = 0
        · simp [h0]
        · rw [if_pos ⟨rfl, by omega⟩, if_neg h0, blockOperand_memWrite_other _ _ _ _ hw' (by omega),
            blockOperand_setVec]
    · have hlt : k < n := by omega
      rw [blockOperand_memWrite_other k n out _ hw' hkn, blockOperand_setVec, henc.blocks k hlt]
      unfold encryptInput
      cases hm : s.cipher.cm
      · rfl
      · by_cases h0 : k = 0
        · simp [h0]
        · simp only [if_neg h0]
          rw [blockOperand_memWrite_other (k - 1) n out _ hw' (by omega), blockOperand_setVec]
  · rw [memWrite_cipher, setVec_cipher_vec, Nat.add_sub_cancel, blockOperand_memWrite_same n out _ hw', hv]
    cases hm : s.cipher.cm
    · simp only [henc.vector, hm]
      simp
    · simp
  · intro a ha
    have hout' : ¬ (16 * n ≤ a ∧ a < 16 * n + 16) := by omega
    rw [read_memWrite _ _ _ _ hw', if_neg hout']
    exact henc.beyond a (by omega)

/-- What the decryption loop does. -/
theorem forBlocks_decryptBlock (n : Nat) (s : State) (hw : s.dbuf.wf = true) :
    SameButData s (forBlocks decryptBlock n s) ∧ (forBlocks decryptBlock n s).dbuf.wf = true
      ∧ Decrypted n s (forBlocks decryptBlock n s) := by
  refine forBlocks_induction
    (fun n t => SameButData s t ∧ t.dbuf.wf = true ∧ Decrypted n s t) decryptBlock s
    ⟨SameButData.refl s, hw, ⟨fun k hk => absurd hk (Nat.not_lt_zero k), by simp, fun _ _ => rfl⟩⟩ ?_ n
  rintro n t ⟨hsame, hwt, hdec⟩
  obtain ⟨out, v, heq, hout, hv⟩ := decryptBlock_spec n t
  rw [heq]
  have hw' : (setVec v t).dbuf.wf = true := hwt
  obtain ⟨-, hcm, -, hnr, hrk⟩ := hsame.key
  have hblk : blockOperand n t = blockOperand n s := blockOperand_congr n s t hdec.beyond
  rw [hcm, hrk, hnr, hblk] at hout
  rw [hcm, hblk] at hv
  refine ⟨hsame.write _ _ _, wf_memWrite _ _ _ hw', ?_, ?_, ?_⟩
  · intro k hk
    by_cases hkn : k = n
    · subst hkn
      rw [blockOperand_memWrite_same k out _ hw', hout]
      unfold decryptOutput
      cases hm : s.cipher.cm
      · rfl
      · simp only
        congr 1
        rw [hdec.vector, hm]
        by_cases h0 : k = 0
        · simp [h0]
        · rw [if_pos ⟨rfl, by omega⟩, if_neg h0]
    · rw [blockOperand_memWrite_other k n out _ hw' hkn, blockOperand_setVec, hdec.blocks k (by omega)]
  · rw [memWrite_cipher, setVec_cipher_vec, hv, Nat.add_sub_cancel]
    cases hm : s.cipher.cm
    · simp only [hdec.vector, hm]
      simp
    · simp
  · intro a ha
    have hout' : ¬ (16 * n ≤ a ∧ a < 16 * n + 16) := by omega
    rw [read_memWrite _ _ _ _ hw', if_neg hout']
    exact hdec.beyond a (by omega)

/-- The encryption loop stays inside the window. -/
theorem forBlocks_encryptBlock_within (n : Nat) (s : State) (hn : 16 * n ≤ s.cfg.bufBytes)
    (hm : s.dbuf.within s.cfg.bufBytes = true) :
    (forBlocks encryptBlock n s).cfg = s.cfg ∧ (forBlocks encryptBlock n s).dbuf.within s.cfg.bufBytes = true := by
  induction n with
  | zero => exact ⟨rfl, hm⟩
  | succ n ih =>
    obtain ⟨hc, hin⟩ := ih (by omega)
    obtain ⟨out, v, heq, -, -⟩ := encryptBlock_spec n (forBlocks encryptBlock n s)
    refine ⟨by rw [forBlocks, heq]; exact hc, ?_⟩
    rw [forBlocks, heq, ← hc]
    rw [← hc] at hin hn
    exact within_memWrite (s := setVec v _) _ _ (by simp only [setVec_cfg]; omega) hin

/-- The decryption loop stays inside the window. -/
theorem forBlocks_decryptBlock_within (n : Nat) (s : State) (hn : 16 * n ≤ s.cfg.bufBytes)
    (hm : s.dbuf.within s.cfg.bufBytes = true) :
    (forBlocks decryptBlock n s).cfg = s.cfg ∧ (forBlocks decryptBlock n s).dbuf.within s.cfg.bufBytes = true := by
  induction n with
  | zero => exact ⟨rfl, hm⟩
  | succ n ih =>
    obtain ⟨hc, hin⟩ := ih (by omega)
    obtain ⟨out, v, heq, -, -⟩ := decryptBlock_spec n (forBlocks decryptBlock n s)
    refine ⟨by rw [forBlocks, heq]; exact hc, ?_⟩
    rw [forBlocks, heq, ← hc]
    rw [← hc] at hin hn
    exact within_memWrite (s := setVec v _) _ _ (by simp only [setVec_cfg]; omega) hin

end Sys2Proof.Machine
end

