-- ==== Sys2Proof/Laws/Hash.lean ====
section
/-! SUPPORT. Absorbing bytes: splitting, and what happens to PLEN and COUNT. -/

namespace Sys2Proof.Machine

@[simp] theorem absorb_nil (st : HashState) : absorb st [] = st := rfl

@[simp] theorem absorb_cons (st : HashState) (x : Byte) (xs : List Byte) :
    absorb st (x :: xs) = absorb (absorbByte st x) xs := rfl

/-- Absorbing two byte strings one after the other is absorbing their concatenation (rule R175). -/
theorem absorb_append (st : HashState) (xs ys : List Byte) : absorb st (xs ++ ys) = absorb (absorb st xs) ys :=
  List.foldl_append

@[simp] theorem absorbByte_count (st : HashState) (x : Byte) : (absorbByte st x).count = st.count + 1 := by
  unfold absorbByte; split <;> rfl

/-- One byte moves PLEN on, back to 0 when the block is full. -/
theorem absorbByte_plen (st : HashState) (x : Byte) (h : st.plen.toNat < 64) :
    (absorbByte st x).plen.toNat = (st.plen.toNat + 1) % 64 := by
  have hadd : (st.plen + 1).toNat = st.plen.toNat + 1 := by
    rw [BitVec.toNat_add]; simp; omega
  unfold absorbByte
  split
  · rename_i heq
    have : st.plen.toNat + 1 = 64 := by rw [← hadd, heq]; rfl
    simp [this]
  · rename_i hne
    have : st.plen.toNat + 1 ≠ 64 := fun hc => hne (BitVec.eq_of_toNat_eq (by rw [hadd, hc]; rfl))
    rw [hadd]; omega

/-- COUNT grows by the number of bytes absorbed, modulo 2^64. -/
theorem absorb_count (bs : List Byte) (st : HashState) :
    (absorb st bs).count.toNat = (st.count.toNat + bs.length) % 2 ^ 64 := by
  induction bs generalizing st with
  | nil => simp [Nat.mod_eq_of_lt st.count.isLt]
  | cons b bs ih =>
    rw [absorb_cons, ih, absorbByte_count, BitVec.toNat_add, List.length_cons]
    simp; omega

/-- PLEN counts the absorbed bytes modulo 64. -/
theorem absorb_plen (bs : List Byte) (st : HashState) (h : st.plen.toNat < 64) :
    (absorb st bs).plen.toNat = (st.plen.toNat + bs.length) % 64 := by
  induction bs generalizing st with
  | nil => simp [Nat.mod_eq_of_lt h]
  | cons b bs ih =>
    have h1 := absorbByte_plen st b h
    rw [absorb_cons, ih _ (by omega), h1, List.length_cons]
    omega

end Sys2Proof.Machine
end

