-- ==== Sys2Proof/Laws/Commands.lean ====
section
/-! SUPPORT. What each command can do, said once: if it answers a next state, one of these cases holds. Every command but
`SRST` met a stopped block (rule R244), raised the faults of its rule in order, or took its effect. -/

namespace Sys2Proof.Machine

theorem fitsBuffer_le (l : Nat) (s : State) (h : ¬ fitsBuffer l s = false) : l ≤ s.cfg.bufBytes := by
  simpa [fitsBuffer] using h

theorem fitsBuffer_gt (l : Nat) (s : State) (h : fitsBuffer l s = false) : s.cfg.bufBytes < l := by
  simpa [fitsBuffer] using h

theorem execNop_cases (s t : State) (h : execNop s = .next t) : t = s := by
  obtain ⟨-, rfl⟩ | ⟨-, h⟩ := unlessStopped_cases _ _ _ h
  · rfl
  · exact (Host.Outcome.next.inj h).symm

theorem execSrst_cases (s t : State) (h : execSrst s = .next t) : t = resetBlock s :=
  (Host.Outcome.next.inj h).symm

theorem execCInit_cases (m : Mode) (kl : BitVec 2) (s t : State) (h : execCInit m kl s = .next t) :
    (s.err = true ∧ t = s) ∨ (s.err = false ∧
      ((kl = 3 ∧ t = raiseFault .keyLen s)
        ∨ (kl ≠ 3 ∧ t = setCipher (initialCipher m kl s) s))) := by
  obtain h | ⟨he, h⟩ := unlessStopped_cases _ _ _ h
  · exact .inl h
  · refine .inr ⟨he, ?_⟩
    split at h
    · exact .inl ⟨‹_›, (Host.Outcome.next.inj h).symm⟩
    · exact .inr ⟨‹_›, (Host.Outcome.next.inj h).symm⟩

theorem execCEnc_cases (s t : State) (h : execCEnc s = .next t) :
    (s.err = true ∧ t = s) ∨ (s.err = false ∧
      ((s.cv = false ∧ t = raiseFault .noCipher s)
        ∨ (s.cv = true ∧ argLength s % 16 ≠ 0 ∧ t = raiseFault .length s)
        ∨ (s.cv = true ∧ argLength s % 16 = 0 ∧ s.cfg.bufBytes < argLength s ∧ t = raiseFault .overrun s)
        ∨ (s.cv = true ∧ argLength s % 16 = 0 ∧ argLength s ≤ s.cfg.bufBytes
            ∧ t = forBlocks encryptBlock (argLength s / 16) s))) := by
  obtain h | ⟨he, h⟩ := unlessStopped_cases _ _ _ h
  · exact .inl h
  · refine .inr ⟨he, ?_⟩
    split at h
    · exact .inl ⟨‹_›, (Host.Outcome.next.inj h).symm⟩
    · have hcv := (Bool.not_eq_false _).mp ‹¬ s.cv = false›
      split at h
      · exact .inr (.inl ⟨hcv, ‹_›, (Host.Outcome.next.inj h).symm⟩)
      · have hmod := Decidable.not_not.mp ‹¬ argLength s % 16 ≠ 0›
        split at h
        · exact .inr (.inr (.inl ⟨hcv, hmod, fitsBuffer_gt _ _ ‹_›, (Host.Outcome.next.inj h).symm⟩))
        · exact .inr (.inr (.inr ⟨hcv, hmod, fitsBuffer_le _ _ ‹_›, (Host.Outcome.next.inj h).symm⟩))

theorem execCDec_cases (s t : State) (h : execCDec s = .next t) :
    (s.err = true ∧ t = s) ∨ (s.err = false ∧
      ((s.cv = false ∧ t = raiseFault .noCipher s)
        ∨ (s.cv = true ∧ argLength s % 16 ≠ 0 ∧ t = raiseFault .length s)
        ∨ (s.cv = true ∧ argLength s % 16 = 0 ∧ s.cfg.bufBytes < argLength s ∧ t = raiseFault .overrun s)
        ∨ (s.cv = true ∧ argLength s % 16 = 0 ∧ argLength s ≤ s.cfg.bufBytes
            ∧ t = forBlocks decryptBlock (argLength s / 16) s))) := by
  obtain h | ⟨he, h⟩ := unlessStopped_cases _ _ _ h
  · exact .inl h
  · refine .inr ⟨he, ?_⟩
    split at h
    · exact .inl ⟨‹_›, (Host.Outcome.next.inj h).symm⟩
    · have hcv := (Bool.not_eq_false _).mp ‹¬ s.cv = false›
      split at h
      · exact .inr (.inl ⟨hcv, ‹_›, (Host.Outcome.next.inj h).symm⟩)
      · have hmod := Decidable.not_not.mp ‹¬ argLength s % 16 ≠ 0›
        split at h
        · exact .inr (.inr (.inl ⟨hcv, hmod, fitsBuffer_gt _ _ ‹_›, (Host.Outcome.next.inj h).symm⟩))
        · exact .inr (.inr (.inr ⟨hcv, hmod, fitsBuffer_le _ _ ‹_›, (Host.Outcome.next.inj h).symm⟩))

theorem execCEncp_cases (s t : State) (h : execCEncp s = .next t) :
    (s.err = true ∧ t = s) ∨ (s.err = false ∧
      ((s.cv = false ∧ t = raiseFault .noCipher s)
        ∨ (s.cv = true ∧ s.cfg.bufBytes < argLength s + padLength (argLength s) ∧ t = raiseFault .overrun s)
        ∨ (s.cv = true ∧ argLength s + padLength (argLength s) ≤ s.cfg.bufBytes
            ∧ t = forBlocks encryptBlock ((argLength s + padLength (argLength s)) / 16)
                (memWrite (argLength s) (padBytes (argLength s)) s)))) := by
  obtain h | ⟨he, h⟩ := unlessStopped_cases _ _ _ h
  · exact .inl h
  · refine .inr ⟨he, ?_⟩
    simp only at h
    split at h
    · exact .inl ⟨‹_›, (Host.Outcome.next.inj h).symm⟩
    · have hcv := (Bool.not_eq_false _).mp ‹¬ s.cv = false›
      split at h
      · exact .inr (.inl ⟨hcv, fitsBuffer_gt _ _ ‹_›, (Host.Outcome.next.inj h).symm⟩)
      · exact .inr (.inr ⟨hcv, fitsBuffer_le _ _ ‹_›, (Host.Outcome.next.inj h).symm⟩)

theorem execHInit_cases (s t : State) (h : execHInit s = .next t) :
    (s.err = true ∧ t = s) ∨ (s.err = false ∧
      t = setHv true (setHash { s.hash with h := shaH0, plen := 0, count := 0 } s)) := by
  obtain h | ⟨he, h⟩ := unlessStopped_cases _ _ _ h
  · exact .inl h
  · exact .inr ⟨he, (Host.Outcome.next.inj h).symm⟩

theorem execHAppend_cases (s t : State) (h : execHAppend s = .next t) :
    (s.err = true ∧ t = s) ∨ (s.err = false ∧
      ((s.hv = false ∧ t = raiseFault .noHash s)
        ∨ (s.hv = true ∧ s.cfg.bufBytes < argLength s ∧ t = raiseFault .overrun s)
        ∨ (s.hv = true ∧ argLength s ≤ s.cfg.bufBytes ∧ 2 ^ 61 ≤ s.hash.count.toNat + argLength s
            ∧ t = raiseFault .hashLen s)
        ∨ (s.hv = true ∧ argLength s ≤ s.cfg.bufBytes ∧ s.hash.count.toNat + argLength s < 2 ^ 61
            ∧ t = setHash (absorb s.hash (messageOperand s)) s))) := by
  obtain h | ⟨he, h⟩ := unlessStopped_cases _ _ _ h
  · exact .inl h
  · refine .inr ⟨he, ?_⟩
    split at h
    · exact .inl ⟨‹_›, (Host.Outcome.next.inj h).symm⟩
    · have hhv := (Bool.not_eq_false _).mp ‹¬ s.hv = false›
      split at h
      · exact .inr (.inl ⟨hhv, fitsBuffer_gt _ _ ‹_›, (Host.Outcome.next.inj h).symm⟩)
      · have hfit := fitsBuffer_le _ _ ‹¬ fitsBuffer (argLength s) s = false›
        split at h
        · exact .inr (.inr (.inl ⟨hhv, hfit, ‹_›, (Host.Outcome.next.inj h).symm⟩))
        · exact .inr (.inr (.inr ⟨hhv, hfit, Nat.lt_of_not_le ‹_›, (Host.Outcome.next.inj h).symm⟩))

theorem execHFinal_cases (s t : State) (h : execHFinal s = .next t) :
    (s.err = true ∧ t = s) ∨ (s.err = false ∧
      ((s.hv = false ∧ t = raiseFault .noHash s)
        ∨ (s.hv = true ∧ t = setHv false
            (setHash { h := Vector.ofFn fun _ => 0, pend := (finishHash s.hash).pend, plen := 0, count := 0 }
              (setDigest (digestBytes (finishHash s.hash).h) s))))) := by
  obtain h | ⟨he, h⟩ := unlessStopped_cases _ _ _ h
  · exact .inl h
  · refine .inr ⟨he, ?_⟩
    split at h
    · exact .inl ⟨‹_›, (Host.Outcome.next.inj h).symm⟩
    · exact .inr ⟨by simpa using ‹¬ s.hv = false›, (Host.Outcome.next.inj h).symm⟩

theorem execRBegin_cases (s t : State) (h : execRBegin s = .next t) :
    (s.err = true ∧ t = s) ∨ (s.err = false ∧
      t = setPv false (setRdone false (setRatchet
        { rst := .begin, src := tokenOperand s, sync := zeroBytes 32, pat := 0, target := s.arg, cur := 0,
          work := tokenOperand s } s))) := by
  obtain h | ⟨he, h⟩ := unlessStopped_cases _ _ _ h
  · exact .inl h
  · exact .inr ⟨he, (Host.Outcome.next.inj h).symm⟩

theorem execRBind_cases (s t : State) (h : execRBind s = .next t) :
    (s.err = true ∧ t = s) ∨ (s.err = false ∧
      ((s.ratchet.rst = .none ∧ t = raiseFault .noRatchet s)
        ∨ (s.ratchet.rst ≠ .none ∧ t = setPv true (setRatchet
            { s.ratchet with
              sync := tokenOperand s, pat := patternOf s.cfg.patOrder (foldToken (tokenOperand s)) } s)))) := by
  obtain h | ⟨he, h⟩ := unlessStopped_cases _ _ _ h
  · exact .inl h
  · refine .inr ⟨he, ?_⟩
    split at h
    · exact .inl ⟨‹_›, (Host.Outcome.next.inj h).symm⟩
    · exact .inr ⟨‹_›, (Host.Outcome.next.inj h).symm⟩

theorem execRSetpat_cases (s t : State) (h : execRSetpat s = .next t) :
    (s.err = true ∧ t = s) ∨ (s.err = false ∧
      ((s.ratchet.rst = .none ∧ t = raiseFault .noRatchet s)
        ∨ (s.ratchet.rst ≠ .none ∧ t = setPv true (setRatchet { s.ratchet with pat := s.arg } s)))) := by
  obtain h | ⟨he, h⟩ := unlessStopped_cases _ _ _ h
  · exact .inl h
  · refine .inr ⟨he, ?_⟩
    split at h
    · exact .inl ⟨‹_›, (Host.Outcome.next.inj h).symm⟩
    · exact .inr ⟨‹_›, (Host.Outcome.next.inj h).symm⟩

/-- A round that reaches the target completes the ratchet, any other leaves it running. -/
theorem roundDone_cases (s : State) :
    (s.ratchet.cur + 1 = s.ratchet.target ∧
      roundDone s = setRdone true (setRatchet
        { s.ratchet with
          rst := .complete, cur := s.ratchet.cur + 1, work := ratchetRound s.ratchet.work s.ratchet.pat } s))
    ∨ (s.ratchet.cur + 1 ≠ s.ratchet.target ∧
      roundDone s = setRdone false (setRatchet
        { s.ratchet with
          rst := .running, cur := s.ratchet.cur + 1, work := ratchetRound s.ratchet.work s.ratchet.pat } s)) := by
  unfold roundDone
  by_cases h : s.ratchet.cur + 1 = s.ratchet.target
  · exact .inl ⟨h, by simp only [if_pos h]⟩
  · exact .inr ⟨h, by simp only [if_neg h]⟩

theorem execRStep_cases (s t : State) (h : execRStep s = .next t) :
    (s.err = true ∧ t = s) ∨ (s.err = false ∧
      ((s.ratchet.rst = .none ∧ t = raiseFault .noRatchet s)
        ∨ (s.ratchet.rst ≠ .none ∧ s.ratchet.cur = s.ratchet.target
            ∧ t = setRdone true (setRatchet { s.ratchet with rst := .complete } s))
        ∨ (s.ratchet.rst ≠ .none ∧ s.ratchet.cur ≠ s.ratchet.target ∧ s.pv = false
            ∧ t = raiseFault .noPattern s)
        ∨ (s.ratchet.rst ≠ .none ∧ s.ratchet.cur ≠ s.ratchet.target ∧ s.pv = true ∧ t = roundDone s))) := by
  obtain h | ⟨he, h⟩ := unlessStopped_cases _ _ _ h
  · exact .inl h
  · refine .inr ⟨he, ?_⟩
    split at h
    · exact .inl ⟨‹_›, (Host.Outcome.next.inj h).symm⟩
    · split at h
      · exact .inr (.inl ⟨‹_›, ‹_›, (Host.Outcome.next.inj h).symm⟩)
      · split at h
        · exact .inr (.inr (.inl ⟨‹_›, ‹_›, ‹_›, (Host.Outcome.next.inj h).symm⟩))
        · exact .inr (.inr (.inr ⟨‹_›, ‹_›, by simpa using ‹¬ s.pv = false›, (Host.Outcome.next.inj h).symm⟩))

end Sys2Proof.Machine
end

