-- ==== Sys2Proof/Laws/Bus.lean ====
section
/-! SUPPORT. What a host move and a step can do, said once. -/

namespace Sys2Proof.Machine

/-- A CMD write performs a command, is ignored by a stopped block, or raises `E_ILLEGAL`. -/
theorem performCommand_cases (w : Word) (s t : State) (h : performCommand w s = .next t) :
    (∃ i, decode w = .ok i ∧ exec i s = .next t)
    ∨ (∃ e, decode w = .error e ∧
        ((s.err = true ∧ t = s) ∨ (s.err = false ∧ t = raiseFault .illegal s))) := by
  unfold performCommand at h
  cases hd : decode w with
  | ok i => exact .inl ⟨i, rfl, by simpa [hd] using h⟩
  | error e =>
    refine .inr ⟨e, rfl, ?_⟩
    rw [hd] at h
    obtain h | ⟨he, h⟩ := unlessStopped_cases _ _ _ h
    · exact .inl h
    · exact .inr ⟨he, (Host.Outcome.next.inj h).symm⟩

/-- Everything a host move can do. -/
theorem hostMove_cases (m : HostMove) (s t : State) (h : hostMove m s = .next t) :
    (∃ r, t = pushReply r s)
    ∨ (∃ w, m = .write32 0x000 w ∧ performCommand w s = .next t)
    ∨ (∃ v, m = .write32 0x004 v ∧ t = setArg v s)
    ∨ (∃ a b, m = .write8 (0x100 + a) b ∧ a < s.cfg.bufBytes ∧ t = setDbuf (s.dbuf.write a b) s)
    ∨ t = s
    ∨ (m = .hardReset ∧ t = resetBlock s) := by
  cases m with
  | read8 off =>
    simp only [hostMove] at h
    split at h
    · exact .inl ⟨_, (Host.Outcome.next.inj h).symm⟩
    · cases h
  | read32 off =>
    simp only [hostMove] at h
    split at h
    · exact .inl ⟨_, (Host.Outcome.next.inj h).symm⟩
    · cases h
  | read16 off => cases h
  | write16 off v => cases h
  | hardReset => exact .inr (.inr (.inr (.inr (.inr ⟨rfl, (Host.Outcome.next.inj h).symm⟩))))
  | write32 off v =>
    simp only [hostMove, busWrite32] at h
    split at h
    · rename_i h0; subst h0; exact .inr (.inl ⟨v, rfl, h⟩)
    · split at h
      · rename_i h4; subst h4; exact .inr (.inr (.inl ⟨v, rfl, (Host.Outcome.next.inj h).symm⟩))
      · split at h
        · exact .inr (.inr (.inr (.inr (.inl (Host.Outcome.next.inj h).symm))))
        · cases h
  | write8 off b =>
    simp only [hostMove, busWrite8] at h
    split at h
    · rename_i t' heq
      split at heq
      · rename_i hin
        refine .inr (.inr (.inr (.inl ⟨off - 0x100, b, ?_, by omega, ?_⟩)))
        · rw [Nat.add_sub_cancel' hin.1]
        · rw [← Host.Outcome.next.inj h, ← Option.some.inj heq]
      · split at heq
        · exact .inr (.inr (.inr (.inr (.inl ((Host.Outcome.next.inj h).symm.trans (Option.some.inj heq).symm)))))
        · cases heq
    · cases h

/-- A step makes the host's next move, or none where the host has none left. -/
theorem step_cases (s t : State) (h : step s = .next t) :
    (s.host = [] ∧ t = s) ∨ (∃ m rest, s.host = m :: rest ∧ hostMove m (setHost rest s) = .next t) := by
  unfold step takeMove at h
  split at h
  · exact .inl ⟨‹_›, (Host.Outcome.next.inj h).symm⟩
  · exact .inr ⟨_, _, ‹_›, h⟩

end Sys2Proof.Machine
end

