-- ==== Sys2Proof/Laws/Exec.lean ====
section
/-! SUPPORT. Two facts about every command: it always answers a next state, and it keeps the buffer's canonical form. -/

namespace Sys2Proof.Machine

theorem unlessStopped_next (s : State) (r : Result) (h : ∃ t, r = .next t) : ∃ t, unlessStopped s r = .next t := by
  unfold unlessStopped
  split
  · exact ⟨s, rfl⟩
  · exact h

/-- Every command answers a next state in every state: a fault of the block is a next state too (rule R243). -/
theorem exec_next (i : Instr) (s : State) : ∃ t, exec i s = .next t := by
  cases i with
  | srst => exact ⟨_, rfl⟩
  | nop => exact unlessStopped_next _ _ ⟨_, rfl⟩
  | cInit m kl => refine unlessStopped_next _ _ ?_; split <;> exact ⟨_, rfl⟩
  | cEnc => refine unlessStopped_next _ _ ?_; repeat' split
            all_goals exact ⟨_, rfl⟩
  | cEncp => refine unlessStopped_next _ _ ?_; repeat' split
             all_goals exact ⟨_, rfl⟩
  | cDec => refine unlessStopped_next _ _ ?_; repeat' split
            all_goals exact ⟨_, rfl⟩
  | hInit => exact unlessStopped_next _ _ ⟨_, rfl⟩
  | hAppend => refine unlessStopped_next _ _ ?_; repeat' split
               all_goals exact ⟨_, rfl⟩
  | hFinal => refine unlessStopped_next _ _ ?_; split <;> exact ⟨_, rfl⟩
  | rBegin => exact unlessStopped_next _ _ ⟨_, rfl⟩
  | rBind => refine unlessStopped_next _ _ ?_; split <;> exact ⟨_, rfl⟩
  | rSetpat => refine unlessStopped_next _ _ ?_; split <;> exact ⟨_, rfl⟩
  | rStep => refine unlessStopped_next _ _ ?_; repeat' split
             all_goals exact ⟨_, rfl⟩

/-- Every command keeps the buffer in canonical form. -/
theorem exec_wf (i : Instr) (s t : State) (h : exec i s = .next t) (hw : s.dbuf.wf = true) : t.dbuf.wf = true := by
  cases i with
  | nop => rw [execNop_cases s t h]; exact hw
  | srst => rw [execSrst_cases s t h]; rfl
  | cInit m kl =>
    obtain ⟨-, rfl⟩ | ⟨-, ⟨-, rfl⟩ | ⟨-, rfl⟩⟩ := execCInit_cases m kl s t h <;> exact hw
  | cEnc =>
    obtain ⟨-, rfl⟩ | ⟨-, ⟨-, rfl⟩ | ⟨-, -, rfl⟩ | ⟨-, -, -, rfl⟩ | ⟨-, -, -, rfl⟩⟩ := execCEnc_cases s t h
    case inr.inr.inr.inr => exact (forBlocks_encryptBlock _ s hw).2.1
    all_goals exact hw
  | cEncp =>
    obtain ⟨-, rfl⟩ | ⟨-, ⟨-, rfl⟩ | ⟨-, -, rfl⟩ | ⟨-, -, rfl⟩⟩ := execCEncp_cases s t h
    case inr.inr.inr => exact (forBlocks_encryptBlock _ _ (wf_memWrite _ _ s hw)).2.1
    all_goals exact hw
  | cDec =>
    obtain ⟨-, rfl⟩ | ⟨-, ⟨-, rfl⟩ | ⟨-, -, rfl⟩ | ⟨-, -, -, rfl⟩ | ⟨-, -, -, rfl⟩⟩ := execCDec_cases s t h
    case inr.inr.inr.inr => exact (forBlocks_decryptBlock _ s hw).2.1
    all_goals exact hw
  | hInit => obtain ⟨-, rfl⟩ | ⟨-, rfl⟩ := execHInit_cases s t h <;> exact hw
  | hAppend =>
    obtain ⟨-, rfl⟩ | ⟨-, ⟨-, rfl⟩ | ⟨-, -, rfl⟩ | ⟨-, -, -, rfl⟩ | ⟨-, -, -, rfl⟩⟩ := execHAppend_cases s t h <;>
      exact hw
  | hFinal => obtain ⟨-, rfl⟩ | ⟨-, ⟨-, rfl⟩ | ⟨-, rfl⟩⟩ := execHFinal_cases s t h <;> exact hw
  | rBegin => obtain ⟨-, rfl⟩ | ⟨-, rfl⟩ := execRBegin_cases s t h <;> exact hw
  | rBind => obtain ⟨-, rfl⟩ | ⟨-, ⟨-, rfl⟩ | ⟨-, rfl⟩⟩ := execRBind_cases s t h <;> exact hw
  | rSetpat => obtain ⟨-, rfl⟩ | ⟨-, ⟨-, rfl⟩ | ⟨-, rfl⟩⟩ := execRSetpat_cases s t h <;> exact hw
  | rStep =>
    obtain ⟨-, rfl⟩ | ⟨-, ⟨-, rfl⟩ | ⟨-, -, rfl⟩ | ⟨-, -, -, rfl⟩ | ⟨-, -, -, rfl⟩⟩ := execRStep_cases s t h
    case inr.inr.inr.inr => obtain ⟨-, h2⟩ | ⟨-, h2⟩ := roundDone_cases s <;> rw [h2] <;> exact hw
    all_goals exact hw

end Sys2Proof.Machine
end

