-- ==== Sys2Proof/Laws/PerInstr.lean ====
section
/-! SUPPORT. A law of every command as syntax: its word lies in its own row of the table of rule R93. -/

namespace Sys2Proof.Laws

/-- The word of a command matches the command's row of rule R93: `(w and mask) = match`. -/
def TableRow.Statement (i : Instr) : Prop :=
  encode i &&& (Machine.tableRow i).2 = (Machine.tableRow i).1

theorem TableRow.nop : TableRow.Statement .nop := by unfold TableRow.Statement; decide
theorem TableRow.srst : TableRow.Statement .srst := by unfold TableRow.Statement; decide
theorem TableRow.cInit (mode : Mode) (kl : BitVec 2) : TableRow.Statement (.cInit mode kl) := by
  cases mode <;> revert kl <;> unfold TableRow.Statement <;> decide
theorem TableRow.cEnc : TableRow.Statement .cEnc := by unfold TableRow.Statement; decide
theorem TableRow.cEncp : TableRow.Statement .cEncp := by unfold TableRow.Statement; decide
theorem TableRow.cDec : TableRow.Statement .cDec := by unfold TableRow.Statement; decide
theorem TableRow.hInit : TableRow.Statement .hInit := by unfold TableRow.Statement; decide
theorem TableRow.hAppend : TableRow.Statement .hAppend := by unfold TableRow.Statement; decide
theorem TableRow.hFinal : TableRow.Statement .hFinal := by unfold TableRow.Statement; decide
theorem TableRow.rBegin : TableRow.Statement .rBegin := by unfold TableRow.Statement; decide
theorem TableRow.rBind : TableRow.Statement .rBind := by unfold TableRow.Statement; decide
theorem TableRow.rSetpat : TableRow.Statement .rSetpat := by unfold TableRow.Statement; decide
theorem TableRow.rStep : TableRow.Statement .rStep := by unfold TableRow.Statement; decide

end Sys2Proof.Laws
end

