-- ==== Sys2Proof/Tests/Slice0.lean ====
section
/-! SUPPORT. Tests. Expected values are the words of spec/30_encoding.md and the vectors of spec/95_test_vectors.md, named
in each comment. After them, for every statement with hypotheses, a witness that meets them all. -/

open Sys2Proof Sys2Proof.Machine

namespace Sys2Proof.Tests

/-! ### Helpers -/

/-- The next state of a command, or the state itself where there is none. -/
def after (i : Instr) (s : State) : State :=
  match exec i s with
  | .next t => t
  | _ => s

/-- The next state of a step, or the state itself where there is none. -/
def stepped (s : State) : State :=
  match step s with
  | .next t => t
  | _ => s

/-- The reset state with bytes loaded into DBUF from index 0 on and ARG set. -/
def loaded (bytes : List Byte) (arg : Word) : State :=
  { State.reset with arg := arg, dbuf := Memory.writeBytes [] 0 bytes }

/-- Bytes 0, 1, 2, … -/
def countUp (n : Nat) : Bytes n := Vector.ofFn fun i => BitVec.ofNat 8 i.val

/-- A state with a live cipher of the mode `m`, AES-128 and the expansion of the key 00 01 … 0f. -/
def keyed (m : Mode) (s : State) : State :=
  { s with cv := true, cipher := { cm := m, ckl := 0, nr := 10, rk := expandedKey 0 (countUp 16), vec := countUp 16 } }

/-- A state with a live AES-128 cipher of the mode `m`; its expanded key is all zero. -/
def live (m : Mode) (s : State) : State :=
  { s with cv := true, cipher := { cm := m, ckl := 0, nr := 10, rk := Vector.replicate 240 0, vec := countUp 16 } }

/-- A state whose ratchet is in the status `r` with the seed 00 01 … 1f. -/
def ratcheting (r : RatchetStatus) (target cur : Word) (s : State) : State :=
  { s with ratchet := { RatchetState.reset with rst := r, target := target, cur := cur, work := countUp 32 } }

/-- A state with a live, empty hash. -/
def hashing (s : State) : State := { s with hv := true, hash := freshHash }

/-- The state whose host's next move is `m`. -/
def moving (m : HostMove) (s : State) : State := { s with host := [m] }

/-! ### Decoding: words of rule R93, vectors V-S2 to V-S5 -/

theorem test_decode_nop : decode 0b00000000000000000000000000000000 = .ok .nop := by decide
theorem test_decode_srst : decode 0b00000000000000000000000000000001 = .ok .srst := by decide
theorem test_decode_cInit_cbc192 : decode 0b00000000000000000000001100010000 = .ok (.cInit .cbc 1) := by decide
theorem test_decode_cInit_ecb256 : decode 0b00000000000000000000010000010000 = .ok (.cInit .ecb 2) := by decide
theorem test_decode_cInit_reserved : decode 0b00000000000000000000011100010000 = .ok (.cInit .cbc 3) := by decide
theorem test_decode_cEnc : decode 0b00000000000000000000000000010001 = .ok .cEnc := by decide
theorem test_decode_cEncp : decode 0b00000000000000000000000000010010 = .ok .cEncp := by decide
theorem test_decode_cDec : decode 0b00000000000000000000000000010011 = .ok .cDec := by decide
theorem test_decode_hInit : decode 0b00000000000000000000000000100000 = .ok .hInit := by decide
theorem test_decode_hAppend : decode 0b00000000000000000000000000100001 = .ok .hAppend := by decide
theorem test_decode_hFinal : decode 0b00000000000000000000000000100010 = .ok .hFinal := by decide
theorem test_decode_rBegin : decode 0b00000000000000000000000000110000 = .ok .rBegin := by decide
theorem test_decode_rBind : decode 0b00000000000000000000000000110001 = .ok .rBind := by decide
theorem test_decode_rSetpat : decode 0b00000000000000000000000000110010 = .ok .rSetpat := by decide
theorem test_decode_rStep : decode 0b00000000000000000000000000110011 = .ok .rStep := by decide
theorem test_decode_unknown : decode 0x00000099 = .error .unknownOpcode := by decide
theorem test_decode_mode_outside : decode 0x00000111 = .error .fieldOutsideInit := by decide
theorem test_decode_keylen_outside : decode 0x00000433 = .error .fieldOutsideInit := by decide
theorem test_decode_reserved_bit : decode 0x80000010 = .error .reservedBits := by decide
theorem test_decodeTableWord : decodeTableWord 32 0x00000510 = some (.cInit .cbc 2) := by decide

/-! ### Well-formedness: an ill-formed term for each check -/

theorem test_wf_keylen_reserved : (Instr.cInit .ecb 3).wf = false := by decide
theorem test_wf_keylen_legal : (Instr.cInit .cbc 2).wf = true := by decide
theorem test_wf_params_multiple : Config.wf { bufBytes := 250, patOrder := .le } = false := by decide
theorem test_wf_params_small : Config.wf { bufBytes := 32, patOrder := .le } = false := by decide
theorem test_wf_params_large : Config.wf { bufBytes := 65552, patOrder := .le } = false := by decide
theorem test_wf_params_bounds : Config.wf { bufBytes := 48, patOrder := .be } = true
    ∧ Config.wf { bufBytes := 65536, patOrder := .le } = true := by decide
theorem test_wf_memory_order : Memory.wf [(4, 1), (2, 1)] = false := by decide
theorem test_wf_memory_repeat : Memory.wf [(4, 1), (4, 2)] = false := by decide
theorem test_wf_memory_blank : Memory.wf [(4, 0)] = false := by decide
theorem test_within_memory : Memory.within 48 [(48, 1)] = false := by decide

/-! ### Functions -/

/-- V-G3, V-G4, V-G4b. -/
theorem test_gmul : gmul 0x57 0x13 = 0xfe ∧ gmul 0x57 0x0e = 0x67 ∧ gmul 0xff 0x0b = 0xa3 ∧ gmul 0x57 0x33 = 0xfe := by
  decide +kernel

/-- V-G5. -/
theorem test_mixColumns : (mixColumns #v[0xdb, 0x13, 0x53, 0x45, 0xf2, 0x0a, 0x22, 0x5c, 1, 1, 1, 1, 0xc6, 0xc6, 0xc6,
    0xc6]).toList = [0x8e, 0x4d, 0xa1, 0xbc, 0x9f, 0xdc, 0x58, 0x9d, 1, 1, 1, 1, 0xc6, 0xc6, 0xc6, 0xc6] := by
  decide +kernel

/-- V-G6. -/
theorem test_shiftRows : (shiftRows (countUp 16)).toList = [0x00, 0x05, 0x0a, 0x0f, 0x04, 0x09, 0x0e, 0x03, 0x08, 0x0d,
    0x02, 0x07, 0x0c, 0x01, 0x06, 0x0b] := by decide +kernel

/-- V-G6, the inverse. -/
theorem test_invShiftRows : (invShiftRows (countUp 16)).toList = [0x00, 0x0d, 0x0a, 0x07, 0x04, 0x01, 0x0e, 0x0b, 0x08,
    0x05, 0x02, 0x0f, 0x0c, 0x09, 0x06, 0x03] := by decide +kernel

/-- V-R2, p = 0xFFFFFFFF and p = 0x80000001. -/
theorem test_shuffle : (shuffle (countUp 32) 0x00000003).toList.take 4 = [1, 2, 0, 3]
    ∧ byteAt (shuffle (countUp 32) 0x80000001) 0 = 0x1f ∧ byteAt (shuffle (countUp 32) 0x80000001) 31 = 0x01
    ∧ byteAt (shuffle (countUp 32) 0xFFFFFFFF) 31 = 0x01 := by decide +kernel

/-! ### Commands -/

/-- V-S7: ARG and the flags after `SRST` of a stopped block. -/
theorem test_srst : (after .srst { State.reset with arg := 5, err := true, ecode := 1 }).arg = 0
    ∧ statusWord (after .srst { State.reset with arg := 5, err := true, ecode := 1 }) = 0 := by decide +kernel

/-- `NOP` in a stopped and in a running block (V-S1). -/
theorem test_nop : after .nop State.reset = State.reset := by decide +kernel

/-- The example of rule R136: STATUS after `C_INIT.ECB.128`. -/
theorem test_cInit_status : ∃ t, exec (.cInit .ecb 0) (loaded (countUp 16).toList 0) = .next t
    ∧ statusWord t = 0x00000002 := ⟨_, rfl, rfl⟩

/-- V-F2. -/
theorem test_cInit_keylen : statusWord (after (.cInit .ecb 3) State.reset) = 0x00000401 := by decide +kernel

/-- V-F6: `E_LENGTH` before `E_OVERRUN`. -/
theorem test_cEnc_length_first : statusWord (after .cEnc (live .ecb (loaded [] 273))) = 0x00000803 := by decide +kernel

/-- V-F11: no wrap-around. -/
theorem test_cEncp_overrun : statusWord (after .cEncp (live .ecb (loaded [] 0xFFFFFFFF))) = 0x00000a03 := by
  decide +kernel

/-- V-H15. -/
theorem test_hInit : statusWord (after .hInit State.reset) = 0x00000004 := by decide +kernel

/-- The example of rule R177. -/
theorem test_hAppend : (after .hAppend (hashing (loaded [0x61, 0x62, 0x63] 3))).hash.plen = 3
    ∧ (after .hAppend (hashing (loaded [0x61, 0x62, 0x63] 3))).hash.count = 3
    ∧ byteAt (after .hAppend (hashing (loaded [0x61, 0x62, 0x63] 3))).hash.pend 2 = 0x63 := by decide +kernel

/-- V-H18. -/
theorem test_hAppend_overrun : statusWord (after .hAppend (hashing (loaded [] 257))) = 0x00000a05 := by decide +kernel

/-- V-H16: `H_FINAL` without a live hash. -/
theorem test_hFinal_noHash : statusWord (after .hFinal State.reset) = 0x00000c01 := by decide +kernel

/-- The example of rule R203. -/
theorem test_rBegin : statusWord (after .rBegin (loaded (countUp 32).toList 3)) = 0x00000010
    ∧ (after .rBegin (loaded (countUp 32).toList 3)).ratchet.target = 3
    ∧ (after .rBegin (loaded (countUp 32).toList 3)).ratchet.work = countUp 32 := by decide +kernel

/-- V-R1: the fold of SYNC7, PAT_ORDER = LE and BE. -/
theorem test_rBind : (after .rBind (ratcheting .begin 1 0
        (loaded ((List.range 32).map fun i => BitVec.ofNat 8 (7 * i + 3)) 0))).ratchet.pat = 0x2060A0E0
    ∧ (after .rBind (ratcheting .begin 1 0
        { loaded ((List.range 32).map fun i => BitVec.ofNat 8 (7 * i + 3)) 0 with
          cfg := { bufBytes := 256, patOrder := .be } })).ratchet.pat = 0xE0A06020 := by decide +kernel

/-- The example of rule R204. -/
theorem test_rSetpat : (after .rSetpat (ratcheting .begin 1 0 (loaded [] 0xDEADBEEF))).ratchet.pat = 0xDEADBEEF
    ∧ statusWord (after .rSetpat (ratcheting .begin 1 0 (loaded [] 0xDEADBEEF))) = 0x00002010 := by decide +kernel

/-- V-R14: a round is due and no pattern is set. -/
theorem test_rStep_noPattern : statusWord (after .rStep (ratcheting .begin 1 0 State.reset)) = 0x00001011 := by
  decide +kernel

/-! ### The bus: vectors V-B2 to V-B8 -/

theorem test_bus_cap : (stepped (moving (.read32 0x014) State.reset)).replies = [.word 0x00000100] := by decide +kernel
theorem test_bus_misaligned : step (moving (.read32 0x002) State.reset) = .fault (.busError (.read32 0x002)) := rfl
theorem test_bus_past_end : step (moving (.write8 0x200 1) State.reset) = .fault (.busError (.write8 0x200 1)) := rfl
theorem test_bus_last_byte : (stepped (moving (.write8 0x1FF 7) State.reset)).dbuf = [(255, 7)] := by decide +kernel
theorem test_bus_arg : (stepped (moving (.write32 0x004 0x12345678) State.reset)).arg = 0x12345678 := by decide +kernel
theorem test_bus_illegal : statusWord (stepped (moving (.write32 0x000 0x00000111) State.reset)) = 0x00000201 := by
  decide +kernel

/-! ### Witnesses: states and operands that meet the hypotheses of each statement -/

theorem exec_after (i : Instr) (s : State) : exec i s = .next (after i s) := by
  obtain ⟨t, h⟩ := exec_next i s
  simp [after, h]

/-- The reset state with a host about to write `w` to CMD. -/
def writing (w : Word) : State := moving (.write32 0x000 w) State.reset

/-- A stopped block (vector V-S2). -/
def stopped : State := { State.reset with err := true, ecode := 1 }

/-- A buffer with the bytes 00 01 … 2f. -/
def someKeys : Memory := Memory.writeBytes [] 0 (countUp 48).toList

/-- A buffer with 32 bytes 61. -/
def somePlain : Memory := Memory.writeBytes [] 0 (List.replicate 32 0x61)

theorem reset_inv : Inv State.reset :=
  ⟨⟨by decide, by decide, (by intro _ h; cases h), by decide, fun _ => ⟨by decide, rfl, rfl⟩, by decide, by decide, by decide,
    by decide, by decide, by decide⟩, ⟨by decide, rfl, rfl⟩⟩

theorem witness_EncodeDecodeExact : decode 0x00000310 = .ok (.cInit .cbc 1) := by decide

theorem witness_DecodeFollowsTableRows : decode 0x00000710 = .ok (.cInit .cbc 3)
    ∧ (0x00000710 : Word) &&& (tableRow (.cInit .ecb 0)).2 = (tableRow (.cInit .ecb 0)).1
    ∧ (0x00000710 : Word) &&& (tableRow (.cInit .cbc 2)).2 = (tableRow (.cInit .cbc 2)).1 := by decide

theorem witness_IllegalWordsFault_noRow : (writing 0x00000099).host = .write32 0x000 0x00000099 :: []
    ∧ (writing 0x00000099).err = false ∧ ∀ j, (0x00000099 : Word) &&& (tableRow j).2 ≠ (tableRow j).1 :=
  ⟨rfl, rfl, fun j => by cases j <;> simp only [tableRow] <;> decide⟩

theorem witness_IllegalWordsFault_keyLen : (writing 0x00000710).host = .write32 0x000 0x00000710 :: []
    ∧ (writing 0x00000710).err = false ∧ (0x00000710 : Word).extractLsb' 11 21 = 0
    ∧ (0x00000710 : Word).extractLsb' 0 8 = 0x10 ∧ (0x00000710 : Word).extractLsb' 9 2 = 3 :=
  ⟨rfl, rfl, by decide, by decide, by decide⟩

theorem witness_StepRunsDecodedCommand : (writing 0x00000310).host = .write32 0x000 0x00000310 :: []
    ∧ decode 0x00000310 = .ok (.cInit .cbc 1) := ⟨rfl, by decide⟩

/-- One host for each branch: `SRST`, any word in a stopped block, an illegal word, a command. -/
theorem witness_CmdWriteFollowsPseudocode : (writing 0x00000001).host = .write32 0x000 0x00000001 :: []
    ∧ (moving (.write32 0x000 0x00000020) stopped).host = .write32 0x000 0x00000020 :: []
    ∧ (moving (.write32 0x000 0x00000020) stopped).err = true
    ∧ (writing 0x00000800).host = .write32 0x000 0x00000800 :: [] ∧ (0x00000800 : Word).extractLsb' 11 21 ≠ 0
    ∧ (writing 0x00000033).host = .write32 0x000 0x00000033 :: [] ∧ (writing 0x00000033).err = false :=
  ⟨rfl, rfl, rfl, rfl, by decide, rfl, rfl⟩

theorem witness_StepsPerformRun : State.reset.host = [] := rfl

theorem witness_NothingMovesWithoutHost : (hashing State.reset).host = [] := rfl

theorem witness_RegisterReads : (moving (.read32 0x014) State.reset).host = .read32 0x014 :: []
    ∧ (0x014, BitVec.ofNat 32 State.reset.cfg.bufBytes) ∈ [(0x000, 0x00000000#32), (0x004, State.reset.arg),
        (0x008, statusWord State.reset), (0x00C, State.reset.ratchet.cur), (0x010, State.reset.ratchet.target),
        (0x014, BitVec.ofNat 32 State.reset.cfg.bufBytes)] := ⟨rfl, by simp⟩

theorem witness_RegisterWrites : (writing 0x00000020).host = .write32 0x000 0x00000020 :: []
    ∧ (moving (.write32 0x004 7) State.reset).host = .write32 0x004 7 :: []
    ∧ (moving (.write32 0x014 7) State.reset).host = .write32 0x014 7 :: [] ∧ 0x014 ∈ [0x008, 0x00C, 0x010, 0x014] :=
  ⟨rfl, rfl, rfl, by decide⟩

/-- The first and last offsets of each window, DBUF of 256 bytes. -/
theorem witness_WindowReads : ∀ off ∈ [0x040, 0x05F, 0x060, 0x07F, 0x100, 0x1FF],
    (moving (.read8 off) State.reset).host = .read8 off :: [] ∧ off ≤ 0x0FF + State.reset.cfg.bufBytes :=
  fun off h => ⟨rfl, by revert off; decide⟩

theorem witness_WindowWrites : (∀ off ∈ [0x040, 0x07F, 0x100, 0x1FF],
    (moving (.write8 off 0xAA) State.reset).host = .write8 off 0xAA :: [] ∧ off ≤ 0x0FF + State.reset.cfg.bufBytes)
    ∧ State.reset.dbuf.wf = true := ⟨fun off h => ⟨rfl, by revert off; decide⟩, rfl⟩

theorem witness_RefusedAccessIsBusError :
    (∀ m ∈ [HostMove.read32 0x018, .read32 0x002, .read8 0x03F, .read8 0x080, .read8 0x0FF, .write8 0x200 1, .read16 0x100],
      (moving m State.reset).host = m :: [] ∧ m.accepted State.reset.cfg = false)
    ∧ ∀ m ∈ [HostMove.read32 0x014, .write32 0x000 1, .read8 0x040, .read8 0x07F, .write8 0x1FF 1, .hardReset],
      (moving m State.reset).host = m :: [] ∧ m.accepted State.reset.cfg = true :=
  ⟨fun m h => ⟨rfl, by revert m; decide⟩, fun m h => ⟨rfl, by revert m; decide⟩⟩

/-- Two states that differ in the hidden vector. -/
theorem witness_HiddenStateUnreadable :
    SameVisible State.reset (setVec (countUp 16) State.reset) ∧ setVec (countUp 16) State.reset ≠ State.reset :=
  ⟨⟨rfl, rfl, rfl, rfl, rfl, rfl, rfl, rfl, rfl, rfl, rfl, rfl, rfl, rfl, rfl, fun _ => rfl⟩,
    fun h => absurd (congrArg (fun s : State => byteAt s.cipher.vec 1) h) (by decide)⟩

theorem witness_ResetSatisfiesInvariant : Config.wf { bufBytes := 48, patOrder := .be } = true := by decide

theorem witness_StepKeepsInvariant : Inv State.reset ∧ step State.reset = .next State.reset := ⟨reset_inv, rfl⟩

theorem performCommand_ok (w : Word) (i : Instr) (s : State) (h : decode w = .ok i) :
    performCommand w s = exec i s := by
  rw [performCommand, h]

/-- A host that starts a hash. -/
theorem writing_hInit_steps : step (writing 0x00000020) = .next (after .hInit State.reset) :=
  (performCommand_ok 0x00000020 .hInit State.reset test_decode_hInit).trans (exec_after _ _)

theorem witness_ReachableStatesKeepR45 : Reachable (after .hInit State.reset) :=
  .step (writing 0x00000020) _ (.reset Config.default [.write32 0x000 0x00000020] (by decide)) writing_hInit_steps

theorem witness_CapNeverChanges : step (writing 0x00000020) = .next (after .hInit State.reset) := writing_hInit_steps

/-- A fault of each cause, and no fault. -/
theorem witness_FaultsFollowTable :
    faultOf (.cInit .cbc 3) State.reset = some .keyLen ∧ faultOf .cEncp State.reset = some .noCipher
    ∧ faultOf .cDec { State.reset with cv := true, arg := 15 } = some .length
    ∧ faultOf .cEnc { State.reset with cv := true, arg := 272 } = some .overrun
    ∧ faultOf .cEncp { State.reset with cv := true, arg := 256 } = some .overrun
    ∧ faultOf .cEncp { State.reset with cv := true, arg := 255 } = none
    ∧ faultOf .hFinal State.reset = some .noHash ∧ faultOf .rBind State.reset = some .noRatchet
    ∧ faultOf .rStep (ratcheting .begin 1 0 State.reset) = some .noPattern
    ∧ faultOf .hAppend { State.reset with hv := true, arg := 1, hash := { freshHash with count := 0x1FFFFFFFFFFFFFFF } }
        = some .hashLen
    ∧ faultOf .rStep (ratcheting .begin 0 0 State.reset) = none ∧ State.reset.err = false := by
  refine ⟨?_, ?_, ?_, ?_, ?_, ?_, ?_, ?_, ?_, ?_, ?_, ?_⟩ <;> decide

theorem witness_FaultEntryIsPrecise : State.reset.err = false
    ∧ performCommand 0x00000111 State.reset = .next (raiseFault .illegal State.reset)
    ∧ (raiseFault .illegal State.reset).err = true
    ∧ performCommand 0x00000011 State.reset = .next (raiseFault .noCipher State.reset)
    ∧ (raiseFault .noCipher State.reset).err = true :=
  ⟨rfl, by rw [performCommand, test_decode_mode_outside]; rfl, rfl, by rw [performCommand, test_decode_cEnc]; rfl, rfl⟩

theorem witness_StoppedBlockIgnoresCommands : stopped.err = true ∧ stopped.dbuf.wf = true
    ∧ (moving (.write32 0x000 0x00000101) stopped).host = .write32 0x000 0x00000101 :: []
    ∧ (0x00000101 : Word) ≠ 0x00000001 ∧ (moving (.write32 0x004 9) stopped).host = .write32 0x004 9 :: []
    ∧ (moving (.read32 0x004) stopped).host = .read32 0x004 :: [] ∧ 255 < stopped.cfg.bufBytes
    ∧ (moving (.write8 (0x100 + 255) 9) stopped).host = .write8 (0x100 + 255) 9 :: []
    ∧ (moving (.read8 (0x100 + 255)) stopped).host = .read8 (0x100 + 255) :: [] :=
  ⟨rfl, rfl, rfl, by decide, rfl, rfl, by decide, rfl, rfl⟩

theorem witness_OnlyResetLeavesStop : stopped.err = true
    ∧ (∀ m ∈ [HostMove.write32 0x004 5, .write8 0x100 7], m.resets = false)
    ∧ runMoves [.write32 0x004 5, .write8 0x100 7] stopped = .next { stopped with arg := 5, dbuf := [(0, 7)] } :=
  ⟨rfl, by decide, rfl⟩

theorem witness_UnitsAreIndependent : exec .hInit State.reset = .next (after .hInit State.reset)
    ∧ unitOf .hInit ≠ .cipher ∧ unitOf .hInit ≠ .ratchet
    ∧ exec .rBegin State.reset = .next (after .rBegin State.reset) ∧ unitOf .rBegin ≠ .hash :=
  ⟨exec_after _ _, by decide, by decide, exec_after _ _, by decide⟩

theorem witness_CommandsLeaveOperandsAlone : exec .rBegin (loaded [1, 2, 3] 4)
    = .next (after .rBegin (loaded [1, 2, 3] 4)) := exec_after _ _

theorem witness_ExpandedKeyWords : (2 : BitVec 2) ≠ 3 ∧ keyWordCount 2 ≤ 8 ∧ 8 < 4 * (roundCount 2 + 1)
    ∧ keyWordCount 2 ≤ 59 ∧ 59 < 4 * (roundCount 2 + 1) ∧ 31 < keyBytes 2 ∧ 16 * (roundCount 0 + 1) ≤ 176 := by decide

theorem witness_CInitCreatesCipherState : (loaded (countUp 48).toList 0).err = false ∧ (1 : BitVec 2) ≠ 3 := ⟨rfl, by decide⟩

/-- Two buffers that agree on a 128-bit key and the IV and differ between them. -/
theorem witness_CInitReadsOnlyKeyAndIv : (loaded [1] 0).err = false ∧ (0 : BitVec 2) ≠ 3
    ∧ (∀ a, a < 16 + 8 * (0 : BitVec 2).toNat →
        (setDbuf [(0, 1), (16, 9)] State.reset).dbuf.read a = (loaded [1] 0).dbuf.read a)
    ∧ (Mode.cbc = .cbc → ∀ a, 32 ≤ a → a < 48 →
        (setDbuf [(0, 1), (16, 9)] State.reset).dbuf.read a = (loaded [1] 0).dbuf.read a)
    ∧ (setDbuf [(0, 1), (16, 9)] State.reset).dbuf.read 16 ≠ (loaded [1] 0).dbuf.read 16 :=
  ⟨rfl, by decide, by decide +kernel,
    fun _ a lo hi => (by decide +kernel : ∀ a, a < 48 → 32 ≤ a →
      (setDbuf [(0, 1), (16, 9)] State.reset).dbuf.read a = (loaded [1] 0).dbuf.read a) a hi lo, by decide +kernel⟩

theorem of_three {α : Type} {a b c : α} (p : α → Prop) (ha : p a) (hb : p b) (hc : p c) : ∀ l ∈ [a, b, c], p l := by
  intro l h
  rcases List.mem_cons.1 h with rfl | h
  · exact ha
  rcases List.mem_cons.1 h with rfl | h
  · exact hb
  exact List.mem_singleton.1 h ▸ hc

/-- The whole buffer, and a length of 0. -/
theorem witness_CEncEncryptsBlocks : ∀ l ∈ [(0 : Word), 16, 256],
    (live .cbc (loaded (countUp 32).toList l)).err = false ∧ (live .cbc (loaded (countUp 32).toList l)).cv = true
    ∧ (live .cbc (loaded (countUp 32).toList l)).arg.toNat % 16 = 0
    ∧ (live .cbc (loaded (countUp 32).toList l)).arg.toNat ≤ (live .cbc (loaded (countUp 32).toList l)).cfg.bufBytes
    ∧ (live .cbc (loaded (countUp 32).toList l)).dbuf.wf = true :=
  fun l h => ⟨rfl, rfl, of_three (fun l : Word => l.toNat % 16 = 0) rfl rfl rfl l h,
    of_three (fun l : Word => l.toNat ≤ 256) (by decide) (by decide) (by decide) l h, Memory.wf_writeBytes _ _ _ rfl⟩

theorem witness_CEncpPadsAndEncrypts : ∀ l ∈ [(0 : Word), 240, 255],
    (live .ecb (loaded (countUp 32).toList l)).err = false ∧ (live .ecb (loaded (countUp 32).toList l)).cv = true
    ∧ (live .ecb (loaded (countUp 32).toList l)).arg.toNat + (16 - (live .ecb (loaded (countUp 32).toList l)).arg.toNat % 16)
        ≤ (live .ecb (loaded (countUp 32).toList l)).cfg.bufBytes
    ∧ (live .ecb (loaded (countUp 32).toList l)).dbuf.wf = true :=
  fun l h => ⟨rfl, rfl,
    of_three (fun l : Word => l.toNat + (16 - l.toNat % 16) ≤ 256) (by decide) (by decide) (by decide) l h, Memory.wf_writeBytes _ _ _ rfl⟩

theorem witness_CDecDecryptsBlocks : ∀ l ∈ [(0 : Word), 16, 256],
    (live .ecb (loaded (countUp 32).toList l)).err = false ∧ (live .ecb (loaded (countUp 32).toList l)).cv = true
    ∧ (live .ecb (loaded (countUp 32).toList l)).arg.toNat % 16 = 0
    ∧ (live .ecb (loaded (countUp 32).toList l)).arg.toNat ≤ (live .ecb (loaded (countUp 32).toList l)).cfg.bufBytes
    ∧ (live .ecb (loaded (countUp 32).toList l)).dbuf.wf = true :=
  fun l h => ⟨rfl, rfl, of_three (fun l : Word => l.toNat % 16 = 0) rfl rfl rfl l h,
    of_three (fun l : Word => l.toNat ≤ 256) (by decide) (by decide) (by decide) l h, Memory.wf_writeBytes _ _ _ rfl⟩

/-- `someKeys` with other bytes between a 192-bit key and the IV. -/
def otherBetween : Memory := someKeys.writeBytes 24 (List.replicate 8 0xEE)

/-- The 128-bit key of `someKeys`, and other bytes from there on. -/
def otherAfterKey : Memory := someKeys.writeBytes 16 (List.replicate 32 0xEE)

/-- A CBC round trip of 32 bytes with a 192-bit key; the second key buffer differs between the key and the IV, and the
ciphertext loaded again is the buffer that `C_ENC` left. -/
theorem witness_CipherRoundTrip : State.reset.err = false ∧ (1 : BitVec 2) ≠ 3 ∧ (32 : Word).toNat % 16 = 0
    ∧ (32 : Word).toNat ≤ State.reset.cfg.bufBytes ∧ somePlain.wf = true
    ∧ (∀ a, a < keyBytes 1 → otherBetween.read a = someKeys.read a)
    ∧ (Mode.cbc = .cbc → ∀ a, 32 ≤ a → a < 48 → otherBetween.read a = someKeys.read a)
    ∧ otherBetween.read 24 ≠ someKeys.read 24
    ∧ (after .cEnc (setArg 32 (setDbuf somePlain (after (.cInit .cbc 1) (setDbuf someKeys State.reset))))).dbuf.wf = true :=
  ⟨rfl, by decide, by decide, by decide, Memory.wf_writeBytes _ _ _ rfl, by decide +kernel,
    fun _ a lo hi => (by decide +kernel : ∀ a, a < 48 → 32 ≤ a → otherBetween.read a = someKeys.read a) a hi lo,
    by decide +kernel, exec_wf _ _ _ (exec_after _ _) (Memory.wf_writeBytes _ _ _ rfl)⟩

/-- A padded ECB round trip of 5 bytes with a 128-bit key, as in program P1: the second key buffer agrees on the key only. -/
theorem witness_PaddedRoundTrip : State.reset.err = false ∧ (0 : BitVec 2) ≠ 3
    ∧ (16 : Word).toNat = (5 : Word).toNat + (16 - (5 : Word).toNat % 16)
    ∧ (16 : Word).toNat ≤ State.reset.cfg.bufBytes ∧ somePlain.wf = true
    ∧ (∀ a, a < keyBytes 0 → otherAfterKey.read a = someKeys.read a)
    ∧ (Mode.ecb = .cbc → ∀ a, 32 ≤ a → a < 48 → otherAfterKey.read a = someKeys.read a)
    ∧ otherAfterKey.read 16 ≠ someKeys.read 16 ∧ otherAfterKey.read 47 ≠ someKeys.read 47
    ∧ (after .cEncp (setArg 5 (setDbuf somePlain (after (.cInit .ecb 0) (setDbuf someKeys State.reset))))).dbuf.wf = true :=
  ⟨rfl, by decide, by decide, by decide, Memory.wf_writeBytes _ _ _ rfl, by decide +kernel, (fun h => nomatch h),
    by decide +kernel, by decide +kernel, exec_wf _ _ _ (exec_after _ _) (Memory.wf_writeBytes _ _ _ rfl)⟩

theorem witness_EcbDecryptRestores : (live .ecb (loaded (countUp 32).toList 32)).err = false
    ∧ (live .ecb (loaded (countUp 32).toList 32)).cv = true ∧ (live .ecb (loaded (countUp 32).toList 32)).cipher.cm = .ecb
    ∧ (live .ecb (loaded (countUp 32).toList 32)).arg.toNat % 16 = 0
    ∧ (live .ecb (loaded (countUp 32).toList 32)).arg.toNat ≤ (live .ecb (loaded (countUp 32).toList 32)).cfg.bufBytes
    ∧ (live .ecb (loaded (countUp 32).toList 32)).dbuf.wf = true :=
  ⟨rfl, rfl, rfl, by decide, by decide, Memory.wf_writeBytes _ _ _ rfl⟩

theorem witness_CbcDecryptWithoutInit : (live .cbc (loaded (countUp 32).toList 32)).err = false
    ∧ (live .cbc (loaded (countUp 32).toList 32)).cv = true ∧ (live .cbc (loaded (countUp 32).toList 32)).cipher.cm = .cbc
    ∧ (live .cbc (loaded (countUp 32).toList 32)).arg.toNat % 16 = 0
    ∧ 0 < (live .cbc (loaded (countUp 32).toList 32)).arg.toNat
    ∧ (live .cbc (loaded (countUp 32).toList 32)).arg.toNat ≤ (live .cbc (loaded (countUp 32).toList 32)).cfg.bufBytes
    ∧ (live .cbc (loaded (countUp 32).toList 32)).dbuf.wf = true :=
  ⟨rfl, rfl, rfl, by decide, by decide, by decide, Memory.wf_writeBytes _ _ _ rfl⟩

/-- One block and one block, out of the 32 bytes of `somePlain`. -/
theorem witness_CbcCommandsChain : (live .cbc State.reset).err = false ∧ (live .cbc State.reset).cv = true
    ∧ (live .cbc State.reset).cipher.cm = .cbc ∧ (live .cbc State.reset).cfg.wf = true
    ∧ 16 * (1 + 1) ≤ (live .cbc State.reset).cfg.bufBytes ∧ somePlain.wf = true
    ∧ (Memory.writeBytes [] 0 (List.replicate 16 0x61)).wf = true
    ∧ (∀ a, a < 16 * 1 → Memory.read (Memory.writeBytes [] 0 (List.replicate 16 0x61)) a = somePlain.read a)
    ∧ ∀ a, a < 16 * 1 → Memory.read (Memory.writeBytes [] 0 (List.replicate 16 0x61)) a = somePlain.read (16 * 1 + a) :=
  ⟨rfl, rfl, rfl, rfl, by decide, Memory.wf_writeBytes _ _ _ rfl, Memory.wf_writeBytes _ _ _ rfl, by decide +kernel, by decide +kernel⟩

/-- The same blocks, taken as ciphertext. -/
theorem witness_CbcDecryptsChain : (live .cbc State.reset).err = false ∧ (live .cbc State.reset).cv = true
    ∧ (live .cbc State.reset).cipher.cm = .cbc ∧ (live .cbc State.reset).cfg.wf = true
    ∧ 16 * (1 + 1) ≤ (live .cbc State.reset).cfg.bufBytes ∧ somePlain.wf = true
    ∧ (Memory.writeBytes [] 0 (List.replicate 16 0x61)).wf = true
    ∧ (∀ a, a < 16 * 1 → Memory.read (Memory.writeBytes [] 0 (List.replicate 16 0x61)) a = somePlain.read a)
    ∧ ∀ a, a < 16 * 1 → Memory.read (Memory.writeBytes [] 0 (List.replicate 16 0x61)) a = somePlain.read (16 * 1 + a) :=
  witness_CbcCommandsChain

/-- One block and then five bytes; and the longest message that fits the buffer of 256 bytes. -/
theorem witness_CbcPaddedEndChains : (live .cbc State.reset).err = false ∧ (live .cbc State.reset).cv = true
    ∧ (live .cbc State.reset).cipher.cm = .cbc ∧ (live .cbc State.reset).cfg.wf = true
    ∧ 16 * 1 + 5 + (16 - 5 % 16) ≤ (live .cbc State.reset).cfg.bufBytes
    ∧ 16 * 15 + 15 + (16 - 15 % 16) ≤ (live .cbc State.reset).cfg.bufBytes ∧ somePlain.wf = true
    ∧ (Memory.writeBytes [] 0 (List.replicate 16 0x61)).wf = true
    ∧ (∀ a, a < 16 * 1 → Memory.read (Memory.writeBytes [] 0 (List.replicate 16 0x61)) a = somePlain.read a)
    ∧ ∀ a, a < 5 → Memory.read (Memory.writeBytes [] 0 (List.replicate 16 0x61)) a = somePlain.read (16 * 1 + a) :=
  ⟨rfl, rfl, rfl, rfl, by decide, by decide, Memory.wf_writeBytes _ _ _ rfl, Memory.wf_writeBytes _ _ _ rfl,
    by decide +kernel, by decide +kernel⟩

theorem witness_HInitStartsHash : State.reset.err = false := rfl

/-- The whole buffer into an empty hash, and the last byte before the limit of rule R177. -/
theorem witness_HAppendAbsorbs :
    ((hashing (loaded [1, 2, 3] 256)).err = false ∧ (hashing (loaded [1, 2, 3] 256)).hv = true
      ∧ (hashing (loaded [1, 2, 3] 256)).arg.toNat ≤ (hashing (loaded [1, 2, 3] 256)).cfg.bufBytes
      ∧ (hashing (loaded [1, 2, 3] 256)).hash.count.toNat + (hashing (loaded [1, 2, 3] 256)).arg.toNat < 2 ^ 61
      ∧ (hashing (loaded [1, 2, 3] 256)).hash.plen.toNat = (hashing (loaded [1, 2, 3] 256)).hash.count.toNat % 64)
    ∧ (0x1FFFFFFFFFFFFFFE : BitVec 64).toNat + (1 : Word).toNat < 2 ^ 61
    ∧ (62 : BitVec 7).toNat = (0x1FFFFFFFFFFFFFFE : BitVec 64).toNat % 64 :=
  ⟨⟨rfl, rfl, by decide, by decide, rfl⟩, by decide, by decide⟩

theorem witness_HFinalWritesDigest : (hashing State.reset).err = false ∧ (hashing State.reset).hv = true
    ∧ (hashing State.reset).hash.plen.toNat = (hashing State.reset).hash.count.toNat % 64
    ∧ (hashing State.reset).hash.count.toNat < 2 ^ 61 := ⟨rfl, rfl, rfl, by decide⟩

theorem witness_Sha256IsBlockwise : ([0x61, 0x62, 0x63] : List Byte).length < 2 ^ 61 := by decide

/-- An empty part and a part that fills the buffer. -/
theorem witness_HashIndependentOfSplit : State.reset.err = false ∧ State.reset.cfg.wf = true
    ∧ State.reset.dbuf.wf = true
    ∧ (∀ p ∈ [[], List.replicate 256 (0x61 : Byte)], p.length ≤ State.reset.cfg.bufBytes)
    ∧ ([[], List.replicate 256 (0x61 : Byte)] : List (List Byte)).flatten.length < 2 ^ 61 :=
  ⟨rfl, rfl, rfl, fun p h => by
    have hc : p = [] ∨ p = List.replicate 256 0x61 := by simpa only [List.mem_cons, List.not_mem_nil, or_false] using h
    rcases hc with rfl | rfl
    · exact Nat.zero_le _
    · rw [List.length_replicate]; exact Nat.le_refl _, by
    rw [List.flatten_cons, List.flatten_cons, List.flatten_nil, List.append_nil, List.nil_append, List.length_replicate]
    decide⟩

theorem witness_RBeginTakesSeed : (loaded (countUp 32).toList 0).err = false := rfl

theorem witness_RBindFoldsToken : (ratcheting .complete 0 0 State.reset).err = false
    ∧ (ratcheting .complete 0 0 State.reset).ratchet.rst ≠ .none := ⟨rfl, by decide⟩

theorem witness_RSetpatSetsPattern : (ratcheting .running 5 2 State.reset).err = false
    ∧ (ratcheting .running 5 2 State.reset).ratchet.rst ≠ .none := ⟨rfl, by decide⟩

/-- Target 0, and the last round before a target of 2^32 - 1. -/
theorem witness_RStepDoesOneRound : (ratcheting .begin 0 0 State.reset).err = false
    ∧ (ratcheting .begin 0 0 State.reset).ratchet.rst ≠ .none
    ∧ (ratcheting .begin 0 0 State.reset).ratchet.cur = (ratcheting .begin 0 0 State.reset).ratchet.target
    ∧ ({ ratcheting .running 0xFFFFFFFF 0xFFFFFFFE State.reset with pv := true } : State).ratchet.rst ≠ .none
    ∧ ({ ratcheting .running 0xFFFFFFFF 0xFFFFFFFE State.reset with pv := true } : State).ratchet.cur
        ≠ ({ ratcheting .running 0xFFFFFFFF 0xFFFFFFFE State.reset with pv := true } : State).ratchet.target
    ∧ ({ ratcheting .running 0xFFFFFFFF 0xFFFFFFFE State.reset with pv := true } : State).pv = true :=
  ⟨rfl, by decide, rfl, by decide, by decide, rfl⟩

theorem witness_RatchetClosedForm : (loaded (countUp 32).toList 2).err = false
    ∧ (Instr.rBind = .rBind ∨ Instr.rBind = .rSetpat) := ⟨rfl, by decide⟩

theorem witness_RStepReadsOnlyRatchet : exec .rStep (ratcheting .begin 0 0 State.reset)
    = .next (after .rStep (ratcheting .begin 0 0 State.reset)) := exec_after _ _

/-! ### The long computations, last: each is one block of AES, one key schedule or one SHA-256 block -/

/-- V-K2: the last word of the schedule of KA192. -/
theorem test_keySchedule_192 : (keySchedule 1 #v[0x8e, 0x73, 0xb0, 0xf7, 0xda, 0x0e, 0x64, 0x52, 0xc8, 0x10, 0xf3, 0x2b,
    0x80, 0x90, 0x79, 0xe5, 0x62, 0xf8, 0xea, 0xd2, 0x52, 0x2c, 0x6b, 0x7b]).getLast?
      = some #v[0x01, 0x00, 0x22, 0x02] := by decide +kernel

/-- V-K3: the last word of the schedule of KA256. -/
theorem test_keySchedule_256 : (keySchedule 2 #v[0x60, 0x3d, 0xeb, 0x10, 0x15, 0xca, 0x71, 0xbe, 0x2b, 0x73, 0xae, 0xf0,
    0x85, 0x7d, 0x77, 0x81, 0x1f, 0x35, 0x2c, 0x07, 0x3b, 0x61, 0x08, 0xd7, 0x2d, 0x98, 0x10, 0xa3, 0x09, 0x14, 0xdf,
    0xf4]).getLast? = some #v[0x70, 0x6c, 0x63, 0x1e] := by decide +kernel

/-- V-C1: the ciphertext of PC under KC128, in ECB mode. -/
theorem test_cEnc : (memRead 0 16 (after .cEnc (keyed .ecb (loaded [0x00, 0x11, 0x22, 0x33, 0x44, 0x55, 0x66, 0x77, 0x88,
    0x99, 0xaa, 0xbb, 0xcc, 0xdd, 0xee, 0xff] 16)))).toList = [0x69, 0xc4, 0xe0, 0xd8, 0x6a, 0x7b, 0x04, 0x30, 0xd8, 0xcd,
    0xb7, 0x80, 0x70, 0xb4, 0xc5, 0x5a] := by decide +kernel

/-- V-C1, back. -/
theorem test_cDec : (memRead 0 16 (after .cDec (keyed .ecb (loaded [0x69, 0xc4, 0xe0, 0xd8, 0x6a, 0x7b, 0x04, 0x30, 0xd8,
    0xcd, 0xb7, 0x80, 0x70, 0xb4, 0xc5, 0x5a] 16)))).toList = [0x00, 0x11, 0x22, 0x33, 0x44, 0x55, 0x66, 0x77, 0x88,
    0x99, 0xaa, 0xbb, 0xcc, 0xdd, 0xee, 0xff] := by decide +kernel

/-- V-H1: the digest of the empty message. -/
theorem test_hFinal : (after .hFinal (hashing State.reset)).digest.toList = [0xe3, 0xb0, 0xc4, 0x42, 0x98, 0xfc, 0x1c,
    0x14, 0x9a, 0xfb, 0xf4, 0xc8, 0x99, 0x6f, 0xb9, 0x24, 0x27, 0xae, 0x41, 0xe4, 0x64, 0x9b, 0x93, 0x4c, 0xa4, 0x95,
    0x99, 0x1b, 0x78, 0x52, 0xb8, 0x55] := by decide +kernel

/-- V-R10: one round with pattern 0 is SHA256 of the seed (V-R3). -/
theorem test_rStep : (after .rStep { ratcheting .begin 1 0 State.reset with pv := true }).ratchet.work.toList = [0x63,
    0x0d, 0xcd, 0x29, 0x66, 0xc4, 0x33, 0x66, 0x91, 0x12, 0x54, 0x48, 0xbb, 0xb2, 0x5b, 0x4f, 0xf4, 0x12, 0xa4, 0x9c,
    0x73, 0x2d, 0xb2, 0xc8, 0xab, 0xc1, 0xb8, 0x58, 0x1b, 0xd7, 0x10, 0xdd] := by decide +kernel

end Sys2Proof.Tests
end

section
/-! The scope statements of spec/00_scope.md. One frame lemma serves both: a command other than `SRST` changes the state of
its own unit, DBUF, ERR and ECODE at most. -/

namespace Sys2Proof.Machine

/-! ### The frame of a unit's commands -/

/-- What a command of unit `u` leaves alone: the state of each other unit, and ARG, the parameters and the host's side. -/
structure UnitFrame (u : EngineUnit) (s t : State) : Prop where
  /-- CipherEngine, under a command of another unit. -/
  cipher : u ≠ .cipher → SameCipher s t
  /-- HashEngine, under a command of another unit. -/
  hash : u ≠ .hash → SameHash s t
  /-- TokenRatchet, under a command of another unit. -/
  ratchet : u ≠ .ratchet → SameRatchet s t
  /-- ARG, the parameters, the host's side. -/
  hostSide : SameHostSide s t

theorem UnitFrame.refl (u : EngineUnit) (s : State) : UnitFrame u s s :=
  ⟨fun _ => ⟨rfl, rfl⟩, fun _ => ⟨rfl, rfl, rfl⟩, fun _ => ⟨rfl, rfl, rfl⟩, ⟨rfl, rfl, rfl, rfl⟩⟩

/-- Taking a fault writes ERR and ECODE only (rule R243), which belong to no unit. -/
theorem UnitFrame.raiseFault (u : EngineUnit) (c : Cause) (s : State) : UnitFrame u s (raiseFault c s) :=
  ⟨fun _ => ⟨rfl, rfl⟩, fun _ => ⟨rfl, rfl, rfl⟩, fun _ => ⟨rfl, rfl, rfl⟩, ⟨rfl, rfl, rfl, rfl⟩⟩

theorem UnitFrame.setCipher (c : CipherState) (s : State) : UnitFrame .cipher s (setCipher c s) :=
  ⟨fun hu => absurd rfl hu, fun _ => ⟨rfl, rfl, rfl⟩, fun _ => ⟨rfl, rfl, rfl⟩, ⟨rfl, rfl, rfl, rfl⟩⟩

/-- VEC, which `SameButData` leaves open, is CipherEngine's own; DBUF belongs to no unit. -/
theorem SameButData.unitFrame {s t : State} (h : SameButData s t) : UnitFrame .cipher s t :=
  ⟨fun hu => absurd rfl hu, fun _ => h.hash, fun _ => h.ratchet, h.hostSide⟩

section HashUpdates
variable {s t : State} (h : UnitFrame .hash s t)
include h

theorem UnitFrame.setHash (st : HashState) : UnitFrame .hash s (setHash st t) :=
  ⟨h.cipher, fun hu => absurd rfl hu, h.ratchet, h.hostSide⟩

theorem UnitFrame.setHv (b : Bool) : UnitFrame .hash s (setHv b t) :=
  ⟨h.cipher, fun hu => absurd rfl hu, h.ratchet, h.hostSide⟩

theorem UnitFrame.setDigest (d : Bytes 32) : UnitFrame .hash s (setDigest d t) :=
  ⟨h.cipher, fun hu => absurd rfl hu, h.ratchet, h.hostSide⟩

end HashUpdates

section RatchetUpdates
variable {s t : State} (h : UnitFrame .ratchet s t)
include h

theorem UnitFrame.setRatchet (r : RatchetState) : UnitFrame .ratchet s (setRatchet r t) :=
  ⟨h.cipher, h.hash, fun hu => absurd rfl hu, h.hostSide⟩

theorem UnitFrame.setPv (b : Bool) : UnitFrame .ratchet s (setPv b t) :=
  ⟨h.cipher, h.hash, fun hu => absurd rfl hu, h.hostSide⟩

theorem UnitFrame.setRdone (b : Bool) : UnitFrame .ratchet s (setRdone b t) :=
  ⟨h.cipher, h.hash, fun hu => absurd rfl hu, h.hostSide⟩

end RatchetUpdates

/-- The frame of the encryption loop asks nothing of the buffer, which `forBlocks_encryptBlock` wants canonical. -/
theorem SameButData.forBlocks_encryptBlock {s t : State} (h : SameButData s t) (n : Nat) :
    SameButData s (forBlocks encryptBlock n t) := by
  refine forBlocks_induction (fun _ u => SameButData s u) encryptBlock t h (fun k u hu => ?_) n
  obtain ⟨out, v, heq, -, -⟩ := encryptBlock_spec k u
  rw [heq]
  exact hu.write _ out v

/-- The same for the decryption loop. -/
theorem SameButData.forBlocks_decryptBlock {s t : State} (h : SameButData s t) (n : Nat) :
    SameButData s (forBlocks decryptBlock n t) := by
  refine forBlocks_induction (fun _ u => SameButData s u) decryptBlock t h (fun k u hu => ?_) n
  obtain ⟨out, v, heq, -, -⟩ := decryptBlock_spec k u
  rw [heq]
  exact hu.write _ out v

theorem roundDone_unitFrame (s : State) : UnitFrame .ratchet s (roundDone s) := by
  obtain ⟨-, heq⟩ | ⟨-, heq⟩ := roundDone_cases s
  all_goals rw [heq]; exact ((UnitFrame.refl _ s).setRatchet _).setRdone _

/-- Every command but `SRST`, in a running or a stopped block, completed or faulting, keeps to its own unit. -/
theorem exec_unitFrame (i : Instr) (s t : State) (hi : i ≠ .srst) (h : exec i s = .next t) :
    UnitFrame (unitOf i) s t := by
  have same := UnitFrame.refl (unitOf i) s
  have fault := fun c => UnitFrame.raiseFault (unitOf i) c s
  cases i with
  | nop => rw [execNop_cases s t h]; exact same
  | srst => exact absurd rfl hi
  | cInit m kl =>
    obtain ⟨-, rfl⟩ | ⟨-, ⟨-, rfl⟩ | ⟨-, rfl⟩⟩ := execCInit_cases m kl s t h
    exacts [same, fault _, UnitFrame.setCipher _ s]
  | cEnc =>
    obtain ⟨-, rfl⟩ | ⟨-, ⟨-, rfl⟩ | ⟨-, -, rfl⟩ | ⟨-, -, -, rfl⟩ | ⟨-, -, -, rfl⟩⟩ := execCEnc_cases s t h
    exacts [same, fault _, fault _, fault _, ((SameButData.refl s).forBlocks_encryptBlock _).unitFrame]
  | cEncp =>
    obtain ⟨-, rfl⟩ | ⟨-, ⟨-, rfl⟩ | ⟨-, -, rfl⟩ | ⟨-, -, rfl⟩⟩ := execCEncp_cases s t h
    exacts [same, fault _, fault _, (((SameButData.refl s).store _ _).forBlocks_encryptBlock _).unitFrame]
  | cDec =>
    obtain ⟨-, rfl⟩ | ⟨-, ⟨-, rfl⟩ | ⟨-, -, rfl⟩ | ⟨-, -, -, rfl⟩ | ⟨-, -, -, rfl⟩⟩ := execCDec_cases s t h
    exacts [same, fault _, fault _, fault _, ((SameButData.refl s).forBlocks_decryptBlock _).unitFrame]
  | hInit =>
    obtain ⟨-, rfl⟩ | ⟨-, rfl⟩ := execHInit_cases s t h
    exacts [same, (same.setHash _).setHv _]
  | hAppend =>
    obtain ⟨-, rfl⟩ | ⟨-, ⟨-, rfl⟩ | ⟨-, -, rfl⟩ | ⟨-, -, -, rfl⟩ | ⟨-, -, -, rfl⟩⟩ := execHAppend_cases s t h
    exacts [same, fault _, fault _, fault _, same.setHash _]
  | hFinal =>
    obtain ⟨-, rfl⟩ | ⟨-, ⟨-, rfl⟩ | ⟨-, rfl⟩⟩ := execHFinal_cases s t h
    exacts [same, fault _, ((same.setDigest _).setHash _).setHv _]
  | rBegin =>
    obtain ⟨-, rfl⟩ | ⟨-, rfl⟩ := execRBegin_cases s t h
    exacts [same, ((same.setRatchet _).setRdone _).setPv _]
  | rBind =>
    obtain ⟨-, rfl⟩ | ⟨-, ⟨-, rfl⟩ | ⟨-, rfl⟩⟩ := execRBind_cases s t h
    exacts [same, fault _, (same.setRatchet _).setPv _]
  | rSetpat =>
    obtain ⟨-, rfl⟩ | ⟨-, ⟨-, rfl⟩ | ⟨-, rfl⟩⟩ := execRSetpat_cases s t h
    exacts [same, fault _, (same.setRatchet _).setPv _]
  | rStep =>
    obtain ⟨-, rfl⟩ | ⟨-, ⟨-, rfl⟩ | ⟨-, -, rfl⟩ | ⟨-, -, -, rfl⟩ | ⟨-, -, -, rfl⟩⟩ := execRStep_cases s t h
    exacts [same, fault _, (same.setRatchet _).setRdone _, fault _, roundDone_unitFrame s]

/-! ### The parameters -/

/-- No command changes the parameters: `SRST` keeps them by the reset action, every other by its frame. -/
theorem exec_cfg (i : Instr) (s t : State) (h : exec i s = .next t) : t.cfg = s.cfg := by
  by_cases hi : i = .srst
  · subst hi
    rw [execSrst_cases s t h, resetBlock_cfg]
  · obtain ⟨-, hcfg, -, -⟩ := (exec_unitFrame i s t hi h).hostSide
    exact hcfg

theorem performCommand_cfg (w : Word) (s t : State) (h : performCommand w s = .next t) : t.cfg = s.cfg := by
  obtain ⟨i, -, hexec⟩ | ⟨e, -, ⟨-, rfl⟩ | ⟨-, rfl⟩⟩ := performCommand_cases w s t h
  · exact exec_cfg i s t hexec
  · rfl
  · exact raiseFault_cfg _ s

theorem hostMove_cfg (m : HostMove) (s t : State) (h : hostMove m s = .next t) : t.cfg = s.cfg := by
  obtain ⟨r, rfl⟩ | ⟨w, -, hcmd⟩ | ⟨v, -, rfl⟩ | ⟨a, b, -, -, rfl⟩ | rfl | ⟨-, rfl⟩ := hostMove_cases m s t h
  · exact pushReply_cfg r s
  · exact performCommand_cfg w s t hcmd
  · exact setArg_cfg v s
  · exact setDbuf_cfg _ s
  · rfl
  · exact resetBlock_cfg s

theorem step_cfg (s t : State) (h : step s = .next t) : t.cfg = s.cfg := by
  obtain ⟨-, rfl⟩ | ⟨m, rest, -, hmove⟩ := step_cases s t h
  · rfl
  · rw [hostMove_cfg m _ t hmove, setHost_cfg]

/-- CAP shows `BUF_BYTES` (rule R28). -/
theorem busRead32_cap (s : State) : busRead32 0x014 s = some (BitVec.ofNat 32 s.cfg.bufBytes) := rfl

/-! ### The statements -/

/-- Settles O22: CAP is read from the parameters alone, and no step changes those. -/
theorem capNeverChanges : Obligations.CapNeverChanges := by
  intro s t h
  have hcfg := step_cfg s t h
  exact ⟨hcfg, by rw [busRead32_cap, busRead32_cap, hcfg]⟩

/-- Settles O27, by the frame of the command's unit. -/
theorem unitsAreIndependent : Obligations.UnitsAreIndependent := by
  intro i s t hi h
  have frame := exec_unitFrame i s t hi h
  exact ⟨frame.cipher, frame.hash, frame.ratchet⟩

end Sys2Proof.Machine
end

section
/-! The state statements, part 1: the invariant of rule R45 and of the buffer. Each update that a command makes has a lemma
that says when it keeps the invariant; a command keeps it because its cases are such updates. -/

namespace Sys2Proof.Machine

/-! ### The state of the units as a whole -/

/-- ERR, ECODE and every unit's state are the same: all that rule R45 speaks of. -/
structure SameUnits (s t : State) : Prop where
  /-- ERR and ECODE. -/
  error : SameError s t
  /-- CipherEngine. -/
  cipher : SameCipher s t
  /-- HashEngine. -/
  hash : SameHash s t
  /-- TokenRatchet. -/
  ratchet : SameRatchet s t

theorem SameUnits.refl (s : State) : SameUnits s s :=
  ⟨⟨rfl, rfl⟩, ⟨rfl, rfl⟩, ⟨rfl, rfl, rfl⟩, ⟨rfl, rfl, rfl⟩⟩

theorem SameUnits.trans {s t u : State} (hst : SameUnits s t) (htu : SameUnits t u) : SameUnits s u where
  error := ⟨htu.error.1.trans hst.error.1, htu.error.2.trans hst.error.2⟩
  cipher := ⟨htu.cipher.1.trans hst.cipher.1, htu.cipher.2.trans hst.cipher.2⟩
  hash :=
    let ⟨hhv, hhash, hdig⟩ := hst.hash
    let ⟨hhv', hhash', hdig'⟩ := htu.hash
    ⟨hhv'.trans hhv, hhash'.trans hhash, hdig'.trans hdig⟩
  ratchet :=
    let ⟨hpv, hrdone, hrat⟩ := hst.ratchet
    let ⟨hpv', hrdone', hrat'⟩ := htu.ratchet
    ⟨hpv'.trans hpv, hrdone'.trans hrdone, hrat'.trans hrat⟩

theorem SameUnits.setHost (ms : List HostMove) (s : State) : SameUnits s (setHost ms s) :=
  ⟨⟨rfl, rfl⟩, ⟨rfl, rfl⟩, ⟨rfl, rfl, rfl⟩, ⟨rfl, rfl, rfl⟩⟩

theorem SameUnits.pushReply (r : Reply) (s : State) : SameUnits s (pushReply r s) :=
  ⟨⟨rfl, rfl⟩, ⟨rfl, rfl⟩, ⟨rfl, rfl, rfl⟩, ⟨rfl, rfl, rfl⟩⟩

theorem SameUnits.setArg (v : Word) (s : State) : SameUnits s (setArg v s) :=
  ⟨⟨rfl, rfl⟩, ⟨rfl, rfl⟩, ⟨rfl, rfl, rfl⟩, ⟨rfl, rfl, rfl⟩⟩

theorem SameUnits.setDbuf (m : Memory) (s : State) : SameUnits s (setDbuf m s) :=
  ⟨⟨rfl, rfl⟩, ⟨rfl, rfl⟩, ⟨rfl, rfl, rfl⟩, ⟨rfl, rfl, rfl⟩⟩

/-- The reset action gives every unit its reset value, whatever the parameters and the host's side. -/
theorem SameUnits.resetBlock (s : State) : SameUnits State.reset (resetBlock s) :=
  ⟨⟨rfl, rfl⟩, ⟨rfl, rfl⟩, ⟨rfl, rfl, rfl⟩, ⟨rfl, rfl, rfl⟩⟩

/-! ### Cause codes and key lengths -/

theorem causeCode_ne_zero (c : Cause) : causeCode c ≠ 0 := by cases c <;> decide

theorem keyWordCount_eq (kl : BitVec 2) : keyWordCount kl = 4 + 2 * kl.toNat := by
  unfold keyWordCount keyBytes; omega

theorem roundCount_eq (kl : BitVec 2) : roundCount kl = 10 + 2 * kl.toNat := by
  rw [roundCount, keyWordCount_eq]; omega

/-- A key length code other than the reserved 3 is at most 2. -/
theorem keyLength_le_two {kl : BitVec 2} (hkl : kl ≠ 3) : kl.toNat ≤ 2 := by
  have h3 : kl.toNat ≠ 3 := fun h => hkl (BitVec.eq_of_toNat_eq h)
  omega

/-! ### Rule R45: what each update keeps -/

theorem BlockInv.of_sameUnits {s t : State} (h : BlockInv s) (hst : SameUnits s t) : BlockInv t := by
  obtain ⟨⟨herr, hecode⟩, ⟨hcv, hcipher⟩, ⟨hhv, hhash, -⟩, ⟨hpv, hrdone, hratchet⟩⟩ := hst
  constructor <;> simp only [herr, hecode, hcv, hcipher, hhv, hhash, hpv, hrdone, hratchet]
  exacts [h.code_iff_running, h.key_params, h.ecb_vector, h.hash_live, h.hash_dead, h.ratchet_none,
    h.count_le_target, h.complete_at_target, h.running_between, h.begin_at_zero, h.done_complete]

theorem blockInv_reset : BlockInv State.reset where
  code_iff_running := by decide
  key_params := nofun
  ecb_vector := nofun
  hash_live := nofun
  hash_dead _ := ⟨by decide, rfl, rfl⟩
  ratchet_none _ := ⟨rfl, rfl, rfl, rfl⟩
  count_le_target := by decide
  complete_at_target := nofun
  running_between := nofun
  begin_at_zero := nofun
  done_complete := nofun

theorem BlockInv.raiseFault {s : State} (h : BlockInv s) (c : Cause) : BlockInv (raiseFault c s) :=
  { h with code_iff_running := ⟨fun h0 => absurd h0 (causeCode_ne_zero c), nofun⟩ }

theorem BlockInv.initialCipher {s : State} (h : BlockInv s) (m : Mode) {kl : BitVec 2} (hkl : kl ≠ 3) :
    BlockInv (setCipher (initialCipher m kl s) s) :=
  { h with
    key_params := fun _ => by
      refine ⟨hkl, ?_⟩
      have hle := keyLength_le_two hkl
      simp only [setCipher_cipher, Machine.initialCipher, roundCount_eq, BitVec.toNat_ofNat]
      omega
    ecb_vector := fun hm _ i => by
      have hecb : m = .ecb := hm
      subst hecb
      exact byteAt_zeroBytes 16 i }

/-- A data command of CipherEngine may move VEC only in CBC mode. -/
theorem BlockInv.of_sameButData {s t : State} (h : BlockInv s) (hst : SameButData s t)
    (hvec : s.cipher.cm = .ecb → t.cipher.vec = s.cipher.vec) : BlockInv t := by
  obtain ⟨⟨hcv, hcm, hckl, hnr, -⟩, ⟨hhv, hhash, -⟩, ⟨hpv, hrdone, hratchet⟩, ⟨herr, hecode⟩, -⟩ := hst
  constructor <;> simp only [herr, hecode, hcv, hcm, hckl, hnr, hhv, hhash, hpv, hrdone, hratchet]
  case ecb_vector => intro hecb; rw [hvec hecb]; exact h.ecb_vector hecb
  exacts [h.code_iff_running, h.key_params, h.hash_live, h.hash_dead, h.ratchet_none,
    h.count_le_target, h.complete_at_target, h.running_between, h.begin_at_zero, h.done_complete]

theorem Encrypted.vec_of_ecb {n : Nat} {s t : State} (h : Encrypted n s t) (hecb : s.cipher.cm = .ecb) :
    t.cipher.vec = s.cipher.vec := by
  rw [h.vector, hecb, if_neg (by simp)]

theorem Decrypted.vec_of_ecb {n : Nat} {s t : State} (h : Decrypted n s t) (hecb : s.cipher.cm = .ecb) :
    t.cipher.vec = s.cipher.vec := by
  rw [h.vector, hecb, if_neg (by simp)]

theorem BlockInv.encryptBlocks {s : State} (h : BlockInv s) (hw : s.dbuf.wf = true) (n : Nat) :
    BlockInv (forBlocks encryptBlock n s) :=
  let ⟨hsame, _, henc⟩ := forBlocks_encryptBlock n s hw
  h.of_sameButData hsame henc.vec_of_ecb

theorem BlockInv.decryptBlocks {s : State} (h : BlockInv s) (hw : s.dbuf.wf = true) (n : Nat) :
    BlockInv (forBlocks decryptBlock n s) :=
  let ⟨hsame, _, hdec⟩ := forBlocks_decryptBlock n s hw
  h.of_sameButData hsame hdec.vec_of_ecb

theorem BlockInv.startHash {s : State} (h : BlockInv s) (words : Vector Word 8) :
    BlockInv (setHv true (setHash { s.hash with h := words, plen := 0, count := 0 } s)) :=
  { h with
    hash_live := fun _ => ⟨rfl, Nat.two_pow_pos 61⟩
    hash_dead := nofun }

theorem BlockInv.absorb {s : State} (h : BlockInv s) (hhv : s.hv = true) (bytes : List Byte)
    (hlen : s.hash.count.toNat + bytes.length < 2 ^ 61) : BlockInv (setHash (absorb s.hash bytes) s) :=
  { h with
    hash_live := fun _ => by
      obtain ⟨hplen, -⟩ := h.hash_live hhv
      rw [setHash_hash, absorb_count, absorb_plen _ _ (by omega)]
      omega
    hash_dead := fun hdead => absurd (hhv.symm.trans hdead) nofun }

theorem BlockInv.endHash {s : State} (h : BlockInv s) (pend : Bytes 64) (d : Bytes 32) :
    BlockInv (setHv false (setHash { h := Vector.ofFn fun _ => 0, pend := pend, plen := 0, count := 0 }
      (setDigest d s))) :=
  { h with
    hash_live := nofun
    hash_dead := fun _ => ⟨by simp, rfl, rfl⟩ }

theorem BlockInv.beginRatchet {s : State} (h : BlockInv s) (seed : Bytes 32) (target : Word) :
    BlockInv (setPv false (setRdone false (setRatchet
      { rst := .begin, src := seed, sync := zeroBytes 32, pat := 0, target := target, cur := 0, work := seed }
      s))) :=
  { h with
    ratchet_none := nofun
    count_le_target := Nat.zero_le _
    complete_at_target := nofun
    running_between := nofun
    begin_at_zero := fun _ => rfl
    done_complete := nofun }

theorem BlockInv.setPattern {s : State} (h : BlockInv s) (hrst : s.ratchet.rst ≠ .none) (sync : Bytes 32)
    (pat : Word) : BlockInv (setPv true (setRatchet { s.ratchet with sync := sync, pat := pat } s)) :=
  { h with ratchet_none := fun hnone => absurd hnone hrst }

theorem BlockInv.completeRatchet {s : State} (h : BlockInv s) (cur : Word) (work : Bytes 32)
    (hcur : cur = s.ratchet.target) :
    BlockInv (setRdone true (setRatchet { s.ratchet with rst := .complete, cur := cur, work := work } s)) :=
  { h with
    ratchet_none := nofun
    count_le_target := BitVec.le_of_eq hcur
    complete_at_target := fun _ => hcur
    running_between := nofun
    begin_at_zero := nofun
    done_complete := fun _ => rfl }

/-- A round before the target is reached leaves the count strictly between 0 and the target. -/
theorem BlockInv.roundDone {s : State} (h : BlockInv s) (hne : s.ratchet.cur ≠ s.ratchet.target) :
    BlockInv (roundDone s) := by
  obtain ⟨hreached, heq⟩ | ⟨hshort, heq⟩ := roundDone_cases s <;> rw [heq]
  · exact h.completeRatchet _ _ hreached
  · have hle := h.count_le_target
    have hbetween : 0 < s.ratchet.cur + 1 ∧ s.ratchet.cur + 1 < s.ratchet.target := by bv_omega
    exact { h with
      ratchet_none := nofun
      count_le_target := BitVec.le_of_lt hbetween.2
      complete_at_target := nofun
      running_between := fun _ => hbetween
      begin_at_zero := nofun
      done_complete := nofun }

/-! ### Rule R45: every command -/

/-- Every command keeps rule R45. The canonical form of the buffer is what the laws of the block loops ask for. -/
theorem exec_blockInv (i : Instr) (s t : State) (h : exec i s = .next t) (hinv : BlockInv s)
    (hw : s.dbuf.wf = true) : BlockInv t := by
  cases i with
  | nop => rw [execNop_cases s t h]; exact hinv
  | srst => rw [execSrst_cases s t h]; exact blockInv_reset.of_sameUnits (SameUnits.resetBlock s)
  | cInit m kl =>
    obtain ⟨-, rfl⟩ | ⟨-, ⟨-, rfl⟩ | ⟨hkl, rfl⟩⟩ := execCInit_cases m kl s t h
    exacts [hinv, hinv.raiseFault _, hinv.initialCipher m hkl]
  | cEnc =>
    obtain ⟨-, rfl⟩ | ⟨-, ⟨-, rfl⟩ | ⟨-, -, rfl⟩ | ⟨-, -, -, rfl⟩ | ⟨-, -, -, rfl⟩⟩ := execCEnc_cases s t h
    exacts [hinv, hinv.raiseFault _, hinv.raiseFault _, hinv.raiseFault _, hinv.encryptBlocks hw _]
  | cEncp =>
    obtain ⟨-, rfl⟩ | ⟨-, ⟨-, rfl⟩ | ⟨-, -, rfl⟩ | ⟨-, -, rfl⟩⟩ := execCEncp_cases s t h
    exacts [hinv, hinv.raiseFault _, hinv.raiseFault _,
      (hinv.of_sameUnits (SameUnits.setDbuf _ s)).encryptBlocks (wf_memWrite _ _ s hw) _]
  | cDec =>
    obtain ⟨-, rfl⟩ | ⟨-, ⟨-, rfl⟩ | ⟨-, -, rfl⟩ | ⟨-, -, -, rfl⟩ | ⟨-, -, -, rfl⟩⟩ := execCDec_cases s t h
    exacts [hinv, hinv.raiseFault _, hinv.raiseFault _, hinv.raiseFault _, hinv.decryptBlocks hw _]
  | hInit =>
    obtain ⟨-, rfl⟩ | ⟨-, rfl⟩ := execHInit_cases s t h
    exacts [hinv, hinv.startHash _]
  | hAppend =>
    obtain ⟨-, rfl⟩ | ⟨-, ⟨-, rfl⟩ | ⟨-, -, rfl⟩ | ⟨-, -, -, rfl⟩ | ⟨hhv, -, hlen, rfl⟩⟩ := execHAppend_cases s t h
    exacts [hinv, hinv.raiseFault _, hinv.raiseFault _, hinv.raiseFault _,
      hinv.absorb hhv _ (by rwa [messageOperand, Vector.length_toList])]
  | hFinal =>
    obtain ⟨-, rfl⟩ | ⟨-, ⟨-, rfl⟩ | ⟨-, rfl⟩⟩ := execHFinal_cases s t h
    exacts [hinv, hinv.raiseFault _, hinv.endHash _ _]
  | rBegin =>
    obtain ⟨-, rfl⟩ | ⟨-, rfl⟩ := execRBegin_cases s t h
    exacts [hinv, hinv.beginRatchet _ _]
  | rBind =>
    obtain ⟨-, rfl⟩ | ⟨-, ⟨-, rfl⟩ | ⟨hrst, rfl⟩⟩ := execRBind_cases s t h
    exacts [hinv, hinv.raiseFault _, hinv.setPattern hrst _ _]
  | rSetpat =>
    obtain ⟨-, rfl⟩ | ⟨-, ⟨-, rfl⟩ | ⟨hrst, rfl⟩⟩ := execRSetpat_cases s t h
    exacts [hinv, hinv.raiseFault _, hinv.setPattern hrst _ _]
  | rStep =>
    obtain ⟨-, rfl⟩ | ⟨-, ⟨-, rfl⟩ | ⟨-, hcur, rfl⟩ | ⟨-, -, -, rfl⟩ | ⟨-, hne, -, rfl⟩⟩ := execRStep_cases s t h
    exacts [hinv, hinv.raiseFault _, hinv.completeRatchet _ _ hcur, hinv.raiseFault _, hinv.roundDone hne]

end Sys2Proof.Machine
end

section
/-! The state statements, part 2: the buffer, the whole invariant over a step, and what a stopped block keeps. -/

namespace Sys2Proof.Machine

/-! ### The buffer -/

/-- No command but the data commands of CipherEngine and `SRST` writes DBUF. -/
theorem exec_dbuf (i : Instr) (s t : State) (h : exec i s = .next t) (hsrst : i ≠ .srst) (henc : i ≠ .cEnc)
    (hencp : i ≠ .cEncp) (hdec : i ≠ .cDec) : t.dbuf = s.dbuf := by
  cases i with
  | srst => exact absurd rfl hsrst
  | cEnc => exact absurd rfl henc
  | cEncp => exact absurd rfl hencp
  | cDec => exact absurd rfl hdec
  | nop => rw [execNop_cases s t h]
  | cInit m kl => obtain ⟨-, rfl⟩ | ⟨-, ⟨-, rfl⟩ | ⟨-, rfl⟩⟩ := execCInit_cases m kl s t h <;> rfl
  | hInit => obtain ⟨-, rfl⟩ | ⟨-, rfl⟩ := execHInit_cases s t h <;> rfl
  | hAppend =>
    obtain ⟨-, rfl⟩ | ⟨-, ⟨-, rfl⟩ | ⟨-, -, rfl⟩ | ⟨-, -, -, rfl⟩ | ⟨-, -, -, rfl⟩⟩ := execHAppend_cases s t h <;> rfl
  | hFinal => obtain ⟨-, rfl⟩ | ⟨-, ⟨-, rfl⟩ | ⟨-, rfl⟩⟩ := execHFinal_cases s t h <;> rfl
  | rBegin => obtain ⟨-, rfl⟩ | ⟨-, rfl⟩ := execRBegin_cases s t h <;> rfl
  | rBind => obtain ⟨-, rfl⟩ | ⟨-, ⟨-, rfl⟩ | ⟨-, rfl⟩⟩ := execRBind_cases s t h <;> rfl
  | rSetpat => obtain ⟨-, rfl⟩ | ⟨-, ⟨-, rfl⟩ | ⟨-, rfl⟩⟩ := execRSetpat_cases s t h <;> rfl
  | rStep =>
    obtain ⟨-, rfl⟩ | ⟨-, ⟨-, rfl⟩ | ⟨-, -, rfl⟩ | ⟨-, -, -, rfl⟩ | ⟨-, -, -, rfl⟩⟩ := execRStep_cases s t h
    case inr.inr.inr.inr => obtain ⟨-, heq⟩ | ⟨-, heq⟩ := roundDone_cases s <;> rw [heq] <;> rfl
    all_goals rfl

/-- Every command stays inside DBUF: the ciphering commands by their bounds checks (rule R76). -/
theorem exec_within (i : Instr) (s t : State) (h : exec i s = .next t)
    (hin : s.dbuf.within s.cfg.bufBytes = true) : t.dbuf.within s.cfg.bufBytes = true := by
  cases i with
  | srst => rw [execSrst_cases s t h]; rfl
  | cEnc =>
    obtain ⟨-, rfl⟩ | ⟨-, ⟨-, rfl⟩ | ⟨-, -, rfl⟩ | ⟨-, -, -, rfl⟩ | ⟨-, -, hfit, rfl⟩⟩ := execCEnc_cases s t h
    exacts [hin, hin, hin, hin,
      (forBlocks_encryptBlock_within _ s ((Nat.mul_div_le _ 16).trans hfit) hin).2]
  | cEncp =>
    obtain ⟨-, rfl⟩ | ⟨-, ⟨-, rfl⟩ | ⟨-, -, rfl⟩ | ⟨-, hfit, rfl⟩⟩ := execCEncp_cases s t h
    exacts [hin, hin, hin,
      (forBlocks_encryptBlock_within _ (memWrite _ _ s) ((Nat.mul_div_le _ 16).trans hfit)
        (within_memWrite _ _ s hfit hin)).2]
  | cDec =>
    obtain ⟨-, rfl⟩ | ⟨-, ⟨-, rfl⟩ | ⟨-, -, rfl⟩ | ⟨-, -, -, rfl⟩ | ⟨-, -, hfit, rfl⟩⟩ := execCDec_cases s t h
    exacts [hin, hin, hin, hin,
      (forBlocks_decryptBlock_within _ s ((Nat.mul_div_le _ 16).trans hfit) hin).2]
  | nop | cInit | hInit | hAppend | hFinal | rBegin | rBind | rSetpat | rStep =>
    rw [exec_dbuf _ s t h nofun nofun nofun nofun]; exact hin

theorem BufferInv.of_same {s t : State} (h : BufferInv s) (hcfg : t.cfg = s.cfg) (hdbuf : t.dbuf = s.dbuf) :
    BufferInv t where
  params := by rw [hcfg]; exact h.params
  canonical := by rw [hdbuf]; exact h.canonical
  inside := by rw [hdbuf, hcfg]; exact h.inside

theorem BufferInv.resetBlock {s : State} (h : BufferInv s) : BufferInv (resetBlock s) :=
  ⟨h.params, rfl, rfl⟩

theorem exec_bufferInv (i : Instr) (s t : State) (h : exec i s = .next t) (hinv : BufferInv s) :
    BufferInv t := by
  have hcfg := exec_cfg i s t h
  exact ⟨hcfg ▸ hinv.params, exec_wf i s t h hinv.canonical, hcfg ▸ exec_within i s t h hinv.inside⟩

/-! ### The whole invariant -/

theorem Inv.of_same {s t : State} (h : Inv s) (hunits : SameUnits s t) (hcfg : t.cfg = s.cfg)
    (hdbuf : t.dbuf = s.dbuf) : Inv t :=
  ⟨h.block.of_sameUnits hunits, h.buffer.of_same hcfg hdbuf⟩

theorem exec_inv (i : Instr) (s t : State) (h : exec i s = .next t) (hinv : Inv s) : Inv t :=
  ⟨exec_blockInv i s t h hinv.block hinv.buffer.canonical, exec_bufferInv i s t h hinv.buffer⟩

theorem Inv.raiseFault {s : State} (h : Inv s) (c : Cause) : Inv (raiseFault c s) :=
  ⟨h.block.raiseFault c, h.buffer.of_same rfl rfl⟩

theorem Inv.resetBlock {s : State} (h : Inv s) : Inv (resetBlock s) :=
  ⟨blockInv_reset.of_sameUnits (SameUnits.resetBlock s), h.buffer.resetBlock⟩

theorem Inv.storeByte {s : State} (h : Inv s) (a : Nat) (b : Byte) (ha : a < s.cfg.bufBytes) :
    Inv (setDbuf (s.dbuf.write a b) s) where
  block := h.block.of_sameUnits (SameUnits.setDbuf _ s)
  buffer := ⟨h.buffer.params, Memory.wf_write _ a b h.buffer.canonical,
    Memory.within_write _ _ a b ha h.buffer.inside⟩

theorem performCommand_inv (w : Word) (s t : State) (h : performCommand w s = .next t) (hinv : Inv s) :
    Inv t := by
  obtain ⟨i, -, hexec⟩ | ⟨e, -, ⟨-, rfl⟩ | ⟨-, rfl⟩⟩ := performCommand_cases w s t h
  exacts [exec_inv i s t hexec hinv, hinv, hinv.raiseFault _]

theorem hostMove_inv (m : HostMove) (s t : State) (h : hostMove m s = .next t) (hinv : Inv s) : Inv t := by
  obtain ⟨r, rfl⟩ | ⟨w, -, hcmd⟩ | ⟨v, -, rfl⟩ | ⟨a, b, -, ha, rfl⟩ | rfl | ⟨-, rfl⟩ := hostMove_cases m s t h
  · exact hinv.of_same (SameUnits.pushReply r s) rfl rfl
  · exact performCommand_inv w s t hcmd hinv
  · exact hinv.of_same (SameUnits.setArg v s) rfl rfl
  · exact hinv.storeByte a b ha
  · exact hinv
  · exact hinv.resetBlock

/-- Settles O20: a step is one host move, and every host move keeps the invariant. -/
theorem stepKeepsInvariant : Obligations.StepKeepsInvariant := by
  intro s t hinv h
  obtain ⟨-, rfl⟩ | ⟨m, rest, -, hmove⟩ := step_cases s t h
  · exact hinv
  · exact hostMove_inv m _ t hmove (hinv.of_same (SameUnits.setHost rest s) rfl rfl)

/-- Settles O19. -/
theorem resetSatisfiesInvariant : Obligations.ResetSatisfiesInvariant := by
  intro c ms hc
  exact ⟨blockInv_reset.of_sameUnits (SameUnits.resetBlock { State.reset with cfg := c, host := ms }), ⟨hc, rfl, rfl⟩⟩

theorem Reachable.inv {s : State} (h : Reachable s) : Inv s := by
  induction h with
  | reset c ms hc => exact resetSatisfiesInvariant c ms hc
  | step s t _ hstep ih => exact stepKeepsInvariant s t ih hstep

/-- Settles O21: the invariant holds at reset and every step keeps it. -/
theorem reachableStatesKeepR45 : Obligations.ReachableStatesKeepR45 := by
  intro s h
  exact h.inv.block

/-- Settles O28, by the frame of the command's unit; DBUF belongs to no unit. -/
theorem commandsLeaveOperandsAlone : Obligations.CommandsLeaveOperandsAlone := by
  intro i s t h
  by_cases hi : i = .srst
  · subst hi
    rw [execSrst_cases s t h]
    exact ⟨rfl, rfl, rfl, fun hne => absurd rfl hne, fun hne => absurd rfl hne⟩
  · obtain ⟨harg, hcfg, hhost, hreplies⟩ := (exec_unitFrame i s t hi h).hostSide
    exact ⟨hcfg, hhost, hreplies, fun _ => harg,
      fun _ henc hencp hdec a => by rw [exec_dbuf i s t h hi henc hencp hdec]⟩

/-! ### How a step performs a command -/

theorem performCommand_of_decode {w : Word} {i : Instr} (s : State) (h : decode w = .ok i) :
    performCommand w s = exec i s := by
  rw [performCommand, h]

theorem step_nil {s : State} (h : s.host = []) : step s = .next s := by
  rw [step, takeMove, h]

theorem step_cons {s : State} {m : HostMove} {rest : List HostMove} (h : s.host = m :: rest) :
    step s = hostMove m (setHost rest s) := by
  rw [step, takeMove, h]

/-- A write to CMD is accepted and performs the word. -/
theorem hostMove_cmd (w : Word) (s : State) : hostMove (.write32 0x000 w) s = performCommand w s := rfl

/-- Every command is decoded from its own word (rules R90, R93). -/
theorem decode_encode_ok (i : Instr) : decode (encode i) = .ok i := by
  cases i with
  | cInit m kl => cases m <;> revert kl <;> decide
  | nop | srst | cEnc | cEncp | cDec | hInit | hAppend | hFinal | rBegin | rBind | rSetpat | rStep => decide

/-- Settles O10. -/
theorem nothingMovesWithoutHost : Obligations.NothingMovesWithoutHost := fun _ h => step_nil h

/-- Settles O6. -/
theorem stepRunsDecodedCommand : Obligations.StepRunsDecodedCommand := by
  intro s w rest i hhost hdec
  rw [step_cons hhost, hostMove_cmd, performCommand_of_decode _ hdec]

theorem ofNat_toNat_mod (w : Word) : BitVec.ofNat 32 (w.toNat % 2 ^ 32) = w := by
  rw [Nat.mod_eq_of_lt w.isLt, BitVec.ofNat_toNat, BitVec.setWidth_eq]

/-- Settles O7: the step performs the placed word, in a state whose remaining moves are those of before. -/
theorem fetchWordRunsCommand : Obligations.FetchWordRunsCommand := by
  intro s i
  have hhost : (s.withFetchWord 32 (encode i).toNat).host = .write32 0x000 (encode i) :: s.host := by
    rw [State.withFetchWord, placeCommand, setHost_host, ofNat_toNat_mod]
  exact stepRunsDecodedCommand _ _ _ i hhost (decode_encode_ok i)

end Sys2Proof.Machine
end

section
/-! The state statements, part 3: a stopped block, the STATUS word and what the host can read. -/

namespace Sys2Proof.Machine

/-! ### A stopped block -/

/-- The four fields of a word (rule R91), from the most significant down, are the whole word. -/
theorem word_eq_fields (w : Word) : w = fieldRsv w ++ (fieldKL w ++ (fieldM w ++ fieldOp w)) := by
  simp only [fieldRsv, fieldKL, fieldM, fieldOp]
  iterate 3 rw [BitVec.extractLsb'_append_extractLsb'_eq_extractLsb' (by rfl)]
  exact BitVec.extractLsb'_eq_self.symm

/-- The one row of `SRST` in the opcode map (rule R93). -/
theorem plainOpcodes_srst (op : BitVec 8) (h : (op, Instr.srst) ∈ plainOpcodes) : op = 0x01 := by
  simpa [plainOpcodes] using h

/-- The one word of `SRST` (rule R93). -/
theorem decode_eq_srst {w : Word} (h : decode w = .ok .srst) : w = 0x00000001 := by
  unfold decode at h
  split at h
  · cases h
  next hrsv =>
    split at h
    · cases h
    · split at h
      · cases h
      next row hrow =>
        split at h
        next hfields =>
          obtain ⟨op, i⟩ := row
          obtain ⟨hm, hkl⟩ := hfields
          obtain rfl : i = .srst := Except.ok.inj h
          have hmatch : op = fieldOp w := by simpa using List.find?_some hrow
          have hop : op = 0x01 := plainOpcodes_srst op (List.mem_of_find?_eq_some hrow)
          rw [word_eq_fields w, Decidable.not_not.mp hrsv, hkl, hm, ← hmatch, hop]
          rfl
        · cases h

/-- While ERR = 1 every command but `SRST` is ignored (rules R100, R244). -/
theorem exec_stopped (i : Instr) (s : State) (hi : i ≠ .srst) (herr : s.err = true) : exec i s = .next s := by
  cases i with
  | srst => exact absurd rfl hi
  | nop | cInit | cEnc | cEncp | cDec | hInit | hAppend | hFinal | rBegin | rBind | rSetpat | rStep =>
    exact unlessStopped_stopped s _ herr

/-- A write to CMD of any word but that of `SRST` leaves a stopped block as it is. -/
theorem performCommand_stopped (w : Word) (s t : State) (hw : w ≠ 0x00000001) (herr : s.err = true)
    (h : performCommand w s = .next t) : t = s := by
  obtain ⟨i, hdec, hexec⟩ | ⟨e, -, ⟨-, rfl⟩ | ⟨hrun, -⟩⟩ := performCommand_cases w s t h
  · have hi : i ≠ .srst := fun hc => hw (decode_eq_srst (hc ▸ hdec))
    rw [exec_stopped i s hi herr] at hexec
    exact (Host.Outcome.next.inj hexec).symm
  · rfl
  · exact absurd (herr.symm.trans hrun) nofun

theorem hostMove_stopped (m : HostMove) (s t : State) (hm : m.resets = false) (herr : s.err = true)
    (h : hostMove m s = .next t) : SameUnits s t := by
  obtain ⟨r, rfl⟩ | ⟨w, rfl, hcmd⟩ | ⟨v, -, rfl⟩ | ⟨a, b, -, -, rfl⟩ | rfl | ⟨rfl, -⟩ := hostMove_cases m s t h
  · exact SameUnits.pushReply r s
  · have hw : w ≠ 0x00000001 := by simpa [HostMove.resets] using hm
    rw [performCommand_stopped w s t hw herr hcmd]
    exact SameUnits.refl s
  · exact SameUnits.setArg v s
  · exact SameUnits.setDbuf _ s
  · exact SameUnits.refl t
  · cases hm

theorem runMoves_stopped (ms : List HostMove) (s t : State) (herr : s.err = true)
    (hms : ∀ m ∈ ms, m.resets = false) (h : runMoves ms s = .next t) : SameUnits s t := by
  induction ms generalizing s with
  | nil => rw [Host.Outcome.next.inj h]; exact SameUnits.refl t
  | cons m ms ih =>
    obtain ⟨hm, hrest⟩ := List.forall_mem_cons.mp hms
    simp only [runMoves] at h
    split at h
    · have hone := hostMove_stopped m s _ hm herr ‹_›
      exact hone.trans (ih _ (hone.error.1.trans herr) hrest h)
    · cases h
    · cases h

/-- Settles O26, by induction over the moves of the run. -/
theorem onlyResetLeavesStop : Obligations.OnlyResetLeavesStop := by
  intro ms s t herr hms h
  have hsame := runMoves_stopped ms s t herr hms h
  exact ⟨hsame.error, hsame.cipher, hsame.hash, hsame.ratchet⟩

/-! ### STATUS and the reads -/

theorem flagBit_getLsbD_zero (b : Bool) : (flagBit b).getLsbD 0 = b := by cases b <;> rfl

theorem cipherModeBit_getLsbD_zero (m : Mode) : (cipherModeBit m).getLsbD 0 = decide (m = .cbc) := by
  cases m <;> rfl

/-- Settles O12: the word is an append of its fields, of which each is found by dropping the ones below it. -/
theorem statusFields : Obligations.StatusFields := by
  intro s
  unfold statusWord
  refine ⟨?err, ?cv, ?hv, ?rdone, ?rst, ?cm, ?ckl, ?ecode, ?pv, ?zeros⟩
  case err | cv | hv | rdone | pv =>
    repeat rw [BitVec.getLsbD_append]
    exact flagBit_getLsbD_zero _
  case cm =>
    repeat rw [BitVec.getLsbD_append]
    exact cipherModeBit_getLsbD_zero _
  case ckl | ecode | rst =>
    repeat rw [BitVec.extractLsb'_append_eq_of_le (by decide)]
    exact BitVec.extractLsb'_append_eq_right
  case zeros =>
    repeat rw [BitVec.extractLsb'_append_eq_of_le (by decide)]
    exact BitVec.extractLsb'_eq_self

/-- STATUS is made of visible elements only. -/
theorem SameVisible.statusWord {s u : State} (h : SameVisible s u) : statusWord u = statusWord s := by
  obtain ⟨-, herr, hecode, hcv, hhv, hpv, hrdone, hrst, hcm, hckl, -⟩ := h
  simp only [Machine.statusWord, herr, hecode, hcv, hhv, hpv, hrdone, hrst, hcm, hckl]

theorem SameVisible.busRead32 {s u : State} (h : SameVisible s u) (off : Nat) :
    busRead32 off u = busRead32 off s := by
  obtain ⟨harg, -, -, -, -, -, -, -, -, -, hcur, htarget, -, -, hcfg, -⟩ := id h
  simp only [Machine.busRead32, h.statusWord, harg, hcur, htarget, hcfg]

theorem SameVisible.busRead8 {s u : State} (h : SameVisible s u) (off : Nat) :
    busRead8 off u = busRead8 off s := by
  obtain ⟨-, -, -, -, -, -, -, -, -, -, -, -, hdigest, hwork, hcfg, hbuf⟩ := h
  simp only [Machine.busRead8, hdigest, hwork, hcfg, hbuf (off - 0x100)]

/-- Settles O17: both reads are functions of the visible elements. -/
theorem hiddenStateUnreadable : Obligations.HiddenStateUnreadable :=
  fun _ _ h off => ⟨(h.busRead32 off).symm, (h.busRead8 off).symm⟩

end Sys2Proof.Machine
end

section
/-! The state statements, part 4: the words of the expanded key (rules R33, R127, R136). -/

namespace Sys2Proof.Machine

/-! ### The key schedule as a list of words -/

theorem keyScheduleFrom_length (nk : Nat) (w : List KeyWord) (n : Nat) :
    (keyScheduleFrom nk w n).length = w.length + n := by
  induction n with
  | zero => rfl
  | succ n ih => rw [keyScheduleFrom, List.length_append, ih, List.length_singleton, Nat.add_assoc]

/-- The words already there stay as they are while the schedule grows. -/
theorem keyScheduleFrom_getD_of_lt (nk : Nat) (w : List KeyWord) (z : KeyWord) {m n j : Nat} (hmn : m ≤ n)
    (hj : j < w.length + m) : (keyScheduleFrom nk w n).getD j z = (keyScheduleFrom nk w m).getD j z := by
  induction n, hmn using Nat.le_induction with
  | base => rfl
  | succ n hmn ih =>
    have hlt : j < (keyScheduleFrom nk w n).length := by rw [keyScheduleFrom_length]; omega
    rw [keyScheduleFrom, List.getD_append _ _ _ _ hlt, ih]

/-- The word that the schedule appends after `m` words beyond the key. -/
theorem keyScheduleFrom_getD_next (nk : Nat) (w : List KeyWord) (z : KeyWord) {m n : Nat} (hmn : m < n) :
    (keyScheduleFrom nk w n).getD (w.length + m) z = nextKeyWord nk (keyScheduleFrom nk w m) := by
  rw [keyScheduleFrom_getD_of_lt nk w z hmn (by omega), keyScheduleFrom,
    List.getD_append_right _ _ _ _ (by rw [keyScheduleFrom_length]), keyScheduleFrom_length, Nat.sub_self]
  rfl

/-- The recurrence of rule R127: each appended word, from the word `nk` before it and the word before it. -/
theorem keyScheduleFrom_recurrence (nk : Nat) (w : List KeyWord) {n j : Nat} (hnk : 0 < nk) (hw : w.length = nk)
    (hle : nk ≤ j) (hlt : j < nk + n) :
    (keyScheduleFrom nk w n).getD j (zeroBytes 4)
      = xorBytes ((keyScheduleFrom nk w n).getD (j - nk) (zeroBytes 4))
          (scheduleTemp nk j ((keyScheduleFrom nk w n).getD (j - 1) (zeroBytes 4))) := by
  obtain ⟨m, rfl⟩ := Nat.exists_eq_add_of_le hle
  have hmn : m < n := by omega
  have hnext := keyScheduleFrom_getD_next nk w (zeroBytes 4) hmn
  rw [hw] at hnext
  rw [hnext, nextKeyWord, keyScheduleFrom_length, hw,
    keyScheduleFrom_getD_of_lt nk w _ hmn.le (j := nk + m - nk) (by omega),
    keyScheduleFrom_getD_of_lt nk w _ hmn.le (j := nk + m - 1) (by omega)]

/-! ### The schedule of a key -/

theorem keyWordCount_pos (kl : BitVec 2) : 0 < keyWordCount kl := by rw [keyWordCount_eq]; omega

theorem keyWordCount_le_words (kl : BitVec 2) : keyWordCount kl ≤ 4 * (roundCount kl + 1) := by
  rw [roundCount]; omega

theorem keySchedule_length (kl : BitVec 2) (key : Bytes (keyBytes kl)) :
    (keySchedule kl key).length = 4 * (roundCount kl + 1) := by
  rw [keySchedule, keyScheduleFrom_length, List.length_map, List.length_range,
    Nat.add_sub_cancel' (keyWordCount_le_words kl)]

/-- The first Nk words are the key. -/
theorem keySchedule_getD_key (kl : BitVec 2) (key : Bytes (keyBytes kl)) {j : Nat} (hj : j < keyWordCount kl) :
    (keySchedule kl key).getD j (zeroBytes 4) = keyWord key j := by
  rw [keySchedule, keyScheduleFrom_getD_of_lt _ _ _ (Nat.zero_le _) (by simpa using hj), keyScheduleFrom]
  simp [hj]

theorem keySchedule_recurrence (kl : BitVec 2) (key : Bytes (keyBytes kl)) {j : Nat} (hle : keyWordCount kl ≤ j)
    (hlt : j < 4 * (roundCount kl + 1)) :
    (keySchedule kl key).getD j (zeroBytes 4)
      = xorBytes ((keySchedule kl key).getD (j - keyWordCount kl) (zeroBytes 4))
          (scheduleTemp (keyWordCount kl) j ((keySchedule kl key).getD (j - 1) (zeroBytes 4))) :=
  keyScheduleFrom_recurrence _ _ (keyWordCount_pos kl) (by simp) hle (by omega)

/-! ### The bytes and words of RK -/

theorem byteAt_keyWord {n : Nat} (key : Bytes n) (j : Nat) {i : Nat} (hi : i < 4) :
    byteAt (keyWord key j) i = byteAt key (4 * j + i) := by
  rw [keyWord, byteAt_ofFn _ _ hi]

theorem byteAt_expandedKey (kl : BitVec 2) (key : Bytes (keyBytes kl)) {i : Nat} (hi : i < 240) :
    byteAt (expandedKey kl key) i = byteAt ((keySchedule kl key).getD (i / 4) (zeroBytes 4)) (i % 4) := by
  unfold expandedKey
  exact byteAt_ofFn _ i hi

/-- Word `j` of RK is word `j` of the schedule (rule R127). -/
theorem keyWord_expandedKey (kl : BitVec 2) (key : Bytes (keyBytes kl)) {j : Nat} (hj : j < 60) :
    keyWord (expandedKey kl key) j = (keySchedule kl key).getD j (zeroBytes 4) := by
  refine bytes_ext _ _ fun i hi => ?_
  rw [byteAt_keyWord _ _ hi, byteAt_expandedKey kl key (by omega), show (4 * j + i) / 4 = j by omega,
    show (4 * j + i) % 4 = i by omega]

theorem byteAt_expandedKey_key (kl : BitVec 2) (key : Bytes (keyBytes kl)) {i : Nat} (hi : i < keyBytes kl) :
    byteAt (expandedKey kl key) i = byteAt key i := by
  have hbytes : keyBytes kl ≤ 40 := by unfold keyBytes; omega
  have hword : i / 4 < keyWordCount kl := by unfold keyWordCount; unfold keyBytes at *; omega
  rw [byteAt_expandedKey kl key (by omega), keySchedule_getD_key kl key hword,
    byteAt_keyWord _ _ (Nat.mod_lt i (by decide)), Nat.div_add_mod]

theorem byteAt_expandedKey_beyond (kl : BitVec 2) (key : Bytes (keyBytes kl)) {i : Nat}
    (hi : 16 * (roundCount kl + 1) ≤ i) : byteAt (expandedKey kl key) i = 0 := by
  by_cases h240 : i < 240
  · have hend : (keySchedule kl key).length ≤ i / 4 := by rw [keySchedule_length]; omega
    rw [byteAt_expandedKey kl key h240, List.getD_eq_default _ _ hend, byteAt_zeroBytes]
  · exact byteAt_of_ge _ i (by omega)

/-- Settles O33, through the words of the schedule; a legal key length gives at most the 60 words that RK holds. -/
theorem expandedKeyWords : Obligations.ExpandedKeyWords := by
  intro kl key hkl
  refine ⟨fun i hi => byteAt_expandedKey_key kl key hi, fun j hle hlt => ?_,
    fun i hi => byteAt_expandedKey_beyond kl key hi⟩
  have hj : j < 60 := by
    have hkl2 := keyLength_le_two hkl
    rw [roundCount_eq] at hlt
    omega
  rw [keyWord_expandedKey kl key hj, keyWord_expandedKey kl key (by omega : j - keyWordCount kl < 60),
    keyWord_expandedKey kl key (by omega : j - 1 < 60)]
  exact keySchedule_recurrence kl key hle hlt

end Sys2Proof.Machine
end

section
/-! The memory statements, part 1: the bus (rules R61 to R69). What each bus function answers is said once an address, in
the order of the address map; the statements about a step go through `step_cons` and these equations. -/

namespace Sys2Proof.Machine

/-! ### The address map -/

theorem isRegister_iff (off : Nat) :
    isRegister off = true ↔ off = 0x000 ∨ off = 0x004 ∨ off = 0x008 ∨ off = 0x00C ∨ off = 0x010 ∨ off = 0x014 := by
  simp only [isRegister, Bool.and_eq_true, beq_iff_eq, decide_eq_true_eq]
  omega

theorem isResultWindow_iff (off : Nat) : isResultWindow off = true ↔ 0x040 ≤ off ∧ off ≤ 0x07F := by
  simp only [isResultWindow, Bool.and_eq_true, decide_eq_true_eq]

theorem isBufferWindow_iff (c : Config) (off : Nat) :
    isBufferWindow c off = true ↔ 0x100 ≤ off ∧ off ≤ 0x0FF + c.bufBytes := by
  simp only [isBufferWindow, Bool.and_eq_true, decide_eq_true_eq]

/-- The byte accesses that the bus accepts lie in a window of rules R67 and R68. -/
theorem accepted_read8_iff (c : Config) (off : Nat) :
    (HostMove.read8 off).accepted c = true
      ↔ (0x040 ≤ off ∧ off ≤ 0x07F) ∨ (0x100 ≤ off ∧ off ≤ 0x0FF + c.bufBytes) := by
  rw [HostMove.accepted, Bool.or_eq_true, isResultWindow_iff, isBufferWindow_iff]

/-- A byte write is accepted where a byte read is. -/
theorem accepted_write8 (c : Config) (off : Nat) (b : Byte) :
    (HostMove.write8 off b).accepted c = (HostMove.read8 off).accepted c := rfl

/-! ### What the bus functions answer -/

section Answers

variable {off : Nat} (s : State)

theorem busRead32_of_not_register (h : isRegister off = false) : busRead32 off s = none := by
  have hoff := mt (isRegister_iff off).mpr (Bool.eq_false_iff.mp h)
  rw [busRead32, if_neg (by omega), if_neg (by omega), if_neg (by omega), if_neg (by omega), if_neg (by omega),
    if_neg (by omega)]

theorem busRead32_of_register (h : isRegister off = true) : ∃ v, busRead32 off s = some v := by
  obtain rfl | rfl | rfl | rfl | rfl | rfl := (isRegister_iff off).mp h <;> exact ⟨_, rfl⟩

theorem busRead8_digest (hlo : 0x040 ≤ off) (hhi : off ≤ 0x05F) :
    busRead8 off s = some (byteAt s.digest (off - 0x040)) := by
  rw [busRead8, if_pos (by omega)]

theorem busRead8_work (hlo : 0x060 ≤ off) (hhi : off ≤ 0x07F) :
    busRead8 off s = some (byteAt s.ratchet.work (off - 0x060)) := by
  rw [busRead8, if_neg (by omega), if_pos (by omega)]

theorem busRead8_dbuf (hlo : 0x100 ≤ off) (hhi : off ≤ 0x0FF + s.cfg.bufBytes) :
    busRead8 off s = some (s.dbuf.read (off - 0x100)) := by
  rw [busRead8, if_neg (by omega), if_neg (by omega), if_pos (by omega)]

theorem busRead8_refused (h : (HostMove.read8 off).accepted s.cfg = false) : busRead8 off s = none := by
  have hoff := mt (accepted_read8_iff s.cfg off).mpr (Bool.eq_false_iff.mp h)
  rw [busRead8, if_neg (by omega), if_neg (by omega), if_neg (by omega)]

theorem busRead8_accepted (h : (HostMove.read8 off).accepted s.cfg = true) :
    ∃ b, busRead8 off s = some b := by
  obtain ⟨hlo, hhi⟩ | ⟨hlo, hhi⟩ := (accepted_read8_iff s.cfg off).mp h
  · by_cases hdigest : off ≤ 0x05F
    · exact ⟨_, busRead8_digest s hlo hdigest⟩
    · exact ⟨_, busRead8_work s (by omega) hhi⟩
  · exact ⟨_, busRead8_dbuf s hlo hhi⟩

theorem busWrite32_cmd (v : Word) : busWrite32 0x000 v s = some (performCommand v s) := rfl

theorem busWrite32_arg (v : Word) : busWrite32 0x004 v s = some (.next (setArg v s)) := rfl

/-- The registers that a write does not change (rule R65). -/
theorem busWrite32_readOnly (v : Word) (h : off = 0x008 ∨ off = 0x00C ∨ off = 0x010 ∨ off = 0x014) :
    busWrite32 off v s = some (.next s) := by
  rw [busWrite32, if_neg (by omega), if_neg (by omega), if_pos h]

theorem busWrite32_of_not_register (v : Word) (h : isRegister off = false) : busWrite32 off v s = none := by
  have hoff := mt (isRegister_iff off).mpr (Bool.eq_false_iff.mp h)
  rw [busWrite32, if_neg (by omega), if_neg (by omega), if_neg (by omega)]

/-- A CMD write always has a next state, for a command of any word and a stopped block alike. -/
theorem performCommand_next (w : Word) : ∃ t, performCommand w s = .next t := by
  cases hdec : decode w with
  | ok i => rw [performCommand_of_decode s hdec]; exact exec_next i s
  | error e => rw [performCommand, hdec]; exact unlessStopped_next _ _ ⟨_, rfl⟩

theorem busWrite32_of_register (v : Word) (h : isRegister off = true) :
    ∃ t, busWrite32 off v s = some (.next t) := by
  obtain rfl | rfl | hro := (isRegister_iff off).mp h
  · obtain ⟨t, ht⟩ := performCommand_next s v
    exact ⟨t, by rw [busWrite32_cmd, ht]⟩
  · exact ⟨_, busWrite32_arg s v⟩
  · exact ⟨_, busWrite32_readOnly s v hro⟩

theorem busWrite8_dbuf (b : Byte) (hlo : 0x100 ≤ off) (hhi : off ≤ 0x0FF + s.cfg.bufBytes) :
    busWrite8 off b s = some (setDbuf (s.dbuf.write (off - 0x100) b) s) := by
  rw [busWrite8, if_pos (by omega)]

theorem busWrite8_result (b : Byte) (hlo : 0x040 ≤ off) (hhi : off ≤ 0x07F) : busWrite8 off b s = some s := by
  rw [busWrite8, if_neg (by omega), if_pos (by omega)]

theorem busWrite8_refused (b : Byte) (h : (HostMove.read8 off).accepted s.cfg = false) :
    busWrite8 off b s = none := by
  have hoff := mt (accepted_read8_iff s.cfg off).mpr (Bool.eq_false_iff.mp h)
  rw [busWrite8, if_neg (by omega), if_neg (by omega)]

theorem busWrite8_accepted (b : Byte) (h : (HostMove.read8 off).accepted s.cfg = true) :
    ∃ t, busWrite8 off b s = some t := by
  obtain ⟨hlo, hhi⟩ | ⟨hlo, hhi⟩ := (accepted_read8_iff s.cfg off).mp h
  · exact ⟨_, busWrite8_result s b hlo hhi⟩
  · exact ⟨_, busWrite8_dbuf s b hlo hhi⟩

end Answers

/-! ### What a host move makes of the answer -/

section Moves

variable {off : Nat} {s : State}

theorem hostMove_read32_some {v : Word} (h : busRead32 off s = some v) :
    hostMove (.read32 off) s = .next (pushReply (.word v) s) := by
  rw [hostMove, h]

theorem hostMove_read32_none (h : busRead32 off s = none) :
    hostMove (.read32 off) s = .fault (.busError (.read32 off)) := by
  rw [hostMove, h]

theorem hostMove_read8_some {b : Byte} (h : busRead8 off s = some b) :
    hostMove (.read8 off) s = .next (pushReply (.byte b) s) := by
  rw [hostMove, h]

theorem hostMove_read8_none (h : busRead8 off s = none) :
    hostMove (.read8 off) s = .fault (.busError (.read8 off)) := by
  rw [hostMove, h]

theorem hostMove_write32_some {v : Word} {r : Result} (h : busWrite32 off v s = some r) :
    hostMove (.write32 off v) s = r := by
  rw [hostMove, h, Option.getD_some]

theorem hostMove_write32_none {v : Word} (h : busWrite32 off v s = none) :
    hostMove (.write32 off v) s = .fault (.busError (.write32 off v)) := by
  rw [hostMove, h, Option.getD_none]

theorem hostMove_write8_some {b : Byte} {t : State} (h : busWrite8 off b s = some t) :
    hostMove (.write8 off b) s = .next t := by
  rw [hostMove, h]

theorem hostMove_write8_none {b : Byte} (h : busWrite8 off b s = none) :
    hostMove (.write8 off b) s = .fault (.busError (.write8 off b)) := by
  rw [hostMove, h]

end Moves

theorem hostMove_refused (m : HostMove) (s : State) (h : m.accepted s.cfg = false) :
    hostMove m s = .fault (.busError m) := by
  cases m with
  | read32 off => exact hostMove_read32_none (busRead32_of_not_register s h)
  | read8 off => exact hostMove_read8_none (busRead8_refused s h)
  | write32 off v => exact hostMove_write32_none (busWrite32_of_not_register s v h)
  | write8 off b => exact hostMove_write8_none (busWrite8_refused s b (accepted_write8 _ off b ▸ h))
  | read16 off | write16 off v => rfl
  | hardReset => cases h

theorem hostMove_accepted (m : HostMove) (s : State) (h : m.accepted s.cfg = true) : ∃ t, hostMove m s = .next t := by
  cases m with
  | read32 off =>
    obtain ⟨v, hv⟩ := busRead32_of_register s h
    exact ⟨_, hostMove_read32_some hv⟩
  | read8 off =>
    obtain ⟨b, hb⟩ := busRead8_accepted s h
    exact ⟨_, hostMove_read8_some hb⟩
  | write32 off v =>
    obtain ⟨t, ht⟩ := busWrite32_of_register s v h
    exact ⟨t, hostMove_write32_some ht⟩
  | write8 off b =>
    obtain ⟨t, ht⟩ := busWrite8_accepted s b (accepted_write8 _ off b ▸ h)
    exact ⟨t, hostMove_write8_some ht⟩
  | read16 off | write16 off v => cases h
  | hardReset => exact ⟨_, rfl⟩

/-! ### The statements -/

/-- Settles O11: each register's read answers its value, and taking the move off the host's list changes no register. -/
theorem registerReads : Obligations.RegisterReads := by
  intro s rest off v hmem hhost
  have hread : busRead32 off (setHost rest s) = some v := by
    simp only [List.mem_cons, Prod.mk.injEq, List.not_mem_nil, or_false] at hmem
    obtain ⟨rfl, rfl⟩ | ⟨rfl, rfl⟩ | ⟨rfl, rfl⟩ | ⟨rfl, rfl⟩ | ⟨rfl, rfl⟩ | ⟨rfl, rfl⟩ := hmem <;> rfl
  rw [step_cons hhost, hostMove_read32_some hread]
  rfl

/-- Settles O13. -/
theorem registerWrites : Obligations.RegisterWrites := by
  intro s rest off v hhost
  rw [step_cons hhost]
  refine ⟨fun hcmd => ?_, fun harg => ?_, fun hro => ?_⟩
  · subst hcmd
    exact hostMove_write32_some (busWrite32_cmd _ v)
  · subst harg
    exact hostMove_write32_some (busWrite32_arg _ v)
  · exact hostMove_write32_some (busWrite32_readOnly _ v (by simpa using hro))

/-- Settles O14. -/
theorem windowReads : Obligations.WindowReads := by
  intro s rest off hhost
  rw [step_cons hhost]
  exact ⟨fun hlo hhi => hostMove_read8_some (busRead8_digest _ hlo hhi),
    fun hlo hhi => hostMove_read8_some (busRead8_work _ hlo hhi),
    fun hlo hhi => hostMove_read8_some (busRead8_dbuf (setHost rest s) hlo hhi)⟩

/-- Settles O15: the new buffer is the old one with one byte stored, which reads back as `Memory.read_write` says. -/
theorem windowWrites : Obligations.WindowWrites := by
  intro s rest off b hhost hwf
  rw [step_cons hhost]
  refine ⟨fun hlo hhi => ⟨s.dbuf.write (off - 0x100) b, ?_, Memory.wf_write _ _ b hwf, fun a => ?_⟩, fun hlo hhi => ?_⟩
  · exact hostMove_write8_some (busWrite8_dbuf (setHost rest s) b hlo hhi)
  · exact Memory.read_write s.dbuf _ a b hwf
  · exact hostMove_write8_some (busWrite8_result _ b hlo hhi)

/-- Settles O16: whether a move is accepted depends on the parameters alone, which taking it off the host's list keeps. -/
theorem refusedAccessIsBusError : Obligations.RefusedAccessIsBusError := by
  intro s m rest hhost
  rw [step_cons hhost]
  exact ⟨hostMove_refused m (setHost rest s), hostMove_accepted m (setHost rest s)⟩

end Sys2Proof.Machine
end

section
/-! The memory statements, part 2: what `C_INIT` reads of the operand buffer (rules R75, R136). -/

namespace Sys2Proof.Machine

/-- The key operand depends on the bytes of DBUF[0..16+8*KL) only (rule R75). -/
theorem keyOperand_congr (kl : BitVec 2) {s u : State}
    (h : ∀ a, a < 16 + 8 * kl.toNat → u.dbuf.read a = s.dbuf.read a) : keyOperand kl u = keyOperand kl s :=
  memRead_congr 0 _ u s fun i hi => by rw [Nat.zero_add]; exact h i hi

/-- The IV operand depends on the bytes of DBUF[32..48) only (rule R75). -/
theorem ivOperand_congr {s u : State} (h : ∀ a, 32 ≤ a → a < 48 → u.dbuf.read a = s.dbuf.read a) :
    ivOperand u = ivOperand s :=
  memRead_congr 32 16 u s fun i hi => h (32 + i) (by omega) (by omega)

/-- In ECB mode the vector is zero, so the IV operand plays no part (rule R136). -/
theorem initialCipher_congr (m : Mode) (kl : BitVec 2) {s u : State} (hkey : keyOperand kl u = keyOperand kl s)
    (hiv : m = .cbc → ivOperand u = ivOperand s) : initialCipher m kl u = initialCipher m kl s := by
  cases m with
  | ecb => rw [initialCipher, initialCipher, hkey]
  | cbc => rw [initialCipher, initialCipher, hkey, hiv rfl]

/-- `C_INIT` where no fault applies (rule R136). -/
theorem exec_cInit_running (m : Mode) {kl : BitVec 2} {s : State} (herr : s.err = false) (hkl : kl ≠ 3) :
    exec (.cInit m kl) s = .next (setCipher (initialCipher m kl s) s) := by
  rw [exec, execCInit, unlessStopped_running _ _ herr, if_neg hkl]

/-- Settles O35: the CipherState is made of the mode, the length code and the two operands. -/
theorem cInitReadsOnlyKeyAndIv : Obligations.CInitReadsOnlyKeyAndIv := by
  intro m kl s u hs hu hkl hkey hiv
  refine ⟨_, _, exec_cInit_running m hs hkl, exec_cInit_running m hu hkl, ?_⟩
  rw [setCipher_cipher, setCipher_cipher]
  exact initialCipher_congr m kl (keyOperand_congr kl hkey) fun hm => ivOperand_congr (hiv hm)

end Sys2Proof.Machine
end

section
/-! The encoding statements, part 1: the fields of a command's word and the round trips (rules R90, R91, R93, R95). The decoder is
opened once, in `encodeDecodeExact`; from there on a word decodes to a command exactly if it is `encode` of the command. -/

namespace Sys2Proof.Machine

/-! ### The fields of a command's word -/

@[simp] theorem modeBit_modeOfBit (b : BitVec 1) : modeBit (modeOfBit b) = b := by
  revert b; decide

theorem modeBit_eq_one_iff (m : Mode) : modeBit m = 1 ↔ m = .cbc := by
  cases m <;> decide

@[simp] theorem fieldOp_encode (i : Instr) : fieldOp (encode i) = opcode i :=
  BitVec.extractLsb'_append_eq_right

/-- Bits 10:8 of a command's word, KL above M. -/
theorem operandFields_encode (i : Instr) : fieldKL (encode i) ++ fieldM (encode i) = operandBits i := by
  rw [fieldKL, fieldM, BitVec.extractLsb'_append_extractLsb'_eq_extractLsb' (by rfl), encode,
    BitVec.extractLsb'_append_eq_of_le (by decide)]
  exact BitVec.extractLsb'_append_eq_right

@[simp] theorem fieldRsv_encode (i : Instr) : fieldRsv (encode i) = 0 := by
  rw [fieldRsv, encode, BitVec.extractLsb'_append_eq_of_le (by decide)]
  exact BitVec.extractLsb'_append_eq_left

/-- A word in the grouping of `encode`: RSV, bits 10:8, OP. -/
theorem word_eq_groups (w : Word) : w = fieldRsv w ++ (fieldKL w ++ fieldM w) ++ fieldOp w := by
  rw [BitVec.append_assoc, BitVec.append_assoc]
  exact word_eq_fields w

/-- A word is the word of `i` exactly if its fields are those of `i` (rules R90, R91). -/
theorem encode_eq_iff (i : Instr) (w : Word) :
    encode i = w ↔ fieldRsv w = 0 ∧ fieldKL w ++ fieldM w = operandBits i ∧ fieldOp w = opcode i := by
  constructor
  · rintro rfl
    exact ⟨fieldRsv_encode i, operandFields_encode i, fieldOp_encode i⟩
  · rintro ⟨hrsv, hbits, hop⟩
    rw [word_eq_groups w, hrsv, hbits, hop, encode]

/-- The word of `C_INIT` carries the mode in M and the key length code in KL (rule R90). -/
theorem fields_encode_cInit (m : Mode) (kl : BitVec 2) :
    fieldM (encode (.cInit m kl)) = modeBit m ∧ fieldKL (encode (.cInit m kl)) = kl := by
  have h : fieldKL (encode (.cInit m kl)) ++ fieldM (encode (.cInit m kl)) = kl ++ modeBit m :=
    operandFields_encode (.cInit m kl)
  constructor
  · simpa only [BitVec.extractLsb'_append_eq_right] using congrArg (BitVec.extractLsb' 0 1) h
  · simpa only [BitVec.extractLsb'_append_eq_left] using congrArg (BitVec.extractLsb' 1 2) h

/-- A word with RSV = 0 and the opcode of `C_INIT` is the word of the `C_INIT` with its M and KL (rules R90, R94). -/
theorem encode_cInit_of_fields {w : Word} (hrsv : fieldRsv w = 0) (hop : fieldOp w = opCInit) :
    encode (.cInit (modeOfBit (fieldM w)) (fieldKL w)) = w :=
  (encode_eq_iff _ w).mpr ⟨hrsv, by rw [operandBits, modeBit_modeOfBit], hop⟩

/-- A row of the opcode map holds the opcode of its command, which has no operand fields. -/
theorem plainOpcodes_row : ∀ row ∈ plainOpcodes, opcode row.2 = row.1 ∧ operandBits row.2 = 0 := by
  decide

/-- A word with RSV, M and KL zero is the word of the command that the opcode map gives for its OP (rules R90, R93). -/
theorem encode_of_plainOpcodes {w : Word} {i : Instr} (hrsv : fieldRsv w = 0) (hm : fieldM w = 0)
    (hkl : fieldKL w = 0) (hrow : (fieldOp w, i) ∈ plainOpcodes) : encode i = w := by
  obtain ⟨hop, hbits⟩ := plainOpcodes_row _ hrow
  exact (encode_eq_iff i w).mpr ⟨hrsv, by rw [hm, hkl, hbits]; rfl, hop.symm⟩

/-! ### The round trips -/

/-- Settles O1. -/
theorem decodeEncodeRoundTrip : Obligations.DecodeEncodeRoundTrip := decode_encode_ok

/-- Settles O2, along the branches of the decoder that answer a command. -/
theorem encodeDecodeExact : Obligations.EncodeDecodeExact := by
  intro w i h
  unfold decode at h
  split at h
  · cases h
  next hrsv =>
    have hrsv := Decidable.not_not.mp hrsv
    split at h
    next hinit => rw [← Except.ok.inj h, encode_cInit_of_fields hrsv hinit]
    · split at h
      · cases h
      next row hrow =>
        split at h
        next hfields =>
          have hop : row.1 = fieldOp w := by simpa using List.find?_some hrow
          have hmem : (fieldOp w, row.2) ∈ plainOpcodes := hop ▸ List.mem_of_find?_eq_some hrow
          rw [← Except.ok.inj h, encode_of_plainOpcodes hrsv hfields.1 hfields.2 hmem]
        · cases h

/-- The words that decode are the words of the commands, each to its own (rules R90, R95). -/
theorem decode_eq_ok_iff {w : Word} {i : Instr} : decode w = .ok i ↔ encode i = w :=
  ⟨encodeDecodeExact w i, fun h => h ▸ decode_encode_ok i⟩

theorem encode_injective {i j : Instr} (h : encode i = encode j) : i = j :=
  Except.ok.inj (((decode_encode_ok i).symm.trans (congrArg decode h)).trans (decode_encode_ok j))

/-- Settles O4, by running the decoder on each word. -/
theorem sampleWordsDecode : Obligations.SampleWordsDecode := by
  unfold Obligations.SampleWordsDecode
  decide

end Sys2Proof.Machine
end

section
/-! The encoding statements, part 2: which words are a command's word, said by the rows of the opcode table (rule R93), by the
fields (rule R94) and by what a write to CMD does (rule R100). -/

namespace Sys2Proof.Machine

/-! ### The rows of the opcode table -/

theorem opcode_eq_opCInit_iff (i : Instr) : opcode i = opCInit ↔ ∃ m kl, i = .cInit m kl := by
  cases i <;> simp [opcode, opCInit]

/-- The row of a command without operand fields is its word, with every bit compared (rule R93). -/
theorem tableRow_of_opcode_ne (i : Instr) (h : opcode i ≠ opCInit) : tableRow i = (encode i, BitVec.allOnes 32) := by
  cases i with
  | cInit => exact absurd rfl h
  | nop | srst | cEnc | cEncp | cDec | hInit | hAppend | hFinal | rBegin | rBind | rSetpat | rStep => decide

/-- The word of a command matches the command's own row. -/
theorem encode_matchesRow (i : Instr) : encode i &&& (tableRow i).2 = (tableRow i).1 := by
  by_cases hop : opcode i = opCInit
  · obtain ⟨m, kl, rfl⟩ := (opcode_eq_opCInit_iff i).mp hop
    exact Laws.TableRow.cInit m kl
  · rw [tableRow_of_opcode_ne i hop]
    exact BitVec.and_allOnes

/-- The mask of `C_INIT` covers RSV and OP, where its match holds 0 and the opcode (rule R93). -/
theorem fields_of_matchesRow_cInit {w : Word} {m : Mode} {kl : BitVec 2}
    (h : w &&& (tableRow (.cInit m kl)).2 = (tableRow (.cInit m kl)).1) : fieldRsv w = 0 ∧ fieldOp w = opCInit := by
  have hword : w &&& 0xFFFFF8FF = 0x00000010 := h
  constructor
  · calc fieldRsv w = fieldRsv w &&& BitVec.allOnes 21 := BitVec.and_allOnes.symm
      _ = fieldRsv (w &&& 0xFFFFF8FF) := (BitVec.extractLsb'_and (y := 0xFFFFF8FF)).symm
      _ = 0 := by rw [hword]; decide
  · calc fieldOp w = fieldOp w &&& BitVec.allOnes 8 := BitVec.and_allOnes.symm
      _ = fieldOp (w &&& 0xFFFFF8FF) := (BitVec.extractLsb'_and (y := 0xFFFFF8FF)).symm
      _ = opCInit := by rw [hword]; decide

/-- The words of a row are the words of the commands of the row (rule R93). -/
theorem matchesRow_iff (w : Word) (j : Instr) :
    w &&& (tableRow j).2 = (tableRow j).1 ↔ ∃ i, encode i = w ∧ tableRow i = tableRow j := by
  constructor
  · intro h
    by_cases hop : opcode j = opCInit
    · obtain ⟨m, kl, rfl⟩ := (opcode_eq_opCInit_iff j).mp hop
      obtain ⟨hrsv, hinit⟩ := fields_of_matchesRow_cInit h
      exact ⟨_, encode_cInit_of_fields hrsv hinit, rfl⟩
    · rw [tableRow_of_opcode_ne j hop, BitVec.and_allOnes] at h
      exact ⟨j, h.symm, rfl⟩
  · rintro ⟨i, rfl, hrow⟩
    rw [← hrow]
    exact encode_matchesRow i

/-- Settles O3: the words of a row are the words of its commands, and a word is the word of one command only. -/
theorem decodeFollowsTableRows : Obligations.DecodeFollowsTableRows := by
  refine ⟨fun w i hdec => ?_, fun w j hj => ?_, fun w i j hi hj => ?_⟩
  · rw [← decode_eq_ok_iff.mp hdec]
    exact encode_matchesRow i
  · obtain ⟨i, hword, hrow⟩ := (matchesRow_iff w j).mp hj
    exact ⟨i, decode_eq_ok_iff.mpr hword, hrow⟩
  · obtain ⟨i', hi', hrowi⟩ := (matchesRow_iff w i).mp hi
    obtain ⟨j', hj', hrowj⟩ := (matchesRow_iff w j).mp hj
    rw [← hrowi, ← hrowj, encode_injective (hi'.trans hj'.symm)]

/-! ### Legal words -/

/-- The opcodes of the thirteen commands, in the order of rule R93. -/
def knownOpcodes : List (BitVec 8) :=
  [0x00, 0x01, 0x10, 0x11, 0x12, 0x13, 0x20, 0x21, 0x22, 0x30, 0x31, 0x32, 0x33]

/-- The word is none of the three illegal cases of rule R94. -/
def LegalWord (w : Word) : Prop :=
  fieldRsv w = 0 ∧ fieldOp w ∈ knownOpcodes ∧ (fieldOp w ≠ opCInit → fieldM w = 0 ∧ fieldKL w = 0)

theorem opcode_mem_knownOpcodes (i : Instr) : opcode i ∈ knownOpcodes := by
  cases i <;> simp [opcode, knownOpcodes]

/-- A known opcode is that of `C_INIT` or stands in the opcode map. -/
theorem knownOpcodes_cases : ∀ op ∈ knownOpcodes, op = opCInit ∨ ∃ row ∈ plainOpcodes, row.1 = op := by
  decide

/-- Only `C_INIT` puts anything into M and KL (rule R90). -/
theorem operandFields_eq_zero (i : Instr) (h : opcode i ≠ opCInit) :
    fieldM (encode i) = 0 ∧ fieldKL (encode i) = 0 := by
  cases i with
  | cInit => exact absurd rfl h
  | nop | srst | cEnc | cEncp | cDec | hInit | hAppend | hFinal | rBegin | rBind | rSetpat | rStep => decide

/-- The test of rule R100 for an illegal word. -/
theorem not_legalWord_iff (w : Word) : ¬ LegalWord w ↔
    fieldRsv w ≠ 0 ∨ fieldOp w ∉ knownOpcodes ∨ (fieldOp w ≠ opCInit ∧ (fieldM w ≠ 0 ∨ fieldKL w ≠ 0)) := by
  unfold LegalWord
  tauto

/-- The legal words are the words of the commands (rules R93, R94). -/
theorem exists_encode_iff_legalWord (w : Word) : (∃ i, encode i = w) ↔ LegalWord w := by
  constructor
  · rintro ⟨i, rfl⟩
    rw [LegalWord, fieldRsv_encode, fieldOp_encode]
    exact ⟨rfl, opcode_mem_knownOpcodes i, operandFields_eq_zero i⟩
  · rintro ⟨hrsv, hknown, hzero⟩
    by_cases hop : fieldOp w = opCInit
    · exact ⟨_, encode_cInit_of_fields hrsv hop⟩
    · obtain ⟨⟨op, i⟩, hrow, rfl⟩ := (knownOpcodes_cases _ hknown).resolve_left hop
      obtain ⟨hm, hkl⟩ := hzero hop
      exact ⟨i, encode_of_plainOpcodes hrsv hm hkl hrow⟩

/-- A word matches no row of the table exactly if it is illegal (rule R94). -/
theorem matchesNoRow_iff (w : Word) : (∀ j, w &&& (tableRow j).2 ≠ (tableRow j).1) ↔ ¬ LegalWord w := by
  rw [← exists_encode_iff_legalWord, ← not_exists, not_iff_not]
  constructor
  · rintro ⟨j, hj⟩
    obtain ⟨i, hword, -⟩ := (matchesRow_iff w j).mp hj
    exact ⟨i, hword⟩
  · rintro ⟨i, hword⟩
    exact ⟨i, (matchesRow_iff w i).mpr ⟨i, hword, rfl⟩⟩

/-! ### A write to CMD -/

/-- A step whose host move is a CMD write performs the word. -/
theorem step_cmd {s : State} {w : Word} {rest : List HostMove} (h : s.host = .write32 0x000 w :: rest) :
    step s = performCommand w (setHost rest s) := by
  rw [step_cons h, hostMove_cmd]

/-- An illegal word in a running block raises `E_ILLEGAL` (rule R94). -/
theorem performCommand_illegal {w : Word} {s : State} (hw : ¬ LegalWord w) (herr : s.err = false) :
    performCommand w s = .next (raiseFault .illegal s) := by
  cases hdec : decode w with
  | ok i => exact absurd ((exists_encode_iff_legalWord w).mp ⟨i, decode_eq_ok_iff.mp hdec⟩) hw
  | error e => rw [performCommand, hdec]; exact unlessStopped_running s _ herr

/-- `C_INIT` with the reserved key length code in a running block raises `E_KEYLEN` (rules R94, R136). -/
theorem exec_cInit_reserved (m : Mode) {s : State} (herr : s.err = false) :
    exec (.cInit m 3) s = .next (raiseFault .keyLen s) := by
  rw [exec, execCInit, unlessStopped_running _ _ herr, if_pos rfl]

/-- Settles O5. -/
theorem illegalWordsFault : Obligations.IllegalWordsFault := by
  intro s w rest hhost herr
  rw [step_cmd hhost, matchesNoRow_iff]
  refine ⟨?_, fun hw => performCommand_illegal hw herr, fun hrsv hop hkl => ?_⟩
  · rw [not_legalWord_iff, or_left_comm, and_comm]
    exact Iff.rfl
  · have hdec := decode_eq_ok_iff.mpr (encode_cInit_of_fields hrsv hop)
    rw [performCommand_of_decode _ hdec, show fieldKL w = 3 from hkl]
    exact exec_cInit_reserved _ herr

/-- Settles O8: the branches of rule R100 are the word of `SRST`, a stopped block, an illegal word, the word of a
command. -/
theorem cmdWriteFollowsPseudocode : Obligations.CmdWriteFollowsPseudocode := by
  intro s w rest hhost
  rw [step_cmd hhost]
  split
  next hsrst => rw [hsrst]; exact performCommand_of_decode _ (decode_encode_ok .srst)
  next hsrst =>
    split
    next herr =>
      obtain ⟨t, ht⟩ := performCommand_next (setHost rest s) w
      rw [ht, performCommand_stopped w (setHost rest s) t hsrst herr ht]
    next hrun =>
      split
      next hillegal =>
        exact performCommand_illegal ((not_legalWord_iff w).mpr hillegal) (Bool.eq_false_of_not_eq_true hrun)
      next hnot =>
        have hlegal : LegalWord w := not_not.mp (mt (not_legalWord_iff w).mp hnot)
        obtain ⟨i, rfl⟩ := (exists_encode_iff_legalWord w).mpr hlegal
        refine ⟨i, (fieldOp_encode i).symm, ?_, performCommand_of_decode _ (decode_encode_ok i)⟩
        rintro m kl rfl
        obtain ⟨hm, hkl⟩ := fields_encode_cInit m kl
        exact ⟨by rw [← modeBit_eq_one_iff, ← hm]; rfl, hkl.symm⟩

end Sys2Proof.Machine
end

section
/-! The cipher statements, part 1: the field of rules R121, R122 and the round transforms with their inverses (rules R124,
R128 to R135). `gmul_eq` says once what `gmul` is: a sum of multiples by powers of two, over the low five bits of the multiplier. -/

namespace Sys2Proof.Machine

/-! ### Field arithmetic -/

/-- With associativity and commutativity, the rule that sorts an exclusive-or of several bytes. -/
theorem byte_xor_left_comm (u v w : Byte) : u ^^^ (v ^^^ w) = v ^^^ (u ^^^ w) := by ac_rfl

theorem xtime_xor (x y : Byte) : xtime (x ^^^ y) = xtime x ^^^ xtime y := by
  unfold xtime
  rw [BitVec.shiftLeft_xor_distrib, BitVec.getLsbD_xor]
  cases x.getLsbD 7 <;> cases y.getLsbD 7 <;> simp [BitVec.xor_assoc, BitVec.xor_comm, byte_xor_left_comm]

/-- What bit `i` of the multiplier `m` adds to the product: the multiple `v` of that bit, or nothing. -/
def gmulTerm (m : Byte) (i : Nat) (v : Byte) : Byte := if m.getLsbD i then v else 0

theorem gmulTerm_xor (m : Byte) (i : Nat) (u v : Byte) :
    gmulTerm m i (u ^^^ v) = gmulTerm m i u ^^^ gmulTerm m i v := by
  cases h : m.getLsbD i <;> simp [gmulTerm, h]

theorem gmulTerm_xor_multiplier (m n : Byte) (i : Nat) (v : Byte) :
    gmulTerm (m ^^^ n) i v = gmulTerm m i v ^^^ gmulTerm n i v := by
  cases hm : m.getLsbD i <;> cases hn : n.getLsbD i <;> simp [gmulTerm, hm, hn]

/-- Masking the multiplier keeps the terms of its low five bits. -/
theorem gmulTerm_mask (m : Byte) {i : Nat} (hi : i < 5) (v : Byte) : gmulTerm (m &&& 0x1F) i v = gmulTerm m i v := by
  have hmask : (0x1F : Byte).getLsbD i = true := by interval_cases i <;> rfl
  rw [gmulTerm, gmulTerm, BitVec.getLsbD_and, hmask, Bool.and_true]

theorem gmulPass_eq (m acc p : Byte) (i : Nat) : gmulPass m (acc, p) i = (acc ^^^ gmulTerm m i p, xtime p) := by
  cases h : m.getLsbD i <;> simp [gmulPass, gmulTerm, h]

/-- The product as the sum of its five terms (rule R122). -/
theorem gmul_eq (x m : Byte) : gmul x m =
    gmulTerm m 0 x ^^^ gmulTerm m 1 (xtime x) ^^^ gmulTerm m 2 (xtime (xtime x))
      ^^^ gmulTerm m 3 (xtime (xtime (xtime x))) ^^^ gmulTerm m 4 (xtime (xtime (xtime (xtime x)))) := by
  simp [gmul, List.range_succ, gmulPass_eq]

theorem gmul_mask (x m : Byte) : gmul x (m &&& 0x1F) = gmul x m := by
  simp only [gmul_eq, gmulTerm_mask, Nat.reduceLT]

theorem gmul_xor (x y m : Byte) : gmul (x ^^^ y) m = gmul x m ^^^ gmul y m := by
  simp only [gmul_eq, xtime_xor, gmulTerm_xor]
  ac_rfl

theorem gmul_xor_multiplier (x m n : Byte) : gmul x (m ^^^ n) = gmul x m ^^^ gmul x n := by
  simp only [gmul_eq, gmulTerm_xor_multiplier]
  ac_rfl

theorem gmul_zero (x : Byte) : gmul x 0 = 0 := by
  simpa using gmul_xor_multiplier x 0 0

theorem zero_gmul (m : Byte) : gmul 0 m = 0 := by
  simpa using gmul_xor 0 0 m

/-! The multipliers of rules R130 and R134. -/

theorem gmul_one (x : Byte) : gmul x 1 = x := by simp [gmul_eq, gmulTerm]
theorem gmul_two (x : Byte) : gmul x 2 = xtime x := by simp [gmul_eq, gmulTerm]
theorem gmul_three (x : Byte) : gmul x 3 = x ^^^ xtime x := by simp [gmul_eq, gmulTerm]
theorem gmul_nine (x : Byte) : gmul x 0x09 = x ^^^ xtime (xtime (xtime x)) := by simp [gmul_eq, gmulTerm]
theorem gmul_eleven (x : Byte) : gmul x 0x0B = x ^^^ xtime x ^^^ xtime (xtime (xtime x)) := by
  simp [gmul_eq, gmulTerm]
theorem gmul_thirteen (x : Byte) : gmul x 0x0D = x ^^^ xtime (xtime x) ^^^ xtime (xtime (xtime x)) := by
  simp [gmul_eq, gmulTerm]
theorem gmul_fourteen (x : Byte) : gmul x 0x0E = xtime x ^^^ xtime (xtime x) ^^^ xtime (xtime (xtime x)) := by
  simp [gmul_eq, gmulTerm]

/-- Settles O30: the product is a sum of five terms, each additive in both operands. -/
theorem gmulIsBilinear : Obligations.GmulIsBilinear :=
  ⟨fun x m => (gmul_mask x m).symm, gmul_xor, gmul_xor_multiplier, gmul_one, gmul_two, gmul_zero, zero_gmul⟩

/-! ### Substitution and row shift -/

/-- `INV_SBOX` inverts `SBOX` (rule R124). -/
theorem invSbox_sbox : ∀ a : Byte, invSbox (sbox a) = a := by
  decide

theorem invSubBytes_subBytes (b : Block) : invSubBytes (subBytes b) = b := by
  apply Vector.ext
  intro i hi
  simp [invSubBytes, subBytes, invSbox_sbox]

theorem byteAt_shiftRows (b : Block) {i : Nat} (hi : i < 16) :
    byteAt (shiftRows b) i = byteAt b (i % 4 + 4 * ((i / 4 + i % 4) % 4)) := byteAt_ofFn _ i hi

theorem byteAt_invShiftRows (b : Block) {i : Nat} (hi : i < 16) :
    byteAt (invShiftRows b) i = byteAt b (i % 4 + 4 * ((i / 4 + 4 - i % 4) % 4)) := byteAt_ofFn _ i hi

/-- Row `r` is rotated by `r` columns and back (rules R129, R133). -/
theorem invShiftRows_shiftRows (b : Block) : invShiftRows (shiftRows b) = b := by
  apply bytes_ext
  intro i hi
  rw [byteAt_invShiftRows _ hi, byteAt_shiftRows _ (by omega)]
  congr 1
  omega

/-! ### Column mixing -/

/-- Byte `r` of column `c`. -/
theorem byteAt_mapColumns (row : Nat → Byte → Byte → Byte → Byte → Byte) (b : Block) {c r : Nat} (hc : c < 4)
    (hr : r < 4) : byteAt (mapColumns row b) (4 * c + r)
      = row r (byteAt b (4 * c)) (byteAt b (4 * c + 1)) (byteAt b (4 * c + 2)) (byteAt b (4 * c + 3)) := by
  have hmod : (4 * c + r) % 4 = r := by omega
  have hdiv : (4 * c + r) / 4 = c := by omega
  rw [mapColumns, byteAt_ofFn _ _ (by omega)]
  simp only [hmod, hdiv]

/-- Each row of rule R130 is the first row on a rotated column. -/
theorem mixRow_rotate (a0 a1 a2 a3 : Byte) :
    mixRow 1 a0 a1 a2 a3 = mixRow 0 a1 a2 a3 a0 ∧ mixRow 2 a0 a1 a2 a3 = mixRow 0 a2 a3 a0 a1
      ∧ mixRow 3 a0 a1 a2 a3 = mixRow 0 a3 a0 a1 a2 := by
  simp only [mixRow]
  refine ⟨?_, ?_, ?_⟩ <;> ac_rfl

/-- Each row of rule R134 is the first row on a rotated column. -/
theorem invMixRow_rotate (b0 b1 b2 b3 : Byte) :
    invMixRow 1 b0 b1 b2 b3 = invMixRow 0 b1 b2 b3 b0 ∧ invMixRow 2 b0 b1 b2 b3 = invMixRow 0 b2 b3 b0 b1
      ∧ invMixRow 3 b0 b1 b2 b3 = invMixRow 0 b3 b0 b1 b2 := by
  simp only [invMixRow]
  refine ⟨?_, ?_, ?_⟩ <;> ac_rfl

/-- The four coefficients of the product of the two mixing polynomials (rules R130, R134): 1, 0, 0, 0. They vanish as
polynomials in `xtime`, before any reduction in the field. -/
theorem mixing_coefficients (a : Byte) :
    gmul (gmul a 2) 0x0E ^^^ gmul a 0x0B ^^^ gmul a 0x0D ^^^ gmul (gmul a 3) 0x09 = a
      ∧ gmul (gmul a 3) 0x0E ^^^ gmul (gmul a 2) 0x0B ^^^ gmul a 0x0D ^^^ gmul a 0x09 = 0
      ∧ gmul a 0x0E ^^^ gmul (gmul a 3) 0x0B ^^^ gmul (gmul a 2) 0x0D ^^^ gmul a 0x09 = 0
      ∧ gmul a 0x0E ^^^ gmul a 0x0B ^^^ gmul (gmul a 3) 0x0D ^^^ gmul (gmul a 2) 0x09 = 0 := by
  simp only [gmul_two, gmul_three, gmul_nine, gmul_eleven, gmul_thirteen, gmul_fourteen, xtime_xor]
  refine ⟨?_, ?_, ?_, ?_⟩ <;> simp [BitVec.xor_assoc, BitVec.xor_comm, byte_xor_left_comm]

/-- The first row of the inverse mixing finds the first byte of the column before mixing. -/
theorem invMixRow_zero_mixRow (a0 a1 a2 a3 : Byte) :
    invMixRow 0 (mixRow 0 a0 a1 a2 a3) (mixRow 1 a0 a1 a2 a3) (mixRow 2 a0 a1 a2 a3) (mixRow 3 a0 a1 a2 a3) = a0 := by
  obtain ⟨h0, -, -, -⟩ := mixing_coefficients a0
  obtain ⟨-, h1, -, -⟩ := mixing_coefficients a1
  obtain ⟨-, -, h2, -⟩ := mixing_coefficients a2
  obtain ⟨-, -, -, h3⟩ := mixing_coefficients a3
  calc _ = (gmul (gmul a0 2) 0x0E ^^^ gmul a0 0x0B ^^^ gmul a0 0x0D ^^^ gmul (gmul a0 3) 0x09)
        ^^^ (gmul (gmul a1 3) 0x0E ^^^ gmul (gmul a1 2) 0x0B ^^^ gmul a1 0x0D ^^^ gmul a1 0x09)
        ^^^ (gmul a2 0x0E ^^^ gmul (gmul a2 3) 0x0B ^^^ gmul (gmul a2 2) 0x0D ^^^ gmul a2 0x09)
        ^^^ (gmul a3 0x0E ^^^ gmul a3 0x0B ^^^ gmul (gmul a3 3) 0x0D ^^^ gmul (gmul a3 2) 0x09) := by
        simp only [mixRow, invMixRow, gmul_xor]; ac_rfl
    _ = a0 := by rw [h0, h1, h2, h3]; simp

/-- Every row of the inverse mixing finds its byte of the column `a`: rotated, a column is mixed alike. -/
theorem invMixRow_mixRow (a : Nat → Byte) {r : Nat} (hr : r < 4) :
    invMixRow r (mixRow 0 (a 0) (a 1) (a 2) (a 3)) (mixRow 1 (a 0) (a 1) (a 2) (a 3))
      (mixRow 2 (a 0) (a 1) (a 2) (a 3)) (mixRow 3 (a 0) (a 1) (a 2) (a 3)) = a r := by
  interval_cases r
  · exact invMixRow_zero_mixRow (a 0) (a 1) (a 2) (a 3)
  · simpa only [mixRow_rotate, invMixRow_rotate] using invMixRow_zero_mixRow (a 1) (a 2) (a 3) (a 0)
  · simpa only [mixRow_rotate, invMixRow_rotate] using invMixRow_zero_mixRow (a 2) (a 3) (a 0) (a 1)
  · simpa only [mixRow_rotate, invMixRow_rotate] using invMixRow_zero_mixRow (a 3) (a 0) (a 1) (a 2)

theorem byteAt_mixColumns (b : Block) {c r : Nat} (hc : c < 4) (hr : r < 4) : byteAt (mixColumns b) (4 * c + r)
    = mixRow r (byteAt b (4 * c)) (byteAt b (4 * c + 1)) (byteAt b (4 * c + 2)) (byteAt b (4 * c + 3)) :=
  byteAt_mapColumns mixRow b hc hr

theorem invMixColumns_mixColumns (b : Block) : invMixColumns (mixColumns b) = b := by
  apply bytes_ext
  intro i hi
  obtain ⟨c, r, hc, hr, rfl⟩ : ∃ c r, c < 4 ∧ r < 4 ∧ i = 4 * c + r := ⟨i / 4, i % 4, by omega, by omega, by omega⟩
  calc byteAt (invMixColumns (mixColumns b)) (4 * c + r)
      = invMixRow r (byteAt (mixColumns b) (4 * c + 0)) (byteAt (mixColumns b) (4 * c + 1))
          (byteAt (mixColumns b) (4 * c + 2)) (byteAt (mixColumns b) (4 * c + 3)) :=
        byteAt_mapColumns invMixRow (mixColumns b) hc hr
    _ = byteAt b (4 * c + r) := by
        simp only [byteAt_mixColumns b hc, Nat.reduceLT]
        exact invMixRow_mixRow (fun k => byteAt b (4 * c + k)) hr

/-- Settles O31. -/
theorem inverseTransformsUndo : Obligations.InverseTransformsUndo :=
  fun b => ⟨invSubBytes_subBytes b, invShiftRows_shiftRows b, invMixColumns_mixColumns b⟩

/-! ### The block transforms -/

theorem addRoundKey_addRoundKey (rk : Bytes 240) (r : Nat) (b : Block) :
    addRoundKey rk r (addRoundKey rk r b) = b :=
  xorBytes_cancel b (roundKey rk r)

/-- Between two inverse rounds the block stands substituted and shifted; in that form an inverse round undoes a round. -/
theorem invCipherRound_cipherRound (rk : Bytes 240) (r : Nat) (b : Block) :
    invCipherRound rk r (shiftRows (subBytes (cipherRound rk r b))) = shiftRows (subBytes b) := by
  rw [invCipherRound, invShiftRows_shiftRows, invSubBytes_subBytes, cipherRound, addRoundKey_addRoundKey,
    invMixColumns_mixColumns]

/-- The inverse rounds, last round first, undo the rounds. -/
theorem foldr_invCipherRound_foldl_cipherRound (rk : Bytes 240) (rounds : List Nat) (b : Block) :
    rounds.foldr (fun r s => invCipherRound rk r s)
        (shiftRows (subBytes (rounds.foldl (fun s r => cipherRound rk r s) b)))
      = shiftRows (subBytes b) := by
  induction rounds generalizing b with
  | nil => rfl
  | cons r rounds ih => rw [List.foldl_cons, List.foldr_cons, ih, invCipherRound_cipherRound]

theorem aesInvCipher_aesCipher (rk : Bytes 240) (nr : Nat) (b : Block) :
    aesInvCipher rk nr (aesCipher rk nr b) = b := by
  unfold aesInvCipher aesCipher
  simp only [addRoundKey_addRoundKey, foldr_invCipherRound_foldl_cipherRound, invShiftRows_shiftRows,
    invSubBytes_subBytes]

/-- Settles O32, by induction over the rounds. -/
theorem invCipherUndoesCipher : Obligations.InvCipherUndoesCipher := aesInvCipher_aesCipher

end Sys2Proof.Machine
end

section
/-! The cipher statements, part 2: the commands of CipherEngine where no fault applies (rules R136 to R139), and decryption
after encryption (rule R140). -/

namespace Sys2Proof.Machine

/-! ### The commands where no fault applies -/

theorem fitsBuffer_of_le {l : Nat} {s : State} (h : l ≤ s.cfg.bufBytes) : fitsBuffer l s = true :=
  decide_eq_true h

section Running

variable {s : State} (herr : s.err = false) (hcv : s.cv = true)
include herr hcv

theorem exec_cEnc_running (hmod : s.arg.toNat % 16 = 0) (hfit : s.arg.toNat ≤ s.cfg.bufBytes) :
    exec .cEnc s = .next (forBlocks encryptBlock (s.arg.toNat / 16) s) := by
  simp [exec, execCEnc, herr, hcv, argLength, hmod, fitsBuffer_of_le hfit]

theorem exec_cDec_running (hmod : s.arg.toNat % 16 = 0) (hfit : s.arg.toNat ≤ s.cfg.bufBytes) :
    exec .cDec s = .next (forBlocks decryptBlock (s.arg.toNat / 16) s) := by
  simp [exec, execCDec, herr, hcv, argLength, hmod, fitsBuffer_of_le hfit]

theorem exec_cEncp_running (hfit : s.arg.toNat + padLength s.arg.toNat ≤ s.cfg.bufBytes) :
    exec .cEncp s = .next (forBlocks encryptBlock ((s.arg.toNat + padLength s.arg.toNat) / 16)
      (memWrite s.arg.toNat (padBytes s.arg.toNat) s)) := by
  simp [exec, execCEncp, herr, hcv, argLength, fitsBuffer_of_le hfit]

end Running

/-- The vector that `C_INIT` sets, byte by byte: the IV in CBC mode, zero in ECB mode (rule R136). -/
theorem byteAt_initialCipher_vec (m : Mode) (kl : BitVec 2) (s : State) {i : Nat} (hi : i < 16) :
    byteAt (initialCipher m kl s).vec i = if m = .cbc then s.dbuf.read (32 + i) else 0 := by
  cases m with
  | ecb => exact byteAt_zeroBytes 16 i
  | cbc => exact byteAt_memRead 32 16 i s hi

theorem initialCipher_nr (m : Mode) {kl : BitVec 2} (hkl : kl ≠ 3) (s : State) :
    (initialCipher m kl s).nr.toNat = 10 + 2 * kl.toNat := by
  have hle := keyLength_le_two hkl
  simp only [initialCipher, roundCount_eq, BitVec.toNat_ofNat]
  omega

/-- Settles O34. -/
theorem cInitCreatesCipherState : Obligations.CInitCreatesCipherState := by
  intro m kl s herr hkl
  exact ⟨_, exec_cInit_running m herr hkl, rfl, rfl, rfl, initialCipher_nr m hkl s, rfl,
    fun i hi => byteAt_initialCipher_vec m kl s hi, ⟨rfl, rfl, rfl⟩, ⟨rfl, rfl, rfl⟩, ⟨rfl, rfl⟩,
    ⟨rfl, rfl, rfl, rfl⟩, fun _ => rfl⟩

/-- Settles O36, by what the encryption loop does. -/
theorem cEncEncryptsBlocks : Obligations.CEncEncryptsBlocks := by
  intro s herr hcv hmod hfit hwf
  obtain ⟨hsame, -, henc⟩ := forBlocks_encryptBlock (s.arg.toNat / 16) s hwf
  exact ⟨_, exec_cEnc_running herr hcv hmod hfit, henc, hsame.key, hsame.hash, hsame.ratchet, hsame.error,
    hsame.hostSide⟩

/-- Settles O38, by what the decryption loop does. -/
theorem cDecDecryptsBlocks : Obligations.CDecDecryptsBlocks := by
  intro s herr hcv hmod hfit hwf
  obtain ⟨hsame, -, hdec⟩ := forBlocks_decryptBlock (s.arg.toNat / 16) s hwf
  exact ⟨_, exec_cDec_running herr hcv hmod hfit, hdec, hsame.key, hsame.hash, hsame.ratchet, hsame.error,
    hsame.hostSide⟩

/-- The buffer with the pad bytes stored after a plaintext of `l` bytes (rule R138). -/
theorem read_memWrite_padBytes (l a : Nat) (s : State) (hwf : s.dbuf.wf = true) :
    (memWrite l (padBytes l) s).dbuf.read a
      = if l ≤ a ∧ a < l + padLength l then BitVec.ofNat 8 (padLength l) else s.dbuf.read a := by
  rw [read_memWrite l (padBytes l) s a hwf]
  split
  next hin => exact byteAt_ofFn _ _ (by omega)
  next => rfl

/-- Settles O37: `p` is the state after the pad bytes are stored, before the loop. -/
theorem cEncpPadsAndEncrypts : Obligations.CEncpPadsAndEncrypts := by
  intro s herr hcv hfit hwf
  have hpad := (SameButData.refl s).store s.arg.toNat (padBytes s.arg.toNat)
  have hsame := hpad.forBlocks_encryptBlock ((s.arg.toNat + padLength s.arg.toNat) / 16)
  obtain ⟨-, -, henc⟩ := forBlocks_encryptBlock ((s.arg.toNat + padLength s.arg.toNat) / 16) _
    (wf_memWrite s.arg.toNat (padBytes s.arg.toNat) s hwf)
  exact ⟨_, _, exec_cEncp_running herr hcv hfit, fun a => read_memWrite_padBytes _ a s hwf, rfl, henc,
    hsame.key, hsame.hash, hsame.ratchet, hsame.error, hsame.hostSide⟩

/-! ### Decryption after encryption -/

/-- Two states whose first `n` blocks have the same bytes have the same blocks there. -/
theorem blockOperand_eq_of_lt {n k : Nat} (hk : k < n) {s t : State}
    (h : ∀ a, a < 16 * n → t.dbuf.read a = s.dbuf.read a) : blockOperand k t = blockOperand k s :=
  memRead_congr (16 * k) 16 t s fun i hi => h (16 * k + i) (by omega)

/-- A byte of the buffer is a byte of its block. -/
theorem byteAt_blockOperand (a : Nat) (s : State) : byteAt (blockOperand (a / 16) s) (a % 16) = s.dbuf.read a := by
  rw [blockOperand, byteAt_memRead _ _ _ _ (by omega), Nat.div_add_mod]

/-- Decrypting `d`, which holds the ciphertext `t` of the plaintext `p` and has the key and the vector that `p` had, gives
the plaintext back (rule R140): in CBC mode both sides chain on the same ciphertext blocks. -/
theorem Decrypted.restores {n : Nat} {p t d u : State} (hdec : Decrypted n d u) (henc : Encrypted n p t)
    (hcipher : d.cipher = p.cipher) (hct : ∀ a, a < 16 * n → d.dbuf.read a = t.dbuf.read a) :
    ∀ a, a < 16 * n → u.dbuf.read a = p.dbuf.read a := by
  have hblock : ∀ k, k < n → blockOperand k u = blockOperand k p := by
    intro k hk
    have hprev : 0 < k → blockOperand (k - 1) d = blockOperand (k - 1) t := fun h0 =>
      blockOperand_eq_of_lt (by omega) hct
    rw [hdec.blocks k hk, decryptOutput, hcipher, blockOperand_eq_of_lt hk hct, henc.blocks k hk, aesInvCipher_aesCipher,
      encryptInput]
    cases p.cipher.cm with
    | ecb => rfl
    | cbc =>
      by_cases h0 : k = 0
      · simp [h0]
      · simp [h0, hprev (Nat.pos_of_ne_zero h0)]
  intro a ha
  rw [← byteAt_blockOperand a u, ← byteAt_blockOperand a p, hblock _ (by omega)]

/-- With the vector, the key and its parameters are the whole CipherState. -/
theorem SameKey.cipher_eq {s t : State} (h : SameKey s t) (hvec : t.cipher.vec = s.cipher.vec) :
    t.cipher = s.cipher := by
  obtain ⟨-, hcm, hckl, hnr, hrk⟩ := h
  calc t.cipher = ⟨t.cipher.cm, t.cipher.ckl, t.cipher.nr, t.cipher.rk, t.cipher.vec⟩ := rfl
    _ = s.cipher := by rw [hcm, hckl, hnr, hrk, hvec]

/-- Settles O41: in ECB mode encryption leaves the whole CipherState alone, so decryption starts from the same. -/
theorem ecbDecryptRestores : Obligations.EcbDecryptRestores := by
  intro s herr hcv hecb hmod hfit hwf
  obtain ⟨t, ht, henc, hkey, -, -, ⟨hterr, -⟩, harg, hcfg, -⟩ := cEncEncryptsBlocks s herr hcv hmod hfit hwf
  have hcipher : t.cipher = s.cipher := hkey.cipher_eq (henc.vec_of_ecb hecb)
  obtain ⟨htcv, -⟩ := hkey
  obtain ⟨u, hu, hdec, -⟩ := cDecDecryptsBlocks t (hterr.trans herr) (htcv.trans hcv) (by rw [harg]; exact hmod)
    (by rw [harg, hcfg]; exact hfit) (exec_wf .cEnc s t ht hwf)
  rw [harg] at hdec
  refine ⟨t, u, ht, hu, fun a => ?_⟩
  by_cases ha : a < 16 * (s.arg.toNat / 16)
  · exact hdec.restores henc hcipher (fun _ _ => rfl) a ha
  · rw [hdec.beyond a (by omega), henc.beyond a (by omega)]

/-! ### The round trips of rule R140 -/

/-- The CipherState depends on the mode, the key and the IV alone, not on the state they are loaded into. -/
theorem initialCipher_setDbuf (m : Mode) (kl : BitVec 2) {keys keys' : Memory} (s t : State)
    (hkey : ∀ a, a < keyBytes kl → keys'.read a = keys.read a)
    (hiv : m = .cbc → ∀ a, 32 ≤ a → a < 48 → keys'.read a = keys.read a) :
    initialCipher m kl (setDbuf keys' t) = initialCipher m kl (setDbuf keys s) :=
  initialCipher_congr m kl (keyOperand_congr kl hkey) fun hm => ivOperand_congr (hiv hm)

/-- The second half of rule R140: `C_INIT` that makes the CipherState the plaintext `p` was encrypted with, then `C_DEC`
of the ciphertext, which `t` holds and the host loads again. -/
theorem cInit_cDec_restores (m : Mode) {kl : BitVec 2} (hkl : kl ≠ 3) {l : Word} {keys : Memory} {p t : State}
    (herr : t.err = false) (hmod : l.toNat % 16 = 0) (hfit : l.toNat ≤ t.cfg.bufBytes)
    (henc : Encrypted (l.toNat / 16) p t) (hcipher : initialCipher m kl (setDbuf keys t) = p.cipher) :
    ∃ u, exec (.cInit m kl) (setDbuf keys t) = .next u
      ∧ ∀ ct : Memory, ct.wf = true → (∀ a, a < l.toNat → ct.read a = t.dbuf.read a) →
          ∃ v, exec .cDec (setArg l (setDbuf ct u)) = .next v ∧ v.err = false
            ∧ ∀ a, a < l.toNat → v.dbuf.read a = p.dbuf.read a := by
  refine ⟨_, exec_cInit_running m herr hkl, fun ct hwf hct => ?_⟩
  obtain ⟨v, hv, hdec, -, -, -, ⟨hverr, -⟩, -⟩ := cDecDecryptsBlocks
    (setArg l (setDbuf ct (setCipher (initialCipher m kl (setDbuf keys t)) (setDbuf keys t)))) herr rfl hmod hfit hwf
  rw [setArg_arg] at hdec
  refine ⟨v, hv, hverr.trans herr, fun a ha => ?_⟩
  exact hdec.restores henc hcipher (fun b hb => hct b (by omega)) a (by omega)

/-- Settles O39. -/
theorem cipherRoundTrip : Obligations.CipherRoundTrip := by
  intro s m kl l keys keys' plain herr hkl hmod hfit hwf hkey hiv
  obtain ⟨t, ht, henc, -, -, -, ⟨hterr, -⟩, -, hcfg, -⟩ := cEncEncryptsBlocks
    (setArg l (setDbuf plain (setCipher (initialCipher m kl (setDbuf keys s)) (setDbuf keys s)))) herr rfl hmod hfit hwf
  obtain ⟨u, hu, hdec⟩ := cInit_cDec_restores m hkl (hterr.trans herr) hmod (by rw [hcfg]; exact hfit) henc
    (initialCipher_setDbuf m kl s t hkey hiv)
  exact ⟨_, t, u, exec_cInit_running m herr hkl, ht, hu, hdec⟩

/-- Settles O40: the padded plaintext `p` comes back, of which the first `l` bytes are the plaintext's. -/
theorem paddedRoundTrip : Obligations.PaddedRoundTrip := by
  intro s m kl l l' keys keys' plain herr hkl hl' hfit hwf hkey hiv
  obtain ⟨p, t, ht, hp, hpcipher, henc, -, -, -, ⟨hterr, -⟩, -, hcfg, -⟩ := cEncpPadsAndEncrypts
    (setArg l (setDbuf plain (setCipher (initialCipher m kl (setDbuf keys s)) (setDbuf keys s))))
    herr rfl (hl' ▸ hfit) hwf
  simp only [setArg_arg, ← hl'] at hp henc
  obtain ⟨u, hu, hdec⟩ := cInit_cDec_restores m hkl (hterr.trans herr) (by omega) (by rw [hcfg]; exact hfit) henc
    ((initialCipher_setDbuf m kl s t hkey hiv).trans hpcipher.symm)
  refine ⟨_, t, u, exec_cInit_running m herr hkl, ht, hu, fun ct hct hread => ?_⟩
  obtain ⟨v, hv, hverr, hplain⟩ := hdec ct hct hread
  refine ⟨v, hv, hverr, fun a ha => ?_, fun a hlo hhi => ?_⟩
  · rw [hplain a (by omega), hp, if_neg (by omega)]
    rfl
  · rw [hplain a hhi, hp, if_pos ⟨hlo, hhi⟩]

end Sys2Proof.Machine
end

section
/-! The hash statements, part 1: the commands of HashEngine where no fault applies (rules R176 to R178). -/

namespace Sys2Proof.Machine

/-! ### What each command answers -/

section Running

variable {s : State} (herr : s.err = false)
include herr

theorem exec_hInit_running :
    exec .hInit s = .next (setHv true (setHash { s.hash with h := shaH0, plen := 0, count := 0 } s)) :=
  unlessStopped_running s _ herr

theorem exec_hAppend_running (hhv : s.hv = true) (hfit : s.arg.toNat ≤ s.cfg.bufBytes)
    (hlen : s.hash.count.toNat + s.arg.toNat < 2 ^ 61) :
    exec .hAppend s = .next (setHash (absorb s.hash (messageOperand s)) s) := by
  rw [exec, execHAppend, unlessStopped_running s _ herr, argLength, fitsBuffer_of_le hfit, if_neg (by simp [hhv]),
    if_neg nofun, if_neg (Nat.not_le.mpr hlen)]

theorem exec_hFinal_running (hhv : s.hv = true) :
    exec .hFinal s = .next (setHv false
      (setHash { h := Vector.ofFn fun _ => 0, pend := (finishHash s.hash).pend, plen := 0, count := 0 }
        (setDigest (digestBytes (finishHash s.hash).h) s))) := by
  simp [exec, execHFinal, herr, hhv]

end Running

/-! ### The operand, the tail and the digest -/

/-- The message bytes of `H_APPEND` are DBUF[0..ARG) in order (rule R75). -/
theorem messageOperand_eq (s : State) :
    messageOperand s = (List.range s.arg.toNat).map fun a => s.dbuf.read a := by
  apply List.ext_getElem
  · simp [messageOperand, argLength]
  · intro i hi _
    have hlt : i < argLength s := by simpa [messageOperand] using hi
    have hbyte := byteAt_memRead 0 (argLength s) i s hlt
    rw [byteAt_of_lt _ _ hlt, Nat.zero_add] at hbyte
    simpa [messageOperand] using hbyte

@[simp] theorem bytesBe64_length (w : BitVec 64) : (bytesBe64 w).length = 8 := by simp [bytesBe64]

/-- The terminator, the zeros and the length field fill the pending block (rule R178). -/
theorem tail_fills_block {p : Nat} (hp : p < 64) : (p + (1 + (tailZeros p + 8))) % 64 = 0 := by
  unfold tailZeros
  split <;> omega

theorem hashTail_length (st : HashState) : (hashTail st).length = 1 + (tailZeros st.plen.toNat + 8) := by
  simp [hashTail, Nat.add_comm]

theorem finishHash_plen (st : HashState) (hp : st.plen.toNat < 64) : (finishHash st).plen = 0 := by
  apply BitVec.eq_of_toNat_eq
  rw [finishHash, absorb_plen _ _ hp, hashTail_length, tail_fills_block hp]
  rfl

/-- Byte `k` of word `i` in the digest, most significant first (rule R178). -/
theorem byteAt_digestBytes (h : Vector Word 8) (i : Fin 8) {k : Nat} (hk : k < 4) :
    byteAt (digestBytes h) (4 * i + k) = byteBe32 h[i] k := by
  have hdiv : (4 * i.val + k) / 4 = i.val := by omega
  have hmod : (4 * i.val + k) % 4 = k := by omega
  rw [digestBytes, byteAt_ofFn _ _ (by omega)]
  simp [hdiv, hmod]

/-! ### The statements -/

/-- Settles O44. -/
theorem hInitStartsHash : Obligations.HInitStartsHash := by
  intro s herr
  exact ⟨_, exec_hInit_running herr, rfl, rfl, rfl, rfl, rfl, rfl, ⟨rfl, rfl⟩, ⟨rfl, rfl, rfl⟩, ⟨rfl, rfl⟩,
    ⟨rfl, rfl, rfl, rfl⟩, fun _ => rfl⟩

/-- Settles O45: what absorbing does to COUNT and PLEN, below the limit that keeps COUNT from wrapping. -/
theorem hAppendAbsorbs : Obligations.HAppendAbsorbs := by
  intro s herr hhv hfit hlen hplen
  have hcount : (absorb s.hash (messageOperand s)).count.toNat = s.hash.count.toNat + s.arg.toNat := by
    rw [absorb_count, messageOperand_eq, List.length_map, List.length_range]
    omega
  have hfill : (absorb s.hash (messageOperand s)).plen.toNat = (s.hash.count.toNat + s.arg.toNat) % 64 := by
    rw [absorb_plen _ _ (by omega), messageOperand_eq, List.length_map, List.length_range]
    omega
  refine ⟨_, exec_hAppend_running herr hhv hfit hlen, ?hash, hcount, ?plen, hhv, rfl, ⟨rfl, rfl⟩, ⟨rfl, rfl, rfl⟩,
    ⟨rfl, rfl⟩, ⟨rfl, rfl, rfl, rfl⟩, fun _ => rfl⟩
  case hash => rw [setHash_hash, messageOperand_eq]
  case plen => rw [setHash_hash, hfill, hcount]

/-- Settles O46: PLEN below 64 is all that the block boundary needs of rule R45. -/
theorem hFinalWritesDigest : Obligations.HFinalWritesDigest := by
  intro s herr hhv hplen _
  exact ⟨_, exec_hFinal_running herr hhv, finishHash_plen s.hash (by omega), fun i _ hk => byteAt_digestBytes _ i hk,
    rfl, fun i => by simp, rfl, rfl, rfl, ⟨rfl, rfl⟩, ⟨rfl, rfl, rfl⟩, ⟨rfl, rfl⟩, ⟨rfl, rfl, rfl, rfl⟩,
    fun _ => rfl⟩

end Sys2Proof.Machine
end

section
/-! The hash statements, part 2: absorbing byte by byte is hashing block by block (rules R175, R178, R179), and so the
digest is that of the message, whatever its split (rule R180). -/

namespace Sys2Proof.Machine

/-! ### Taking in one byte -/

/-- PLEN has 7 bits, so counting on from 63 meets 64 and no other value does. -/
theorem plen_succ_eq_iff (p : BitVec 7) : p + 1 = 64 ↔ p.toNat = 63 := by
  constructor <;> intro h <;> bv_omega

theorem absorbByte_of_full {st : HashState} (x : Byte) (h : st.plen.toNat = 63) :
    absorbByte st x =
      { h := shaCompress st.h (st.pend.setIfInBounds st.plen.toNat x)
        pend := st.pend.setIfInBounds st.plen.toNat x
        plen := 0
        count := st.count + 1 } := by
  rw [absorbByte, if_pos ((plen_succ_eq_iff st.plen).mpr h)]

theorem absorbByte_of_not_full {st : HashState} (x : Byte) (h : st.plen.toNat ≠ 63) :
    absorbByte st x =
      { h := st.h
        pend := st.pend.setIfInBounds st.plen.toNat x
        plen := st.plen + 1
        count := st.count + 1 } := by
  rw [absorbByte, if_neg fun hc => h ((plen_succ_eq_iff st.plen).mp hc)]

theorem byteAt_setIfInBounds {n p : Nat} (v : Bytes n) (hp : p < n) (x : Byte) (i : Nat) :
    byteAt (v.setIfInBounds p x) i = if i = p then x else byteAt v i := by
  by_cases hi : i < n
  · simp [byteAt, hi, Vector.getElem_setIfInBounds, eq_comm]
  · rw [byteAt_of_ge _ _ (by omega), byteAt_of_ge _ _ (by omega), if_neg (by omega)]

/-! ### Blocks of a message -/

/-- The compression function folded over the first `n` blocks of `m` (rules R174, R179). -/
def compressBlocks (h0 : Vector Word 8) (m : List Byte) (n : Nat) : Vector Word 8 :=
  (List.range n).foldl (fun h k => shaCompress h (blockOf m k)) h0

theorem compressBlocks_zero (h0 : Vector Word 8) (m : List Byte) : compressBlocks h0 m 0 = h0 := rfl

theorem compressBlocks_succ (h0 : Vector Word 8) (m : List Byte) (n : Nat) :
    compressBlocks h0 m (n + 1) = shaCompress (compressBlocks h0 m n) (blockOf m n) := by
  rw [compressBlocks, List.range_succ, List.foldl_append]
  rfl

theorem byteAt_blockOf (m : List Byte) (k : Nat) {i : Nat} (hi : i < 64) :
    byteAt (blockOf m k) i = m.getD (64 * k + i) 0 := byteAt_ofFn _ i hi

/-- A whole block of a message is a block of every longer message. -/
theorem blockOf_append {m : List Byte} (ys : List Byte) {k : Nat} (hk : 64 * k + 64 ≤ m.length) :
    blockOf (m ++ ys) k = blockOf m k :=
  bytes_ext _ _ fun i hi => by
    rw [byteAt_blockOf _ _ hi, byteAt_blockOf _ _ hi, List.getD_append _ _ _ _ (by omega)]

theorem compressBlocks_append (h0 : Vector Word 8) {m : List Byte} (ys : List Byte) {n : Nat}
    (hn : 64 * n ≤ m.length) : compressBlocks h0 (m ++ ys) n = compressBlocks h0 m n := by
  induction n with
  | zero => rw [compressBlocks_zero, compressBlocks_zero]
  | succ n ih => rw [compressBlocks_succ, compressBlocks_succ, ih (by omega), blockOf_append ys (by omega)]

/-! ### What absorbing keeps -/

/-- `st` has absorbed the message `m` from the words `h0` and an empty pending block: its whole blocks are compressed,
and PEND holds the bytes beyond them. -/
structure Absorbed (h0 : Vector Word 8) (m : List Byte) (st : HashState) : Prop where
  /-- H. -/
  words : st.h = compressBlocks h0 m (m.length / 64)
  /-- PLEN. -/
  fill : st.plen.toNat = m.length % 64
  /-- PEND below PLEN. -/
  pending : ∀ i, i < m.length % 64 → byteAt st.pend i = m.getD (64 * (m.length / 64) + i) 0

theorem Absorbed.nil {st : HashState} (hplen : st.plen = 0) : Absorbed st.h [] st :=
  ⟨rfl, by rw [hplen]; rfl, nofun⟩

/-- With the next byte stored, PEND holds one byte more of the longer message. -/
theorem Absorbed.pending_store {h0 : Vector Word 8} {m : List Byte} {st : HashState} (h : Absorbed h0 m st) (x : Byte)
    {i : Nat} (hi : i ≤ m.length % 64) :
    byteAt (st.pend.setIfInBounds st.plen.toNat x) i = (m ++ [x]).getD (64 * (m.length / 64) + i) 0 := by
  rw [byteAt_setIfInBounds _ (by rw [h.fill]; omega), h.fill]
  split
  next heq => rw [List.getD_append_right _ _ _ _ (by omega), heq, Nat.div_add_mod, Nat.sub_self]; rfl
  next hne => rw [h.pending i (by omega), List.getD_append _ _ _ _ (by omega)]

theorem Absorbed.absorbByte {h0 : Vector Word 8} {m : List Byte} {st : HashState} (h : Absorbed h0 m st) (x : Byte) :
    Absorbed h0 (m ++ [x]) (absorbByte st x) := by
  have hlen : (m ++ [x]).length = m.length + 1 := by simp
  by_cases hfull : m.length % 64 = 63
  · have hdiv : (m.length + 1) / 64 = m.length / 64 + 1 := by omega
    have hmod : (m.length + 1) % 64 = 0 := by omega
    have hblock : st.pend.setIfInBounds st.plen.toNat x = blockOf (m ++ [x]) (m.length / 64) :=
      bytes_ext _ _ fun i hi => by rw [h.pending_store x (by omega), byteAt_blockOf _ _ hi]
    rw [absorbByte_of_full x (h.fill.trans hfull)]
    constructor <;> rw [hlen]
    case words => rw [hdiv, compressBlocks_succ, compressBlocks_append h0 [x] (by omega), ← h.words, hblock]
    case fill => rw [hmod]; rfl
    case pending => rw [hmod]; exact nofun
  · have hdiv : (m.length + 1) / 64 = m.length / 64 := by omega
    have hmod : (m.length + 1) % 64 = m.length % 64 + 1 := by omega
    have hplen : (Machine.absorbByte st x).plen.toNat = m.length % 64 + 1 := by
      rw [absorbByte_plen st x (by rw [h.fill]; omega), h.fill]
      omega
    rw [absorbByte_of_not_full x fun hc => hfull (h.fill.symm.trans hc)] at hplen ⊢
    constructor <;> rw [hlen]
    case words => rw [hdiv, compressBlocks_append h0 [x] (by omega), ← h.words]
    case fill => rw [hmod, hplen]
    case pending => intro i hi; rw [hdiv]; exact h.pending_store x (by omega)

/-- Absorbing a message, from any words and whatever PEND held before. -/
theorem absorbed_absorb {st : HashState} (hplen : st.plen = 0) (m : List Byte) : Absorbed st.h m (absorb st m) := by
  induction m using List.reverseRecOn with
  | nil => exact Absorbed.nil hplen
  | append_singleton m x ih => rw [absorb_append]; exact ih.absorbByte x

/-! ### Hashing a whole message -/

theorem paddedMessage_length_mod (m : List Byte) : (paddedMessage m).length % 64 = 0 := by
  have htail := tail_fills_block (Nat.mod_lt m.length (by decide : 0 < 64))
  have hlen : (paddedMessage m).length = m.length + (1 + (tailZeros (m.length % 64) + 8)) := by
    simp [paddedMessage, Nat.add_comm]
  omega

/-- A HashState that begins a hash (rules R176, R179), whatever PEND holds. -/
structure StartsHash (st : HashState) : Prop where
  /-- H0. -/
  words : st.h = shaH0
  /-- Nothing pending. -/
  fill : st.plen = 0
  /-- Nothing counted. -/
  count : st.count = 0

theorem startsHash_freshHash : StartsHash freshHash := ⟨rfl, rfl, rfl⟩

section Message

variable {st : HashState} (hst : StartsHash st) {m : List Byte} (hm : m.length < 2 ^ 61)
include hst hm

/-- The tail is the padding of the message, for PLEN and COUNT hold its length (rule R178). -/
theorem StartsHash.finish_absorb : finishHash (absorb st m) = absorb st (paddedMessage m) := by
  have hplen : (absorb st m).plen.toNat = m.length % 64 := (absorbed_absorb hst.fill m).fill
  have hcount : (absorb st m).count.toNat = m.length := by
    rw [absorb_count, hst.count, BitVec.ofNat_eq_ofNat, BitVec.toNat_zero]
    omega
  rw [finishHash, ← absorb_append, hashTail, hplen, hcount, paddedMessage]

theorem StartsHash.finish_words :
    (finishHash (absorb st m)).h = compressBlocks shaH0 (paddedMessage m) ((paddedMessage m).length / 64) := by
  rw [hst.finish_absorb hm, (absorbed_absorb hst.fill (paddedMessage m)).words, hst.words]

theorem StartsHash.digestBytes_finish : digestBytes (finishHash (absorb st m)).h = sha256 m := by
  rw [sha256, hst.finish_words hm, startsHash_freshHash.finish_words hm]

end Message

/-- Settles O47. -/
theorem sha256IsBlockwise : Obligations.Sha256IsBlockwise := by
  intro m hm
  refine ⟨paddedMessage_length_mod m, ?_⟩
  rw [← startsHash_freshHash.digestBytes_finish hm, startsHash_freshHash.finish_words hm, compressBlocks]

/-! ### A message in parts -/

/-- A part read back from where the host loaded it. -/
theorem read_loaded_part {mem : Memory} (hwf : mem.wf = true) (p : List Byte) :
    ((List.range p.length).map fun a => (mem.writeBytes 0 p).read a) = p := by
  apply List.ext_getElem
  · simp
  · intro i _ hi
    simp [Memory.read_writeBytes p mem 0 i hwf, hi]

/-- A block in which `H_APPEND` can go on (rules R45, R177), with legal parameters and a canonical buffer. -/
structure Appending (s : State) : Prop where
  /-- ERR. -/
  running : s.err = false
  /-- HV. -/
  live : s.hv = true
  /-- PLEN = COUNT mod 64. -/
  fill : s.hash.plen.toNat = s.hash.count.toNat % 64
  /-- The parameters. -/
  params : s.cfg.wf = true
  /-- DBUF. -/
  canonical : s.dbuf.wf = true

theorem bufBytes_lt_of_wf {c : Config} (h : c.wf = true) : c.bufBytes < 2 ^ 32 := by
  simp only [Config.wf, Bool.and_eq_true, decide_eq_true_eq] at h
  omega

/-- One part: the host loads it, sets ARG to its length and issues `H_APPEND` (rules R177, R180). -/
theorem Appending.append_part {s : State} (hs : Appending s) {p : List Byte} (hfit : p.length ≤ s.cfg.bufBytes)
    (hlen : s.hash.count.toNat + p.length < 2 ^ 61) :
    ∃ t, exec .hAppend (setArg (BitVec.ofNat 32 p.length) (setDbuf (s.dbuf.writeBytes 0 p) s)) = .next t
      ∧ t.hash = absorb s.hash p ∧ t.hash.count.toNat = s.hash.count.toNat + p.length ∧ t.cfg = s.cfg
      ∧ Appending t := by
  have harg : (BitVec.ofNat 32 p.length).toNat = p.length := by
    have hbound := bufBytes_lt_of_wf hs.params
    rw [BitVec.toNat_ofNat]
    omega
  have hwf : (s.dbuf.writeBytes 0 p).wf = true := Memory.wf_writeBytes p s.dbuf 0 hs.canonical
  obtain ⟨t, ht, hhash, hcount, hplen, hhv, -, -, -, ⟨herr, -⟩, ⟨-, hcfg, -, -⟩, -⟩ :=
    hAppendAbsorbs (setArg (BitVec.ofNat 32 p.length) (setDbuf (s.dbuf.writeBytes 0 p) s)) hs.running hs.live
      (by rw [setArg_arg, harg]; exact hfit) (by rw [setArg_arg, harg]; exact hlen) hs.fill
  rw [setArg_arg, harg] at hhash hcount
  exact ⟨t, ht, hhash.trans (congrArg (absorb s.hash) (read_loaded_part hs.canonical p)), hcount, hcfg,
    herr.trans hs.running, hhv, hplen, hcfg ▸ hs.params, exec_wf .hAppend _ t ht hwf⟩

/-- Appending the parts one after another absorbs their concatenation. -/
theorem Appending.appendParts {parts : List (List Byte)} {s : State} (hs : Appending s)
    (hfit : ∀ p ∈ parts, p.length ≤ s.cfg.bufBytes) (hlen : s.hash.count.toNat + parts.flatten.length < 2 ^ 61) :
    ∃ t, appendParts parts s = .next t ∧ t.hash = absorb s.hash parts.flatten ∧ Appending t := by
  induction parts generalizing s with
  | nil => exact ⟨s, rfl, rfl, hs⟩
  | cons p parts ih =>
    obtain ⟨hp, hrest⟩ := List.forall_mem_cons.mp hfit
    rw [List.flatten_cons, List.length_append] at hlen
    obtain ⟨u, hu, hhash, hcount, hcfg, hus⟩ := hs.append_part hp (by omega)
    obtain ⟨t, ht, hthash, hts⟩ := ih hus (by rw [hcfg]; exact hrest) (by omega)
    refine ⟨t, ?_, ?_, hts⟩
    · rw [Machine.appendParts, hu]
      exact ht
    · rw [hthash, hhash, List.flatten_cons, absorb_append]

/-- Settles O48: `H_INIT` starts a hash, the parts absorb the message, and `H_FINAL` finishes it. -/
theorem hashIndependentOfSplit : Obligations.HashIndependentOfSplit := by
  intro s parts herr hcfg hwf hfit hlen
  have hstart : Appending (setHv true (setHash { s.hash with h := shaH0, plen := 0, count := 0 } s)) :=
    ⟨herr, rfl, rfl, hcfg, hwf⟩
  obtain ⟨s2, hs2, hhash, happ⟩ := hstart.appendParts (parts := parts) hfit (by simpa using hlen)
  refine ⟨_, s2, _, exec_hInit_running herr, hs2, exec_hFinal_running happ.running happ.live, ?digest, happ.running⟩
  case digest =>
    calc digestBytes (finishHash s2.hash).h
        = digestBytes (finishHash (absorb { s.hash with h := shaH0, plen := 0, count := 0 } parts.flatten)).h := by
          rw [hhash]; rfl
      _ = sha256 parts.flatten := StartsHash.digestBytes_finish ⟨rfl, rfl, rfl⟩ hlen

end Sys2Proof.Machine
end

section
/-! The ratchet statements, part 1: the fold and the shuffle (rules R205, R207). -/

namespace Sys2Proof.Machine

/-! ### The fold -/

theorem byteAt_foldByte (t : Bytes 32) (acc : Bytes 4) (i : Nat) {a : Nat} (ha : a < 4) :
    byteAt (foldByte t acc i) a = if a = i % 4 then byteAt acc a ^^^ byteAt t i else byteAt acc a := by
  simp [foldByte, byteAt_ofFn _ _ ha, byteAt_of_lt acc a ha]

/-- The accumulators after the first `n` bytes of the token. -/
def foldPrefix (t : Bytes 32) (n : Nat) : Bytes 4 := (List.range n).foldl (foldByte t) (zeroBytes 4)

theorem foldPrefix_succ (t : Bytes 32) (n : Nat) : foldPrefix t (n + 1) = foldByte t (foldPrefix t n) n := by
  rw [foldPrefix, List.range_succ, List.foldl_append]
  rfl

theorem foldToken_eq_foldPrefix (t : Bytes 32) : foldToken t = foldPrefix t 32 := by
  rw [foldToken, foldPrefix]

/-- Each group of four token bytes gives every accumulator one of them. -/
theorem byteAt_foldPrefix_group (t : Bytes 32) (m : Nat) {a : Nat} (ha : a < 4) :
    byteAt (foldPrefix t (4 * m + 4)) a = byteAt (foldPrefix t (4 * m)) a ^^^ byteAt t (a + 4 * m) := by
  have hmod : ∀ c, c < 4 → (4 * m + c) % 4 = c := by omega
  simp only [foldPrefix_succ, byteAt_foldByte _ _ _ ha, hmod _ (by decide : 3 < 4), hmod _ (by decide : 2 < 4),
    hmod _ (by decide : 1 < 4), Nat.mul_mod_right]
  obtain rfl | rfl | rfl | rfl : a = 0 ∨ a = 1 ∨ a = 2 ∨ a = 3 := by omega
  all_goals simp [Nat.add_comm]

/-- Accumulator `a` is the exclusive-or of the token's bytes a, a+4, …, a+28 (rule R205). -/
theorem byteAt_foldToken (t : Bytes 32) {a : Nat} (ha : a < 4) :
    byteAt (foldToken t) a = byteAt t a ^^^ byteAt t (a + 4) ^^^ byteAt t (a + 8) ^^^ byteAt t (a + 12)
      ^^^ byteAt t (a + 16) ^^^ byteAt t (a + 20) ^^^ byteAt t (a + 24) ^^^ byteAt t (a + 28) := by
  have hgroup := fun m => byteAt_foldPrefix_group t m ha
  have hzero : byteAt (foldPrefix t 0) a = 0#8 := byteAt_zeroBytes 4 a
  rw [foldToken_eq_foldPrefix, hgroup 7, hgroup 6, hgroup 5, hgroup 4, hgroup 3, hgroup 2, hgroup 1, hgroup 0, hzero,
    BitVec.zero_xor]
  rfl

/-- Byte `a` of a word counted from bits 7:0 (rule R10). -/
theorem extractLsb'_le32 (acc : Bytes 4) {a : Nat} (ha : a < 4) :
    (le32 acc[0] acc[1] acc[2] acc[3]).extractLsb' (8 * a) 8 = byteAt acc a := by
  obtain rfl | rfl | rfl | rfl : a = 0 ∨ a = 1 ∨ a = 2 ∨ a = 3 := by omega
  all_goals
    rw [le32]
    repeat rw [BitVec.extractLsb'_append_eq_of_le (by decide)]
  case inr.inr.inr => exact BitVec.extractLsb'_eq_self
  all_goals exact BitVec.extractLsb'_append_eq_right

/-- The other byte order takes the same bytes from the other end. -/
theorem be32_eq_le32 (b0 b1 b2 b3 : Byte) : be32 b0 b1 b2 b3 = le32 b3 b2 b1 b0 := rfl

/-- Byte `a` of the pattern is accumulator `a`, from bits 7:0 with LE and from bits 31:24 with BE (rule R205). -/
theorem extractLsb'_patternOf (order : PatOrder) (acc : Bytes 4) {a : Nat} (ha : a < 4) :
    (patternOf order acc).extractLsb' (match order with | .le => 8 * a | .be => 8 * (3 - a)) 8 = byteAt acc a := by
  cases order with
  | le => rw [patternOf]; exact extractLsb'_le32 acc ha
  | be =>
    rw [patternOf, be32_eq_le32]
    have hrev := extractLsb'_le32 #v[acc[3], acc[2], acc[1], acc[0]] (a := 3 - a) (by omega)
    refine Eq.trans hrev ?_
    obtain rfl | rfl | rfl | rfl : a = 0 ∨ a = 1 ∨ a = 2 ∨ a = 3 := by omega
    all_goals rfl

/-! ### The shuffle -/

theorem swapBytes_eq_swap {i j : Nat} (hi : i < 32) (hj : j < 32) (w : Bytes 32) : swapBytes i j w = w.swap i j := by
  apply Vector.ext
  intro x hx
  simp [swapBytes, Vector.getElem_swap, byteAt_of_lt, hi, hj]

theorem byteAt_swapBytes (i j : Nat) (w : Bytes 32) {x : Nat} (hx : x < 32) :
    byteAt (swapBytes i j w) x = if x = i then byteAt w j else if x = j then byteAt w i else byteAt w x := by
  rw [swapBytes, byteAt_ofFn _ _ hx, byteAt_of_lt w x hx]
  rfl

/-- The shuffle after pattern bits 0 to `n - 1` (rule R207). -/
def shufflePrefix (p : Word) (w : Bytes 32) (n : Nat) : Bytes 32 := (List.range n).foldl (shuffleBit p) w

theorem shufflePrefix_zero (p : Word) (w : Bytes 32) : shufflePrefix p w 0 = w := rfl

theorem shufflePrefix_succ (p : Word) (w : Bytes 32) (n : Nat) :
    shufflePrefix p w (n + 1) = shuffleBit p (shufflePrefix p w n) n := by
  rw [shufflePrefix, List.range_succ, List.foldl_append]
  rfl

theorem shuffle_eq_shufflePrefix (w : Bytes 32) (p : Word) : shuffle w p = shufflePrefix p w 32 := by
  rw [shuffle, shufflePrefix]

theorem shuffleBit_of_set {p : Word} {k : Nat} (h : p.getLsbD k = true) (w : Bytes 32) :
    shuffleBit p w k = swapBytes k ((k + 1) % 32) w := if_pos h

theorem shuffleBit_of_clear {p : Word} {k : Nat} (h : p.getLsbD k = false) (w : Bytes 32) :
    shuffleBit p w k = w := by
  rw [shuffleBit, h, if_neg nofun]

theorem shuffleBit_perm (p : Word) (w : Bytes 32) {k : Nat} (hk : k < 32) : (shuffleBit p w k).Perm w := by
  cases hbit : p.getLsbD k with
  | false => rw [shuffleBit_of_clear hbit]
  | true =>
    rw [shuffleBit_of_set hbit, swapBytes_eq_swap hk (Nat.mod_lt _ (by decide))]
    exact Vector.swap_perm _ _

theorem shufflePrefix_perm (p : Word) (w : Bytes 32) {n : Nat} (hn : n ≤ 32) : (shufflePrefix p w n).Perm w := by
  induction n with
  | zero => exact .refl w
  | succ n ih =>
    rw [shufflePrefix_succ]
    exact (shuffleBit_perm p _ hn).trans (ih (by omega))

/-- Bits that are all clear leave every byte where it is. -/
theorem shufflePrefix_of_clear {p : Word} {n : Nat} (h : ∀ k < n, p.getLsbD k = false) (w : Bytes 32) :
    shufflePrefix p w n = w := by
  induction n with
  | zero => rfl
  | succ n ih => rw [shufflePrefix_succ, shuffleBit_of_clear (h n (by omega)), ih fun k hk => h k (by omega)]

/-- Below bit 31, bits that are all set carry byte 0 up to byte `n` and move the bytes in between one down. -/
theorem byteAt_shufflePrefix_of_set {p : Word} {n : Nat} (hn : n ≤ 31) (h : ∀ k < n, p.getLsbD k = true)
    (w : Bytes 32) {x : Nat} (hx : x < 32) :
    byteAt (shufflePrefix p w n) x
      = if x < n then byteAt w (x + 1) else if x = n then byteAt w 0 else byteAt w x := by
  induction n generalizing x with
  | zero => by_cases h0 : x = 0 <;> simp [shufflePrefix_zero, h0]
  | succ n ih =>
    have hih := fun {x} => ih (by omega) (fun k hk => h k (by omega)) (x := x)
    rw [shufflePrefix_succ, shuffleBit_of_set (h n (by omega)), Nat.mod_eq_of_lt (by omega), byteAt_swapBytes _ _ _ hx,
      hih hx, hih (by omega : n + 1 < 32), hih (by omega : n < 32)]
    obtain hlt | rfl | rfl | hgt : x < n ∨ x = n ∨ x = n + 1 ∨ n + 1 < x := by omega
    · simp [hlt, Nat.lt_succ_of_lt hlt, hlt.ne, (Nat.lt_succ_of_lt hlt).ne]
    · simp
    · simp
    · simp [show ¬ x < n by omega, show ¬ x < n + 1 by omega, show x ≠ n by omega, show x ≠ n + 1 by omega]

/-- The last bit swaps the two ends. -/
theorem byteAt_shuffle_of_last {p : Word} (h : p.getLsbD 31 = true) (w : Bytes 32) {x : Nat} (hx : x < 32) :
    byteAt (shuffle w p) x = if x = 0 then byteAt (shufflePrefix p w 31) 31
      else if x = 31 then byteAt (shufflePrefix p w 31) 0 else byteAt (shufflePrefix p w 31) x := by
  rw [shuffle_eq_shufflePrefix, shufflePrefix_succ, shuffleBit_of_set h, byteAt_swapBytes _ _ _ hx]
  by_cases h0 : x = 0 <;> simp [h0]

theorem shuffle_of_not_last {p : Word} (h : p.getLsbD 31 = false) (w : Bytes 32) :
    shuffle w p = shufflePrefix p w 31 := by
  rw [shuffle_eq_shufflePrefix, shufflePrefix_succ, shuffleBit_of_clear h]

/-- Settles O49: every bit swaps two bytes or none; the corner cases have bits 0 to 30 all clear or all set. -/
theorem shufflePermutesBytes : Obligations.ShufflePermutesBytes := by
  intro w
  refine ⟨fun p => ?perm, ?none, fun i hi => ?last, fun i hi => ?rotate, fun i hi => ?all⟩
  case perm =>
    rw [shuffle_eq_shufflePrefix]
    exact (shufflePrefix_perm p w (Nat.le_refl 32)).toList
  case none => rw [shuffle_eq_shufflePrefix, shufflePrefix_of_clear (by decide)]
  case last => rw [byteAt_shuffle_of_last (by decide) w hi, shufflePrefix_of_clear (by decide)]
  case rotate =>
    rw [shuffle_of_not_last (by decide), byteAt_shufflePrefix_of_set (Nat.le_refl 31) (by decide) w hi]
    obtain hlt | rfl : i < 31 ∨ i = 31 := by omega
    · rw [if_pos hlt, Nat.mod_eq_of_lt (by omega)]
    · rfl
  case all =>
    have hlow := fun {x} => byteAt_shufflePrefix_of_set (Nat.le_refl 31) (p := 0xFFFFFFFF) (by decide) w (x := x)
    rw [byteAt_shuffle_of_last (by decide) w hi, hlow hi, hlow (by decide : 0 < 32), hlow (by decide : 31 < 32)]
    obtain rfl | rfl | ⟨h0, h31⟩ : i = 0 ∨ i = 31 ∨ i ≠ 0 ∧ i ≠ 31 := by omega
    · rfl
    · rfl
    · rw [if_neg h0, if_neg h31, if_pos (by omega : i < 31), if_neg h0, if_neg h31]

end Sys2Proof.Machine
end

section
/-! The ratchet statements, part 2: the commands of TokenRatchet where no fault applies (rules R203 to R205, R208), what
`R_STEP` does not read (rules R206, R283), and a whole run in closed form (rules R202, R209). -/

namespace Sys2Proof.Machine

/-! ### What each command answers -/

/-- The state that `R_BEGIN` leaves, with the seed and the target taken (rule R203). -/
def ratchetBegun (s : State) : State :=
  setPv false (setRdone false (setRatchet
    { rst := .begin, src := tokenOperand s, sync := zeroBytes 32, pat := 0, target := s.arg, cur := 0,
      work := tokenOperand s } s))

/-- The state with a pattern set, and a sync token recorded or kept (rules R204, R205). -/
def patternSet (sync : Bytes 32) (pat : Word) (s : State) : State :=
  setPv true (setRatchet { s.ratchet with sync := sync, pat := pat } s)

section Running

variable {s : State} (herr : s.err = false)
include herr

theorem exec_rBegin_running : exec .rBegin s = .next (ratchetBegun s) :=
  unlessStopped_running s _ herr

theorem exec_rStep_noRatchet (hrst : s.ratchet.rst = .none) : exec .rStep s = .next (raiseFault .noRatchet s) := by
  rw [exec, execRStep, unlessStopped_running s _ herr, if_pos hrst]

variable (hrst : s.ratchet.rst ≠ .none)
include hrst

theorem exec_rBind_running :
    exec .rBind s
      = .next (patternSet (tokenOperand s) (patternOf s.cfg.patOrder (foldToken (tokenOperand s))) s) := by
  rw [exec, execRBind, unlessStopped_running s _ herr, if_neg hrst]
  rfl

theorem exec_rSetpat_running : exec .rSetpat s = .next (patternSet s.ratchet.sync s.arg s) := by
  rw [exec, execRSetpat, unlessStopped_running s _ herr, if_neg hrst]
  rfl

theorem exec_rStep_atTarget (hcur : s.ratchet.cur = s.ratchet.target) :
    exec .rStep s = .next (setRdone true (setRatchet { s.ratchet with rst := .complete } s)) := by
  rw [exec, execRStep, unlessStopped_running s _ herr, if_neg hrst, if_pos hcur]

variable (hcur : s.ratchet.cur ≠ s.ratchet.target)
include hcur

theorem exec_rStep_noPattern (hpv : s.pv = false) : exec .rStep s = .next (raiseFault .noPattern s) := by
  rw [exec, execRStep, unlessStopped_running s _ herr, if_neg hrst, if_neg hcur, if_pos hpv]

theorem exec_rStep_round (hpv : s.pv = true) : exec .rStep s = .next (roundDone s) := by
  rw [exec, execRStep, unlessStopped_running s _ herr, if_neg hrst, if_neg hcur, if_neg (by simp [hpv])]

end Running

/-- One round, whether or not it reaches the target (rule R208). -/
theorem roundDone_eq (s : State) :
    roundDone s = setRdone (decide (s.ratchet.cur + 1 = s.ratchet.target)) (setRatchet
      { s.ratchet with
        rst := if s.ratchet.cur + 1 = s.ratchet.target then .complete else .running
        cur := s.ratchet.cur + 1
        work := ratchetRound s.ratchet.work s.ratchet.pat } s) := by
  obtain ⟨hreached, heq⟩ | ⟨hshort, heq⟩ := roundDone_cases s
  · rw [heq, decide_eq_true hreached, if_pos hreached]
  · rw [heq, decide_eq_false hshort, if_neg hshort]

/-- The token is the first 32 bytes of DBUF (rule R75). -/
theorem byteAt_tokenOperand (s : State) {i : Nat} (hi : i < 32) : byteAt (tokenOperand s) i = s.dbuf.read i := by
  rw [tokenOperand, byteAt_memRead _ _ _ _ hi, Nat.zero_add]

/-! ### The statements about one command -/

/-- Settles O50. -/
theorem rBeginTakesSeed : Obligations.RBeginTakesSeed := by
  intro s herr
  exact ⟨_, exec_rBegin_running herr, fun i hi => byteAt_tokenOperand s hi, rfl, rfl, rfl, rfl, rfl,
    fun i => byteAt_zeroBytes 32 i, rfl, rfl, ⟨rfl, rfl⟩, ⟨rfl, rfl, rfl⟩, ⟨rfl, rfl⟩, ⟨rfl, rfl, rfl, rfl⟩,
    fun _ => rfl⟩

/-- Settles O51: byte `a` of the pattern is accumulator `a` of the folded token. -/
theorem rBindFoldsToken : Obligations.RBindFoldsToken := by
  intro s herr hrst
  refine ⟨_, exec_rBind_running herr hrst, fun i hi => byteAt_tokenOperand s hi, fun a ha => ?pattern, rfl, rfl, rfl,
    rfl, rfl, rfl, rfl, ⟨rfl, rfl⟩, ⟨rfl, rfl, rfl⟩, ⟨rfl, rfl⟩, ⟨rfl, rfl, rfl, rfl⟩, fun _ => rfl⟩
  case pattern =>
    refine (extractLsb'_patternOf s.cfg.patOrder (foldToken (tokenOperand s)) ha).trans ?_
    rw [byteAt_foldToken _ ha]
    iterate 8 rw [byteAt_tokenOperand s (by omega)]

/-- Settles O52. -/
theorem rSetpatSetsPattern : Obligations.RSetpatSetsPattern :=
  fun _ herr hrst => exec_rSetpat_running herr hrst

/-- Settles O53. -/
theorem rStepDoesOneRound : Obligations.RStepDoesOneRound := by
  intro s herr hrst
  refine ⟨exec_rStep_atTarget herr hrst, fun hcur hpv => ?_⟩
  rw [exec_rStep_round herr hrst hcur hpv, roundDone_eq]
  rfl

/-! ### What `R_STEP` does not read -/

/-- The state with other values in ARG, DBUF, CipherEngine and HashEngine. -/
def State.withOthers (v : Word) (buf : Memory) (cv hv : Bool) (c : CipherState) (h : HashState) (d : Bytes 32)
    (s : State) : State :=
  { s with arg := v, dbuf := buf, cv := cv, cipher := c, hv := hv, hash := h, digest := d }

/-- Settles O55: each case of `R_STEP` is chosen by ERR, PV and TokenRatchet, and writes ERR, ECODE, RDONE and
TokenRatchet only, so it is the same case with the same effect whatever the rest of the block holds. -/
theorem rStepReadsOnlyRatchet : Obligations.RStepReadsOnlyRatchet := by
  intro s t v buf cv hv c h d hexec
  change exec .rStep (s.withOthers v buf cv hv c h d) = .next (t.withOthers v buf cv hv c h d)
  obtain ⟨herr, rfl⟩ | ⟨herr, ⟨hrst, rfl⟩ | ⟨hrst, hcur, rfl⟩ | ⟨hrst, hcur, hpv, rfl⟩ | ⟨hrst, hcur, hpv, rfl⟩⟩ :=
    execRStep_cases s t hexec
  · exact exec_stopped .rStep _ nofun herr
  · exact exec_rStep_noRatchet herr hrst
  · exact exec_rStep_atTarget herr hrst hcur
  · exact exec_rStep_noPattern herr hrst hcur hpv
  · rw [exec_rStep_round (s := s.withOthers v buf cv hv c h d) herr hrst hcur hpv, roundDone_eq, roundDone_eq]
    rfl

/-! ### A run in closed form -/

theorem runCommands_append {is js : List Instr} {s t : State} (h : runCommands is s = .next t) :
    runCommands (is ++ js) s = runCommands js t := by
  induction is generalizing s with
  | nil => rw [Host.Outcome.next.inj h, List.nil_append]
  | cons i is ih =>
    rw [List.cons_append, runCommands]
    rw [runCommands] at h
    cases hexec : exec i s with
    | next u => rw [hexec] at h; exact ih h
    | fault r => rw [hexec] at h; cases h
    | refused r => rw [hexec] at h; cases h

/-- A block with ERR = 0 after `k` commands `R_STEP` from a seed under one pattern (rules R202, R209). -/
structure Ratcheted (seed : Bytes 32) (pat target : Word) (k : Nat) (t : State) : Prop where
  /-- ERR. -/
  running : t.err = false
  /-- RST: a ratchet state exists. -/
  live : t.ratchet.rst ≠ .none
  /-- PV. -/
  valid : t.pv = true
  /-- PAT. -/
  pattern : t.ratchet.pat = pat
  /-- TARGET. -/
  goal : t.ratchet.target = target
  /-- CUR. -/
  count : t.ratchet.cur.toNat = min k target.toNat
  /-- WORK. -/
  work : t.ratchet.work = (fun w => ratchetRound w pat)^[min k target.toNat] seed
  /-- RDONE. -/
  done : t.rdone = true ↔ k ≠ 0 ∧ target.toNat ≤ k
  /-- RST: the target is reached. -/
  complete : t.ratchet.rst = .complete ↔ k ≠ 0 ∧ target.toNat ≤ k

section Step

variable {seed : Bytes 32} {pat target : Word} {k : Nat} {t : State} (h : Ratcheted seed pat target k t)
include h

/-- CUR has reached TARGET as soon as as many steps were taken; the count never wraps, for it stops there. -/
theorem Ratcheted.cur_eq_target_iff : t.ratchet.cur = t.ratchet.target ↔ target.toNat ≤ k := by
  rw [h.goal, ← BitVec.toNat_inj, h.count]
  omega

/-- A step at the target marks the ratchet complete and does no round. -/
theorem Ratcheted.step_atTarget (hk : target.toNat ≤ k) :
    Ratcheted seed pat target (k + 1) (setRdone true (setRatchet { t.ratchet with rst := .complete } t)) where
  running := h.running
  live := nofun
  valid := h.valid
  pattern := h.pattern
  goal := h.goal
  count := by rw [Nat.min_eq_right (Nat.le_succ_of_le hk), ← Nat.min_eq_right hk]; exact h.count
  work := by rw [Nat.min_eq_right (Nat.le_succ_of_le hk), ← Nat.min_eq_right hk]; exact h.work
  done := iff_of_true rfl ⟨Nat.succ_ne_zero k, Nat.le_succ_of_le hk⟩
  complete := iff_of_true rfl ⟨Nat.succ_ne_zero k, Nat.le_succ_of_le hk⟩

/-- A step before the target does one round, and completes the ratchet if it is the last. -/
theorem Ratcheted.step_round (hk : k < target.toNat) : Ratcheted seed pat target (k + 1) (roundDone t) := by
  have hmin : min k target.toNat = k := Nat.min_eq_left hk.le
  have hmin' : min (k + 1) target.toNat = k + 1 := Nat.min_eq_left hk
  have hcur : (t.ratchet.cur + 1).toNat = k + 1 := by
    have hcount := h.count
    bv_omega
  have hlast : t.ratchet.cur + 1 = t.ratchet.target ↔ k + 1 ≠ 0 ∧ target.toNat ≤ k + 1 := by
    rw [h.goal, ← BitVec.toNat_inj, hcur]
    omega
  have hwork : ratchetRound t.ratchet.work t.ratchet.pat = (fun w => ratchetRound w pat)^[k + 1] seed := by
    rw [Function.iterate_succ_apply', h.work, h.pattern, hmin]
  rw [roundDone_eq]
  exact
    { running := h.running
      live := by rw [setRdone_ratchet, setRatchet_ratchet]; split <;> nofun
      valid := h.valid
      pattern := h.pattern
      goal := h.goal
      count := hcur.trans hmin'.symm
      work := by rw [hmin']; exact hwork
      done := decide_eq_true_iff.trans hlast
      complete := by
        rw [← hlast, setRdone_ratchet, setRatchet_ratchet]
        split
        next hreached => exact iff_of_true rfl hreached
        next hshort => exact iff_of_false nofun hshort }

theorem Ratcheted.exec_rStep : ∃ u, exec .rStep t = .next u ∧ Ratcheted seed pat target (k + 1) u := by
  by_cases hk : target.toNat ≤ k
  · exact ⟨_, exec_rStep_atTarget h.running h.live (h.cur_eq_target_iff.mpr hk), h.step_atTarget hk⟩
  · exact ⟨_, exec_rStep_round h.running h.live (mt h.cur_eq_target_iff.mp hk) h.valid, h.step_round (by omega)⟩

end Step

/-- From the first pattern on, any number of steps. -/
theorem Ratcheted.run_rStep {seed : Bytes 32} {pat target : Word} {s : State} (h : Ratcheted seed pat target 0 s)
    (k : Nat) : ∃ t, runCommands (List.replicate k .rStep) s = .next t ∧ Ratcheted seed pat target k t := by
  induction k with
  | zero => exact ⟨s, rfl, h⟩
  | succ k ih =>
    obtain ⟨t, ht, hk⟩ := ih
    obtain ⟨u, hu, hk'⟩ := hk.exec_rStep
    refine ⟨u, ?_, hk'⟩
    rw [List.replicate_succ', runCommands_append ht, runCommands, hu]
    rfl

theorem exec_pattern {bind : Instr} (hbind : bind = .rBind ∨ bind = .rSetpat) {s : State} (herr : s.err = false)
    (hrst : s.ratchet.rst ≠ .none) :
    ∃ sync, exec bind s = .next (patternSet sync
      (if bind = .rSetpat then s.arg else patternOf s.cfg.patOrder (foldToken (tokenOperand s))) s) := by
  obtain rfl | rfl := hbind
  · exact ⟨_, exec_rBind_running herr hrst⟩
  · exact ⟨s.ratchet.sync, exec_rSetpat_running herr hrst⟩

/-- With a pattern set after `R_BEGIN` no step is taken yet: the ratchet is not complete, even with target 0
(rule R203). -/
theorem ratcheted_patternSet {s : State} (herr : s.err = false) (v : Word) (buf : Memory) (sync : Bytes 32)
    (pat : Word) :
    Ratcheted (tokenOperand s) pat s.arg 0 (patternSet sync pat (setArg v (setDbuf buf (ratchetBegun s)))) where
  running := herr
  live := nofun
  valid := rfl
  pattern := rfl
  goal := rfl
  count := (Nat.zero_min _).symm
  work := by rw [Nat.zero_min]; rfl
  done := iff_of_false nofun fun hk => hk.1 rfl
  complete := iff_of_false nofun fun hk => hk.1 rfl

/-- Settles O54: the pattern is set with no step taken, and every step keeps the closed form. -/
theorem ratchetClosedForm : Obligations.RatchetClosedForm := by
  intro s v buf bind k herr hbind
  obtain ⟨sync, hbound⟩ := exec_pattern hbind (s := setArg v (setDbuf buf (ratchetBegun s))) herr nofun
  have htoken : tokenOperand (setArg v (setDbuf buf (ratchetBegun s))) = memRead 0 32 (setDbuf buf s) :=
    memRead_congr _ _ _ _ fun _ _ => rfl
  rw [htoken] at hbound
  obtain ⟨t, hrun, hend⟩ := (ratcheted_patternSet herr v buf sync _).run_rStep k
  exact ⟨_, _, t, exec_rBegin_running herr, hbound, hrun, hend.running, hend.pattern, hend.count,
    by rw [hend.pattern]; exact hend.work, hend.done, hend.complete⟩

end Sys2Proof.Machine
end

section
/-! The system statements: the reset action, `SRST` and the hardware reset (rules R231, R270, R271), and `NOP`
(rule R230). -/

namespace Sys2Proof.Machine

/-! ### Reset -/

/-- Every row of rule R270 for what the reset action leaves of any state. -/
theorem atReset_resetBlock (s : State) : AtReset (resetBlock s) where
  arg := rfl
  error := ⟨rfl, rfl⟩
  valid := ⟨rfl, rfl, rfl⟩
  status := ⟨rfl, rfl⟩
  cipherParams := ⟨rfl, rfl, rfl⟩
  cipherBytes := ⟨byteAt_zeroBytes 240, byteAt_zeroBytes 16⟩
  hashWords i := Vector.getElem_ofFn i.isLt
  pending := ⟨byteAt_zeroBytes 64, rfl, rfl⟩
  digest := byteAt_zeroBytes 32
  tokens := ⟨byteAt_zeroBytes 32, byteAt_zeroBytes 32⟩
  counts := ⟨rfl, rfl, rfl⟩
  work := byteAt_zeroBytes 32
  buffer _ := rfl

/-- The state after reset is its own reset, so the rows hold of it too. -/
theorem atReset_reset : AtReset State.reset := atReset_resetBlock State.reset

/-- Every field of STATUS (rule R25) is zero where the elements have their reset values. -/
theorem AtReset.statusWord {s : State} (h : AtReset s) : statusWord s = 0 := by
  obtain ⟨herr, hecode⟩ := h.error
  obtain ⟨hcv, hhv, hpv⟩ := h.valid
  obtain ⟨hrst, hrdone⟩ := h.status
  obtain ⟨hcm, hckl, -⟩ := h.cipherParams
  rw [Machine.statusWord, herr, hecode, hcv, hhv, hpv, hrst, hrdone, hcm, hckl]
  rfl

/-- `SRST` performs the reset action whether ERR is 0 or 1 (rule R231). -/
theorem exec_srst (s : State) : exec .srst s = .next (resetBlock s) := rfl

/-- The hardware reset performs the reset action (rule R271). -/
theorem hostMove_hardReset (s : State) : hostMove .hardReset s = .next (resetBlock s) := rfl

/-- Settles O18: `SRST` and the hardware reset both end in `resetBlock s`, which meets every row of rule R270. -/
theorem resetSetsEveryElement : Obligations.ResetSetsEveryElement := by
  refine ⟨atReset_reset, atReset_reset.statusWord, fun s => ?_⟩
  have hrows := atReset_resetBlock s
  exact ⟨resetBlock s, exec_srst s, hostMove_hardReset s, hrows, hrows.statusWord, resetBlock_cfg s, resetBlock_host s,
    resetBlock_replies s⟩

/-! ### NOP -/

/-- Settles O29: a stopped block ignores the command, and a running one has nothing to do. -/
theorem nopChangesNothing : Obligations.NopChangesNothing := by
  intro s
  cases herr : s.err with
  | true => exact exec_stopped .nop s nofun herr
  | false => exact unlessStopped_running s (.next s) herr

end Sys2Proof.Machine
end

section
/-! The fault statements (rules R241 to R244). Which fault a command raises is said once, in `exec_followsTable`: the cases
of each command's own law are matched with the branches of `faultOf`. -/

namespace Sys2Proof.Machine

/-! ### The fault table -/

/-- The state `t` is the one that rule R241's table asks for after command `i` in `s`: the fault it gives is taken, and
where it gives none ERR and ECODE stay. -/
inductive FollowsTable (i : Instr) (s : State) : State → Prop where
  /-- The table gives a fault. -/
  | faults (c : Cause) (h : faultOf i s = some c) : FollowsTable i s (raiseFault c s)
  /-- The table gives none. -/
  | completes {t : State} (h : faultOf i s = none) (herr : SameError s t) : FollowsTable i s t

/-- The end of a padded operand, as rule R138 computes it and as the table writes it. -/
theorem add_padLength (l : Nat) : l + padLength l = l + 16 - l % 16 := by
  unfold padLength
  omega

/-- Of the two cases of a command's law a running block leaves the second. -/
theorem of_running {s t : State} {P : Prop} (hrun : s.err = false)
    (h : (s.err = true ∧ t = s) ∨ (s.err = false ∧ P)) : P := by
  obtain ⟨hstop, -⟩ | ⟨-, hp⟩ := h
  · exact absurd (hrun.symm.trans hstop) nofun
  · exact hp

theorem roundDone_sameError (s : State) : SameError s (roundDone s) := by
  rw [roundDone_eq]
  exact ⟨rfl, rfl⟩

/-- Every command but `SRST` of a running block takes the first fault of its row, or completes. -/
theorem exec_followsTable (i : Instr) (s t : State) (hi : i ≠ .srst) (hrun : s.err = false)
    (h : exec i s = .next t) : FollowsTable i s t := by
  cases i with
  | srst => exact absurd rfl hi
  | nop =>
    rw [execNop_cases s t h]
    exact .completes rfl ⟨rfl, rfl⟩
  | cInit m kl =>
    obtain ⟨hkl, rfl⟩ | ⟨hkl, rfl⟩ := of_running hrun (execCInit_cases m kl s t h)
    · exact .faults _ (by simp [faultOf, hkl])
    · exact .completes (if_neg hkl) ⟨rfl, rfl⟩
  | cEnc =>
    have hcases := of_running hrun (execCEnc_cases s t h)
    simp only [argLength] at hcases
    obtain ⟨hcv, rfl⟩ | ⟨hcv, hmod, rfl⟩ | ⟨hcv, hmod, hover, rfl⟩ | ⟨hcv, hmod, hfit, rfl⟩ := hcases
    · exact .faults _ (by simp [faultOf, hcv])
    · exact .faults _ (by simp [faultOf, hcv, hmod])
    · exact .faults _ (by simp [faultOf, hcv, hmod, hover])
    · exact .completes (by simp [faultOf, hcv, hmod, hfit]) ((SameButData.refl s).forBlocks_encryptBlock _).error
  | cEncp =>
    have hcases := of_running hrun (execCEncp_cases s t h)
    simp only [argLength, add_padLength] at hcases
    obtain ⟨hcv, rfl⟩ | ⟨hcv, hover, rfl⟩ | ⟨hcv, hfit, rfl⟩ := hcases
    · exact .faults _ (by simp [faultOf, hcv])
    · exact .faults _ (by simp [faultOf, hcv, hover])
    · exact .completes (by simp [faultOf, hcv, hfit])
        (((SameButData.refl s).store _ _).forBlocks_encryptBlock _).error
  | cDec =>
    have hcases := of_running hrun (execCDec_cases s t h)
    simp only [argLength] at hcases
    obtain ⟨hcv, rfl⟩ | ⟨hcv, hmod, rfl⟩ | ⟨hcv, hmod, hover, rfl⟩ | ⟨hcv, hmod, hfit, rfl⟩ := hcases
    · exact .faults _ (by simp [faultOf, hcv])
    · exact .faults _ (by simp [faultOf, hcv, hmod])
    · exact .faults _ (by simp [faultOf, hcv, hmod, hover])
    · exact .completes (by simp [faultOf, hcv, hmod, hfit]) ((SameButData.refl s).forBlocks_decryptBlock _).error
  | hInit =>
    obtain rfl := of_running hrun (execHInit_cases s t h)
    exact .completes rfl ⟨rfl, rfl⟩
  | hAppend =>
    have hcases := of_running hrun (execHAppend_cases s t h)
    simp only [argLength] at hcases
    obtain ⟨hhv, rfl⟩ | ⟨hhv, hover, rfl⟩ | ⟨hhv, hfit, hlong, rfl⟩ | ⟨hhv, hfit, hlen, rfl⟩ := hcases
    · exact .faults _ (by simp [faultOf, hhv])
    · exact .faults _ (by simp [faultOf, hhv, hover])
    · exact .faults _ (by rw [faultOf, if_neg (by simp [hhv]), if_neg (Nat.not_lt.mpr hfit), if_pos hlong])
    · exact .completes
        (by rw [faultOf, if_neg (by simp [hhv]), if_neg (Nat.not_lt.mpr hfit), if_neg (Nat.not_le.mpr hlen)])
        ⟨rfl, rfl⟩
  | hFinal =>
    obtain ⟨hhv, rfl⟩ | ⟨hhv, rfl⟩ := of_running hrun (execHFinal_cases s t h)
    · exact .faults _ (by simp [faultOf, hhv])
    · exact .completes (by simp [faultOf, hhv]) ⟨rfl, rfl⟩
  | rBegin =>
    obtain rfl := of_running hrun (execRBegin_cases s t h)
    exact .completes rfl ⟨rfl, rfl⟩
  | rBind =>
    obtain ⟨hrst, rfl⟩ | ⟨hrst, rfl⟩ := of_running hrun (execRBind_cases s t h)
    · exact .faults _ (by simp [faultOf, hrst])
    · exact .completes (by simp [faultOf, hrst]) ⟨rfl, rfl⟩
  | rSetpat =>
    obtain ⟨hrst, rfl⟩ | ⟨hrst, rfl⟩ := of_running hrun (execRSetpat_cases s t h)
    · exact .faults _ (by simp [faultOf, hrst])
    · exact .completes (by simp [faultOf, hrst]) ⟨rfl, rfl⟩
  | rStep =>
    obtain ⟨hrst, rfl⟩ | ⟨hrst, hcur, rfl⟩ | ⟨hrst, hcur, hpv, rfl⟩ | ⟨hrst, hcur, hpv, rfl⟩ :=
      of_running hrun (execRStep_cases s t h)
    · exact .faults _ (by simp [faultOf, hrst])
    · exact .completes (by simp [faultOf, hrst, hcur]) ⟨rfl, rfl⟩
    · exact .faults _ (by simp [faultOf, hrst, hcur, hpv])
    · exact .completes (by simp [faultOf, hrst, hcur, hpv]) (roundDone_sameError s)

/-! ### The statements -/

/-- Settles O23: `SRST` resets ERR and ECODE, and every other command follows the table. -/
theorem faultsFollowTable : Obligations.FaultsFollowTable := by
  refine ⟨⟨rfl, rfl, rfl, rfl, rfl, rfl, rfl, rfl, rfl⟩, fun i s hrun => ?_⟩
  by_cases hi : i = .srst
  · subst hi
    exact ⟨nofun, fun _ => ⟨_, exec_srst s, rfl, rfl⟩⟩
  · obtain ⟨t, ht⟩ := exec_next i s
    cases exec_followsTable i s t hi hrun ht with
    | faults c hfault =>
      refine ⟨fun c' hc' => ?_, fun hnone => absurd (hfault.symm.trans hnone) nofun⟩
      obtain rfl : c = c' := Option.some.inj (hfault.symm.trans hc')
      exact ht
    | completes hnone herr =>
      refine ⟨fun c hc => absurd (hnone.symm.trans hc) nofun, fun _ => ⟨t, ht, herr.1.trans hrun, ?_⟩⟩
      rw [if_neg hi, herr.2]

/-- Settles O24: of all that a CMD write can do to a running block, only `E_ILLEGAL` and the faults of the table set ERR. -/
theorem faultEntryIsPrecise : Obligations.FaultEntryIsPrecise := by
  intro w s t hrun h hstop
  obtain ⟨i, hdec, hexec⟩ | ⟨e, hdec, ⟨hs, -⟩ | ⟨-, rfl⟩⟩ := performCommand_cases w s t h
  · have hi : i ≠ .srst := by
      rintro rfl
      rw [execSrst_cases s t hexec] at hstop
      exact absurd hstop nofun
    cases exec_followsTable i s t hi hrun hexec with
    | faults c hfault => exact ⟨c, rfl, .inr ⟨i, hdec, hfault⟩⟩
    | completes _ herr => exact absurd ((herr.1.trans hrun).symm.trans hstop) nofun
  · exact absurd (hrun.symm.trans hs) nofun
  · exact ⟨.illegal, rfl, .inl ⟨rfl, fun i hi => absurd (hdec.symm.trans hi) nofun⟩⟩

/-- Settles O25: the command is dropped before it is performed, and the bus answers for ARG and DBUF as it does in any
state (rules R64 to R68). -/
theorem stoppedBlockIgnoresCommands : Obligations.StoppedBlockIgnoresCommands := by
  intro s rest hstop hwf
  refine ⟨fun w hw hhost => ?cmd, fun v hhost => ?writeArg, fun hhost => ?readArg, fun a b ha hhost => ?writeByte,
    fun a ha hhost => ?readByte⟩
  case cmd =>
    obtain ⟨t, ht⟩ := performCommand_next (setHost rest s) w
    rw [step_cmd hhost, ht, performCommand_stopped w (setHost rest s) t hw hstop ht]
    rfl
  case writeArg =>
    obtain ⟨-, harg, -⟩ := registerWrites s rest 0x004 v hhost
    exact harg rfl
  case readArg => exact registerReads s rest 0x004 s.arg (by simp) hhost
  case writeByte =>
    obtain ⟨hbuffer, -⟩ := windowWrites s rest (0x100 + a) b hhost hwf
    obtain ⟨m, hstep, -, hread⟩ := hbuffer (by omega) (by omega)
    rw [Nat.add_sub_cancel_left] at hread
    exact ⟨m, hstep, hread⟩
  case readByte =>
    obtain ⟨-, -, hbuffer⟩ := windowReads s rest (0x100 + a) hhost
    have hstep := hbuffer (by omega) (by omega)
    rwa [Nat.add_sub_cancel_left] at hstep

end Sys2Proof.Machine
end

section
/-! The statement about runs (rules R289, R290). No host move reads the moves that the host has still to make, so a move
and putting moves on the host's list commute; a run by steps is then the run of the moves. -/

namespace Sys2Proof.Machine

/-! ### The host's remaining moves -/

/-- The same answer with `ms` as the moves the host has still to make. -/
def withHost (ms : List HostMove) : Result → Result
  | .next t => .next (setHost ms t)
  | .fault r => .fault r
  | .refused r => .refused r

section Commute

variable (ms : List HostMove)

@[simp] theorem withHost_next (t : State) : withHost ms (.next t) = .next (setHost ms t) := rfl

@[simp] theorem withHost_ite (c : Prop) [Decidable c] (r q : Result) :
    withHost ms (if c then r else q) = if c then withHost ms r else withHost ms q :=
  apply_ite (withHost ms) c r q

/-- The ERR test does not read the host's moves; what follows it is left to show. -/
theorem unlessStopped_setHost {s : State} {r r' : Result} (h : r' = withHost ms r) :
    unlessStopped (setHost ms s) r' = withHost ms (unlessStopped s r) := by
  rw [h, unlessStopped, unlessStopped, withHost_ite, withHost_next, setHost_err]

/-! ### Operands and updates -/

@[simp] theorem memRead_setHost (a n : Nat) (s : State) : memRead a n (setHost ms s) = memRead a n s :=
  memRead_congr a n _ s fun _ _ => rfl

@[simp] theorem blockOperand_setHost (k : Nat) (s : State) : blockOperand k (setHost ms s) = blockOperand k s :=
  memRead_setHost ms _ _ s

@[simp] theorem tokenOperand_setHost (s : State) : tokenOperand (setHost ms s) = tokenOperand s :=
  memRead_setHost ms _ _ s

@[simp] theorem messageOperand_setHost (s : State) : messageOperand (setHost ms s) = messageOperand s :=
  congrArg Vector.toList (memRead_setHost ms _ _ s)

@[simp] theorem initialCipher_setHost (m : Mode) (kl : BitVec 2) (s : State) :
    initialCipher m kl (setHost ms s) = initialCipher m kl s :=
  initialCipher_congr m kl (memRead_setHost ms _ _ s) fun _ => memRead_setHost ms _ _ s

theorem memWrite_setHost {n : Nat} (a : Nat) (v : Bytes n) (s : State) :
    memWrite a v (setHost ms s) = setHost ms (memWrite a v s) := rfl

theorem setVec_setHost (v : Block) (s : State) : setVec v (setHost ms s) = setHost ms (setVec v s) := rfl

theorem encryptBlock_setHost (k : Nat) (s : State) :
    encryptBlock k (setHost ms s) = setHost ms (encryptBlock k s) := by
  cases h : s.cipher.cm <;>
    simp only [encryptBlock, setHost_cipher, h, blockOperand_setHost, memWrite_setHost, setVec_setHost]

theorem decryptBlock_setHost (k : Nat) (s : State) :
    decryptBlock k (setHost ms s) = setHost ms (decryptBlock k s) := by
  cases h : s.cipher.cm <;>
    simp only [decryptBlock, setHost_cipher, h, blockOperand_setHost, memWrite_setHost, setVec_setHost]

theorem forBlocks_setHost {pass : Nat → State → State}
    (hpass : ∀ k s, pass k (setHost ms s) = setHost ms (pass k s)) (n : Nat) (s : State) :
    forBlocks pass n (setHost ms s) = setHost ms (forBlocks pass n s) := by
  induction n with
  | zero => rfl
  | succ n ih => rw [forBlocks, forBlocks, ih, hpass]

theorem roundDone_setHost (s : State) : roundDone (setHost ms s) = setHost ms (roundDone s) := by
  rw [roundDone_eq, roundDone_eq]
  rfl

/-! ### Commands and moves -/

/-- No command reads the host's remaining moves: its tests, its operands and its updates do not. -/
theorem exec_setHost (i : Instr) (s : State) : exec i (setHost ms s) = withHost ms (exec i s) := by
  cases i with
  | srst => rfl
  | nop | hInit => exact unlessStopped_setHost ms rfl
  | cInit m kl =>
    refine unlessStopped_setHost ms ?_
    rw [withHost_ite, initialCipher_setHost]
    rfl
  | cEnc =>
    refine unlessStopped_setHost ms ?_
    simp only [withHost_ite, forBlocks_setHost ms (encryptBlock_setHost ms)]
    rfl
  | cEncp =>
    refine unlessStopped_setHost ms ?_
    simp only [withHost_ite, memWrite_setHost, forBlocks_setHost ms (encryptBlock_setHost ms)]
    rfl
  | cDec =>
    refine unlessStopped_setHost ms ?_
    simp only [withHost_ite, forBlocks_setHost ms (decryptBlock_setHost ms)]
    rfl
  | hAppend =>
    refine unlessStopped_setHost ms ?_
    simp only [withHost_ite, messageOperand_setHost]
    rfl
  | hFinal =>
    refine unlessStopped_setHost ms ?_
    rw [withHost_ite]
    rfl
  | rBegin =>
    refine unlessStopped_setHost ms ?_
    rw [tokenOperand_setHost]
    rfl
  | rBind =>
    refine unlessStopped_setHost ms ?_
    rw [tokenOperand_setHost, withHost_ite]
    rfl
  | rSetpat =>
    refine unlessStopped_setHost ms ?_
    rw [withHost_ite]
    rfl
  | rStep =>
    refine unlessStopped_setHost ms ?_
    simp only [withHost_ite, roundDone_setHost]
    rfl

theorem performCommand_setHost (w : Word) (s : State) :
    performCommand w (setHost ms s) = withHost ms (performCommand w s) := by
  cases hdec : decode w with
  | ok i => rw [performCommand_of_decode _ hdec, performCommand_of_decode _ hdec, exec_setHost]
  | error e =>
    rw [performCommand, performCommand, hdec]
    exact unlessStopped_setHost ms rfl

theorem busRead32_setHost (off : Nat) (s : State) : busRead32 off (setHost ms s) = busRead32 off s := rfl

theorem busRead8_setHost (off : Nat) (s : State) : busRead8 off (setHost ms s) = busRead8 off s := rfl

theorem busWrite32_setHost (off : Nat) (v : Word) (s : State) :
    busWrite32 off v (setHost ms s) = (busWrite32 off v s).map (withHost ms) := by
  simp only [busWrite32, performCommand_setHost, apply_ite (Option.map (withHost ms))]
  rfl

theorem busWrite8_setHost (off : Nat) (b : Byte) (s : State) :
    busWrite8 off b (setHost ms s) = (busWrite8 off b s).map (setHost ms) := by
  simp only [busWrite8, setHost_cfg, apply_ite (Option.map (setHost ms))]
  rfl

/-- No host move reads the moves after it. -/
theorem hostMove_setHost (m : HostMove) (s : State) : hostMove m (setHost ms s) = withHost ms (hostMove m s) := by
  cases m with
  | hardReset | read16 off | write16 off v => rfl
  | read32 off =>
    rw [hostMove, hostMove, busRead32_setHost]
    cases busRead32 off s <;> rfl
  | read8 off =>
    rw [hostMove, hostMove, busRead8_setHost]
    cases busRead8 off s <;> rfl
  | write32 off v =>
    rw [hostMove, hostMove, busWrite32_setHost]
    cases busWrite32 off v s <;> rfl
  | write8 off b =>
    rw [hostMove, hostMove, busWrite8_setHost]
    cases busWrite8 off b s <;> rfl

end Commute

/-! ### The host's list after a move -/

theorem exec_host (i : Instr) (s t : State) (h : exec i s = .next t) : t.host = s.host := by
  obtain ⟨-, hhost, -⟩ := commandsLeaveOperandsAlone i s t h
  exact hhost

theorem hostMove_host (m : HostMove) (s t : State) (h : hostMove m s = .next t) : t.host = s.host := by
  obtain ⟨r, rfl⟩ | ⟨w, -, hcmd⟩ | ⟨v, -, rfl⟩ | ⟨a, b, -, -, rfl⟩ | rfl | ⟨-, rfl⟩ := hostMove_cases m s t h
  · exact pushReply_host r s
  · obtain ⟨i, -, hexec⟩ | ⟨e, -, ⟨-, rfl⟩ | ⟨-, rfl⟩⟩ := performCommand_cases w s t hcmd
    · exact exec_host i s t hexec
    · rfl
    · exact raiseFault_host _ s
  · exact setArg_host v s
  · exact setDbuf_host _ s
  · rfl
  · exact resetBlock_host s

/-! ### Runs by steps -/

section Run

variable {M : Host.Core} {n : Nat} {s : M.State}

theorem run_succ_next {t : M.State} (h : M.step s = .next t) : M.run (n + 1) s = M.run n t := by
  rw [Host.Core.run, h]

theorem run_succ_fault {r : M.Fault} (h : M.step s = .fault r) : M.run (n + 1) s = .fault r := by
  rw [Host.Core.run, h]

theorem run_succ_refused {r : M.Refusal} (h : M.step s = .refused r) : M.run (n + 1) s = .refused r := by
  rw [Host.Core.run, h]

end Run

/-- A host with the moves `m :: ms` makes `m` and has `ms` left. -/
theorem step_setHost_cons (m : HostMove) (ms : List HostMove) (s : State) :
    step (setHost (m :: ms) s) = withHost ms (hostMove m s) := by
  rw [step_cons (setHost_host (m :: ms) s), ← hostMove_setHost]
  rfl

/-- Settles O9, by induction over the moves: the first step makes the first move and leaves the rest on the host's list. -/
theorem stepsPerformRun : Obligations.StepsPerformRun := by
  intro s ms hhost
  induction ms generalizing s with
  | nil => exact congrArg Host.Outcome.next (by rw [← hhost]; rfl)
  | cons m ms ih =>
    have hstep := step_setHost_cons m ms s
    rw [runMoves]
    cases hmove : hostMove m s with
    | next t =>
      rw [hmove] at hstep
      exact (run_succ_next hstep).trans (ih t ((hostMove_host m s t hmove).trans hhost))
    | fault r =>
      rw [hmove] at hstep
      exact run_succ_fault hstep
    | refused r =>
      rw [hmove] at hstep
      exact run_succ_refused hstep

end Sys2Proof.Machine
end

section
/-! The statements about CBC mode across commands (rule R281): the vector that a command leaves is where the next one takes
up the chain. Two commands over the parts of a message are compared with one command over the whole through the vector
before each block. -/

namespace Sys2Proof.Machine

theorem xorBytes_assoc {n : Nat} (u v w : Bytes n) : xorBytes (xorBytes u v) w = xorBytes u (xorBytes v w) :=
  bytes_ext _ _ fun i _ => by simp only [byteAt_xorBytes, BitVec.xor_assoc]

/-! ### The vector before a block -/

/-- The vector in force before block `k` of `s` in CBC mode (rules R137, R139), where `c` holds the ciphertext blocks: `c`
is the result of an encryption and the source `s` itself of a decryption. -/
def vectorBefore (s c : State) (k : Nat) : Block := if k = 0 then s.cipher.vec else blockOperand (k - 1) c

@[simp] theorem vectorBefore_zero (s c : State) : vectorBefore s c 0 = s.cipher.vec := rfl

@[simp] theorem vectorBefore_succ (s c : State) (k : Nat) : vectorBefore s c (k + 1) = blockOperand k c := rfl

section Whole

variable {n : Nat} {s t : State} (hcbc : s.cipher.cm = .cbc)
include hcbc

theorem Encrypted.block_of_cbc (h : Encrypted n s t) {k : Nat} (hk : k < n) :
    blockOperand k t
      = aesCipher s.cipher.rk s.cipher.nr.toNat (xorBytes (blockOperand k s) (vectorBefore s t k)) := by
  rw [h.blocks k hk, encryptInput, hcbc]
  rfl

theorem Decrypted.block_of_cbc (h : Decrypted n s t) {k : Nat} (hk : k < n) :
    blockOperand k t
      = xorBytes (aesInvCipher s.cipher.rk s.cipher.nr.toNat (blockOperand k s)) (vectorBefore s s k) := by
  rw [h.blocks k hk, decryptOutput, hcbc]
  rfl

theorem Encrypted.vec_of_cbc (h : Encrypted n s t) : t.cipher.vec = vectorBefore s t n := by
  rw [h.vector]
  cases n <;> simp [hcbc]

theorem Decrypted.vec_of_cbc (h : Decrypted n s t) : t.cipher.vec = vectorBefore s s n := by
  rw [h.vector]
  cases n <;> simp [hcbc]

end Whole

/-! ### Decryption with the vector that encryption left -/

/-- Settles O42: the decryption chains on the ciphertext blocks, which are those the encryption chained on; only before
block 0 is the vector another one, the last ciphertext block. -/
theorem cbcDecryptWithoutInit : Obligations.CbcDecryptWithoutInit := by
  intro s herr hcv hcbc hmod hpos hfit hwf
  obtain ⟨t, ht, henc, ⟨htcv, htcm, -, htnr, htrk⟩, -, -, ⟨hterr, -⟩, harg, hcfg, -⟩ :=
    cEncEncryptsBlocks s herr hcv hmod hfit hwf
  obtain ⟨u, hu, hdec, -, -, -, ⟨huerr, -⟩, -⟩ := cDecDecryptsBlocks t (hterr.trans herr) (htcv.trans hcv)
    (by rw [harg]; exact hmod) (by rw [harg, hcfg]; exact hfit) (exec_wf .cEnc s t ht hwf)
  rw [harg] at hdec
  have hblock : ∀ k, k < s.arg.toNat / 16 →
      blockOperand k u = xorBytes (xorBytes (blockOperand k s) (vectorBefore s t k)) (vectorBefore t t k) := by
    intro k hk
    rw [hdec.block_of_cbc (htcm.trans hcbc) hk, henc.block_of_cbc hcbc hk, htnr, htrk, aesInvCipher_aesCipher]
  obtain ⟨n, hn⟩ : ∃ n, s.arg.toNat / 16 = n + 1 := ⟨s.arg.toNat / 16 - 1, by omega⟩
  refine ⟨t, u, ht, hu, (huerr.trans hterr).trans herr, ?first, fun k hk0 hk => ?later⟩
  case first =>
    have hvec : t.cipher.vec = blockOperand n t := by rw [henc.vec_of_cbc hcbc, hn, vectorBefore_succ]
    rw [hblock 0 (by omega), vectorBefore_zero, vectorBefore_zero, hvec, hn, Nat.add_sub_cancel, xorBytes_assoc,
      xorBytes_comm s.cipher.vec]
  case later =>
    obtain ⟨j, rfl⟩ : ∃ j, k = j + 1 := ⟨k - 1, by omega⟩
    rw [hblock _ hk, vectorBefore_succ, vectorBefore_succ, xorBytes_cancel]

/-! ### A part of a message -/

/-- `s'` has the key of `s`, in CBC mode, and its first `m` blocks are those of `s` from block `j` on. -/
structure CbcPart (j m : Nat) (s s' : State) : Prop where
  /-- CM. -/
  mode : s.cipher.cm = .cbc
  /-- CV, CM, CKL, NR, RK. -/
  key : SameKey s s'
  /-- DBUF. -/
  bytes : ∀ a, a < 16 * m → s'.dbuf.read a = s.dbuf.read (16 * j + a)

/-- Equal blocks are equal bytes. -/
theorem read_eq_of_blocks {j m : Nat} {t t' : State} (h : ∀ k, k < m → blockOperand k t' = blockOperand (j + k) t) :
    ∀ a, a < 16 * m → t'.dbuf.read a = t.dbuf.read (16 * j + a) := by
  intro a ha
  have hdiv : (16 * j + a) / 16 = j + a / 16 := by omega
  have hmod : (16 * j + a) % 16 = a % 16 := by omega
  rw [← byteAt_blockOperand a t', ← byteAt_blockOperand (16 * j + a) t, hdiv, hmod, h _ (by omega)]

section Part

variable {j m n : Nat} {s s' t t' : State} (h : CbcPart j m s s')
include h

theorem CbcPart.part_mode : s'.cipher.cm = .cbc := by
  obtain ⟨-, hcm, -⟩ := h.key
  exact hcm.trans h.mode

theorem CbcPart.block {k : Nat} (hk : k < m) : blockOperand k s' = blockOperand (j + k) s := by
  refine bytes_ext _ _ fun i hi => ?_
  rw [blockOperand, blockOperand, byteAt_memRead _ _ _ _ hi, byteAt_memRead _ _ _ _ hi, h.bytes _ (by omega),
    Nat.mul_add, Nat.add_assoc]

/-- Encryption of a part that starts with the vector in force there in the whole gives the whole's blocks, one after
another, and so the whole's vectors (rule R137). -/
theorem CbcPart.encrypted (hvec : s'.cipher.vec = vectorBefore s t j) (hs : Encrypted n s t)
    (hs' : Encrypted m s' t') (hjm : j + m ≤ n) :
    (∀ a, a < 16 * m → t'.dbuf.read a = t.dbuf.read (16 * j + a)) ∧ t'.cipher.vec = vectorBefore s t (j + m) := by
  obtain ⟨-, -, -, hnr, hrk⟩ := h.key
  have hblock : ∀ k, k < m → vectorBefore s' t' k = vectorBefore s t (j + k) →
      blockOperand k t' = blockOperand (j + k) t := by
    intro k hk hchain
    rw [hs'.block_of_cbc h.part_mode hk, hs.block_of_cbc h.mode (by omega), hnr, hrk, h.block hk, hchain]
  have hchain : ∀ k, k ≤ m → vectorBefore s' t' k = vectorBefore s t (j + k) := by
    intro k
    induction k with
    | zero => exact fun _ => hvec
    | succ k ih => exact fun hk => hblock k hk (ih (by omega))
  exact ⟨read_eq_of_blocks fun k hk => hblock k hk (hchain k (by omega)),
    (hs'.vec_of_cbc h.part_mode).trans (hchain m (Nat.le_refl m))⟩

/-- The same for decryption, which chains on the blocks of its source (rule R139). -/
theorem CbcPart.decrypted (hvec : s'.cipher.vec = vectorBefore s s j) (hs : Decrypted n s t)
    (hs' : Decrypted m s' t') (hjm : j + m ≤ n) :
    (∀ a, a < 16 * m → t'.dbuf.read a = t.dbuf.read (16 * j + a)) ∧ t'.cipher.vec = vectorBefore s s (j + m) := by
  obtain ⟨-, -, -, hnr, hrk⟩ := h.key
  have hchain : ∀ k, k ≤ m → vectorBefore s' s' k = vectorBefore s s (j + k) := by
    intro k hk
    cases k with
    | zero => exact hvec
    | succ k => exact h.block hk
  refine ⟨read_eq_of_blocks fun k hk => ?_, (hs'.vec_of_cbc h.part_mode).trans (hchain m (Nat.le_refl m))⟩
  rw [hs'.block_of_cbc h.part_mode hk, hs.block_of_cbc h.mode (by omega), hnr, hrk, h.block hk, hchain k (by omega)]

end Part

/-! ### A message in two parts -/

/-- The message of `w` in two parts: `f` holds the first `n` blocks and starts as `w` does, `g` holds the next `k` blocks
and takes up the vector of `t1`, where the command on `f` ended. -/
structure CbcSplit (n k : Nat) (w f t1 g : State) : Prop where
  /-- The first part. -/
  first : CbcPart 0 n w f
  /-- Its vector. -/
  start : f.cipher.vec = w.cipher.vec
  /-- The second part. -/
  second : CbcPart n k w g
  /-- Its vector. -/
  resume : g.cipher.vec = t1.cipher.vec

/-- `t1` and `t2` hold the result of two commands on `n` and `k` blocks, which is that of one command, in `t`. -/
structure Chained (n k : Nat) (t t1 t2 : State) : Prop where
  /-- The first part. -/
  first : ∀ a, a < 16 * n → t1.dbuf.read a = t.dbuf.read a
  /-- The second part. -/
  second : ∀ a, a < 16 * k → t2.dbuf.read a = t.dbuf.read (16 * n + a)
  /-- VEC. -/
  vector : t2.cipher.vec = t.cipher.vec

section Split

variable {n k : Nat} {w f g t t1 t2 : State} (h : CbcSplit n k w f t1 g)
include h

theorem CbcSplit.encrypted (hw : Encrypted (n + k) w t) (hf : Encrypted n f t1) (hg : Encrypted k g t2) :
    Chained n k t t1 t2 := by
  obtain ⟨hfirst, hvec⟩ := h.first.encrypted h.start hw hf (by omega)
  rw [Nat.zero_add] at hvec
  obtain ⟨hsecond, hvec'⟩ := h.second.encrypted (h.resume.trans hvec) hw hg (Nat.le_refl _)
  exact ⟨by simpa using hfirst, hsecond, hvec'.trans (hw.vec_of_cbc h.first.mode).symm⟩

theorem CbcSplit.decrypted (hw : Decrypted (n + k) w t) (hf : Decrypted n f t1) (hg : Decrypted k g t2) :
    Chained n k t t1 t2 := by
  obtain ⟨hfirst, hvec⟩ := h.first.decrypted h.start hw hf (by omega)
  rw [Nat.zero_add] at hvec
  obtain ⟨hsecond, hvec'⟩ := h.second.decrypted (h.resume.trans hvec) hw hg (Nat.le_refl _)
  exact ⟨by simpa using hfirst, hsecond, hvec'.trans (hw.vec_of_cbc h.first.mode).symm⟩

end Split

/-! ### Commands on a loaded operand -/

/-- The host loads `buf` and sets ARG to `l`. -/
def State.load (l : Nat) (buf : Memory) (s : State) : State := setArg (BitVec.ofNat 32 l) (setDbuf buf s)

/-- The state in which `C_ENCP` on an operand of `l` bytes encrypts: the operand followed by its pad bytes (rule R138). -/
def State.loadPadded (l : Nat) (buf : Memory) (s : State) : State := memWrite l (padBytes l) (s.load l buf)

theorem padLength_add_mul (n l : Nat) : padLength (16 * n + l) = padLength l := by
  rw [padLength, padLength, Nat.mul_add_mod]

theorem padLength_fills (l : Nat) : 16 * ((l + padLength l) / 16) = l + padLength l := by
  rw [padLength]
  omega

theorem State.read_loadPadded (l a : Nat) {buf : Memory} (s : State) (hwf : buf.wf = true) :
    (s.loadPadded l buf).dbuf.read a
      = if l ≤ a ∧ a < l + padLength l then BitVec.ofNat 8 (padLength l) else buf.read a :=
  read_memWrite_padBytes l a (s.load l buf) hwf

/-- A running block with a key in CBC mode and legal parameters. -/
structure CbcReady (s : State) : Prop where
  /-- ERR. -/
  running : s.err = false
  /-- CV. -/
  valid : s.cv = true
  /-- CM. -/
  mode : s.cipher.cm = .cbc
  /-- The parameters. -/
  params : s.cfg.wf = true

section Ready

variable {s : State} (hs : CbcReady s)
include hs

/-- A length that fits the buffer fits ARG. -/
theorem CbcReady.load_arg {l : Nat} (hfit : l ≤ s.cfg.bufBytes) (buf : Memory) : (s.load l buf).arg.toNat = l := by
  have hbound := bufBytes_lt_of_wf hs.params
  rw [State.load, setArg_arg, BitVec.toNat_ofNat]
  omega

theorem CbcReady.of_same {t : State} (hkey : SameKey s t) (herr : SameError s t) (hcfg : t.cfg = s.cfg) :
    CbcReady t := by
  obtain ⟨hcv, hcm, -⟩ := hkey
  exact ⟨herr.1.trans hs.running, hcv.trans hs.valid, hcm.trans hs.mode, hcfg ▸ hs.params⟩

variable {n : Nat} {buf : Memory}

theorem CbcReady.exec_cEnc (hfit : 16 * n ≤ s.cfg.bufBytes) (hwf : buf.wf = true) :
    ∃ t, exec .cEnc (s.load (16 * n) buf) = .next t ∧ Encrypted n (s.load (16 * n) buf) t
      ∧ SameKey s t ∧ t.cfg = s.cfg ∧ CbcReady t := by
  have harg := hs.load_arg hfit buf
  obtain ⟨t, ht, henc, hkey, -, -, herr, -, hcfg, -⟩ := cEncEncryptsBlocks (s.load (16 * n) buf) hs.running hs.valid
    (by omega) (harg.symm ▸ hfit) hwf
  rw [harg, Nat.mul_div_cancel_left n (by decide)] at henc
  exact ⟨t, ht, henc, hkey, hcfg, hs.of_same hkey herr hcfg⟩

theorem CbcReady.exec_cDec (hfit : 16 * n ≤ s.cfg.bufBytes) (hwf : buf.wf = true) :
    ∃ t, exec .cDec (s.load (16 * n) buf) = .next t ∧ Decrypted n (s.load (16 * n) buf) t
      ∧ SameKey s t ∧ t.cfg = s.cfg ∧ CbcReady t := by
  have harg := hs.load_arg hfit buf
  obtain ⟨t, ht, hdec, hkey, -, -, herr, -, hcfg, -⟩ := cDecDecryptsBlocks (s.load (16 * n) buf) hs.running hs.valid
    (by omega) (harg.symm ▸ hfit) hwf
  rw [harg, Nat.mul_div_cancel_left n (by decide)] at hdec
  exact ⟨t, ht, hdec, hkey, hcfg, hs.of_same hkey herr hcfg⟩

theorem CbcReady.exec_cEncp {l : Nat} (hfit : l + padLength l ≤ s.cfg.bufBytes) (hwf : buf.wf = true) :
    ∃ t, exec .cEncp (s.load l buf) = .next t ∧ Encrypted ((l + padLength l) / 16) (s.loadPadded l buf) t := by
  have harg := hs.load_arg (by omega : l ≤ s.cfg.bufBytes) buf
  have hexec := exec_cEncp_running (s := s.load l buf) hs.running hs.valid (harg.symm ▸ hfit)
  rw [harg] at hexec
  obtain ⟨-, -, henc⟩ := forBlocks_encryptBlock ((l + padLength l) / 16) (s.loadPadded l buf)
    (wf_memWrite l (padBytes l) (s.load l buf) hwf)
  exact ⟨_, hexec, henc⟩

end Ready

/-! ### The statements -/

/-- The two parts of a message that the host loads one after the other, with the command on the first ending in `t1`. -/
theorem CbcReady.split {n k : Nat} {whole first second : Memory} {s t1 : State} (hs : CbcReady s) (hkey : SameKey s t1)
    (hfirst : ∀ a, a < 16 * n → first.read a = whole.read a)
    (hsecond : ∀ a, a < 16 * k → second.read a = whole.read (16 * n + a)) :
    CbcSplit n k (s.load (16 * (n + k)) whole) (s.load (16 * n) first) t1 (t1.load (16 * k) second) where
  first := ⟨hs.mode, ⟨rfl, rfl, rfl, rfl, rfl⟩, fun a ha => by rw [Nat.mul_zero, Nat.zero_add]; exact hfirst a ha⟩
  start := rfl
  second := ⟨hs.mode, hkey, hsecond⟩
  resume := rfl

/-- Settles O43. -/
theorem cbcCommandsChain : Obligations.CbcCommandsChain := by
  intro s n k whole first second herr hcv hcbc hcfg hfit hwhole hfirst hsecond hread1 hread2
  have hs : CbcReady s := ⟨herr, hcv, hcbc, hcfg⟩
  obtain ⟨t, ht, henc, -⟩ := hs.exec_cEnc hfit hwhole
  obtain ⟨t1, ht1, henc1, hkey1, hcfg1, hs1⟩ := hs.exec_cEnc (n := n) (by omega) hfirst
  obtain ⟨t2, ht2, henc2, -⟩ := hs1.exec_cEnc (n := k) (by rw [hcfg1]; omega) hsecond
  have hchained := (hs.split hkey1 hread1 hread2).encrypted henc henc1 henc2
  exact ⟨t, t1, t2, ht, ht1, ht2, hchained.first, hchained.second, hchained.vector⟩

/-- Settles O56. -/
theorem cbcDecryptsChain : Obligations.CbcDecryptsChain := by
  intro s n k whole first second herr hcv hcbc hcfg hfit hwhole hfirst hsecond hread1 hread2
  have hs : CbcReady s := ⟨herr, hcv, hcbc, hcfg⟩
  obtain ⟨t, ht, hdec, -⟩ := hs.exec_cDec hfit hwhole
  obtain ⟨t1, ht1, hdec1, hkey1, hcfg1, hs1⟩ := hs.exec_cDec (n := n) (by omega) hfirst
  obtain ⟨t2, ht2, hdec2, -⟩ := hs1.exec_cDec (n := k) (by rw [hcfg1]; omega) hsecond
  have hchained := (hs.split hkey1 hread1 hread2).decrypted hdec hdec1 hdec2
  exact ⟨t, t1, t2, ht, ht1, ht2, hchained.first, hchained.second, hchained.vector⟩

/-- The parts of a message whose second part is padded: padding the part is padding the whole (rules R138, R282). -/
theorem CbcReady.splitPadded {n l : Nat} {whole first second : Memory} {s t1 : State} (hs : CbcReady s)
    (hkey : SameKey s t1) (hwhole : whole.wf = true) (hsecond : second.wf = true)
    (hread1 : ∀ a, a < 16 * n → first.read a = whole.read a)
    (hread2 : ∀ a, a < l → second.read a = whole.read (16 * n + a)) :
    CbcSplit n ((l + padLength l) / 16) (s.loadPadded (16 * n + l) whole) (s.load (16 * n) first) t1
      (t1.loadPadded l second) where
  first := by
    refine ⟨hs.mode, ⟨rfl, rfl, rfl, rfl, rfl⟩, fun a ha => ?_⟩
    rw [Nat.mul_zero, Nat.zero_add, State.read_loadPadded _ _ s hwhole, if_neg (by omega)]
    exact hread1 a ha
  start := rfl
  second := by
    refine ⟨hs.mode, hkey, fun a ha => ?_⟩
    rw [padLength_fills] at ha
    rw [State.read_loadPadded _ _ t1 hsecond, State.read_loadPadded _ _ s hwhole, padLength_add_mul]
    by_cases hl : a < l
    · rw [if_neg (by omega), if_neg (by omega), hread2 a hl]
    · rw [if_pos (by omega), if_pos (by omega)]
  resume := rfl

/-- Settles O57: `C_ENCP` encrypts the padded operand as `C_ENC` would. -/
theorem cbcPaddedEndChains : Obligations.CbcPaddedEndChains := by
  intro s n l whole first second herr hcv hcbc hcfg hfit hwhole hfirst hsecond hread1 hread2
  change 16 * n + l + padLength l ≤ s.cfg.bufBytes at hfit
  have hs : CbcReady s := ⟨herr, hcv, hcbc, hcfg⟩
  obtain ⟨t, ht, henc⟩ := hs.exec_cEncp (l := 16 * n + l) (by rwa [padLength_add_mul]) hwhole
  obtain ⟨t1, ht1, henc1, hkey1, hcfg1, hs1⟩ := hs.exec_cEnc (n := n) (by omega) hfirst
  obtain ⟨t2, ht2, henc2⟩ := hs1.exec_cEncp (l := l) (by rw [hcfg1]; omega) hsecond
  have hblocks : (16 * n + l + padLength (16 * n + l)) / 16 = n + (l + padLength l) / 16 := by
    rw [padLength_add_mul]
    omega
  rw [hblocks] at henc
  have hchained := (hs.splitPadded hkey1 hwhole hsecond hread1 hread2).encrypted henc henc1 henc2
  refine ⟨t, t1, t2, ht, ht1, ht2, hchained.first, fun a ha => hchained.second a ?_, hchained.vector⟩
  rw [padLength_fills]
  exact ha

end Sys2Proof.Machine
end
